-- ==== Sys2Proof/Word.lean ====
section
/-! DEFINITION. The words of the block (00_scope.md R9, R10): 64-bit registers and buffer entries, bytes, and
binary64 values held as their bit patterns (10_state.md R34). -/

namespace Sys2Proof

/-- A 64-bit register, buffer entry or command word (R9). -/
abbrev Word := BitVec 64

/-- One byte of the host's address space (R54). -/
abbrev Byte := BitVec 8

/-- An IEEE 754 binary64 value as its 64-bit pattern: sign in bit 63, biased exponent in bits 62:52, fraction in
bits 51:0 (R9, R15, R34). -/
abbrev F64 := BitVec 64

/-- A complex point: in-phase (real) part and quadrature (imaginary) part (R9, R37). -/
structure Point where
  i : F64
  q : F64
deriving DecidableEq, Repr, Inhabited

/-- "No element position" (00_scope.md R13). -/
def nopos : Word := 0xFFFFFFFFFFFFFFFF

end Sys2Proof
end

