-- ==== Sys2Proof/Syntax.lean ====
section
/-! DEFINITION. The commands of spec/opcode_table.json, the fields of the command word (30_encoding.md R66), and the
accesses a host can make (70_reset_and_hazards.md R137). -/

namespace Sys2Proof

/-- The six commands (30_encoding.md R68), one constructor per row of spec/opcode_table.json. A command word has no
operand fields: every operand is read from the state (R66, R69). -/
inductive Instr where
  /-- MAP, OPC 0x01: indices to constellation points (40_mapper.md R78). -/
  | map
  /-- DEMAP, OPC 0x02: the exact inverse of MAP (40_mapper.md R81). -/
  | demap
  /-- SLICE, OPC 0x03: nearest constellation point (41_slicer.md R84). -/
  | slice
  /-- AWGN, OPC 0x04: additive white Gaussian noise (42_awgn.md R91). -/
  | awgn
  /-- PNROT, OPC 0x05: phase noise, then a constant rotation (43_phase_rotator.md R100). -/
  | pnrot
  /-- SEED, OPC 0x06: load the generator state (44_control.md R107). -/
  | seed
deriving DecidableEq, Repr

/-- The two fields of the command word, format C (R66). -/
structure CommandFields where
  /-- Bits 7:0, the opcode. -/
  opc : BitVec 8
  /-- Bits 63:8, reserved, must be 0. -/
  rsvd : BitVec 56
deriving DecidableEq, Repr

/-- One thing the host can do to the block (R137). Offsets are counted from BASE (20_memory.md R47); `width` is the
access width in bytes (R12, R51). -/
inductive HostAccess where
  /-- A read of `width` bytes at `offset` (R55). -/
  | read (width offset : Nat)
  /-- A write of `width` bytes at `offset`; `value` is what a write of 8 bytes carries (R56). -/
  | write (width offset : Nat) (value : Word)
  /-- The reset event (70_reset_and_hazards.md R128). -/
  | reset
deriving DecidableEq, Repr

end Sys2Proof
end

