-- ==== Sys2Proof/Decode.lean ====
section
/-! DEFINITION. The decoder and the encoder of command words (30_encoding.md R66 to R71), and the byte layout of a
64-bit word (20_memory.md R54). The decoder is total: every word selects exactly one command or is rejected by name. -/

namespace Sys2Proof

/-- Why a command word selects no command. The block answers every one of these with IllegalCommand (R67, R70). -/
inductive DecodeError where
  /-- RSVD is not 0, whatever the opcode (R70). -/
  | reservedBits (rsvd : BitVec 56)
  /-- The opcode is none of 0x01..0x06 (R70). -/
  | unassignedOpcode (opc : BitVec 8)
  /-- Not the 8 bytes of one command word (R71: every command is exactly one word). -/
  | notOneWord (bytes : Nat)
deriving DecidableEq, Repr

/-- The fields of a command word (R66). -/
def commandFields (w : Word) : CommandFields :=
  { opc := w.extractLsb' 0 8, rsvd := w.extractLsb' 8 56 }

/-- The command word with the given fields (R66). -/
def commandWord (f : CommandFields) : Word := f.rsvd ++ f.opc

/-- The command an opcode selects (R68). -/
def instrOfOpcode (opc : BitVec 8) : Option Instr :=
  if opc = 0x01#8 then some .map
  else if opc = 0x02#8 then some .demap
  else if opc = 0x03#8 then some .slice
  else if opc = 0x04#8 then some .awgn
  else if opc = 0x05#8 then some .pnrot
  else if opc = 0x06#8 then some .seed
  else none

/-- The opcode of a command (R68). -/
def opcodeOf : Instr → BitVec 8
  | .map => 0x01#8
  | .demap => 0x02#8
  | .slice => 0x03#8
  | .awgn => 0x04#8
  | .pnrot => 0x05#8
  | .seed => 0x06#8

/-- The decoder (R67). -/
def decode (w : Word) : Except DecodeError Instr :=
  let f := commandFields w
  if f.rsvd ≠ 0 then .error (.reservedBits f.rsvd)
  else match instrOfOpcode f.opc with
    | some i => .ok i
    | none => .error (.unassignedOpcode f.opc)

/-- The encoder: the command word of R68, zext_64(OPC). -/
def encode (i : Instr) : Word := commandWord { opc := opcodeOf i, rsvd := 0 }

/-- Byte `i` of a word in the block's byte order: bits 8i+7:8i (20_memory.md R54). -/
def byteOfWord (w : Word) (i : Nat) : Byte := w.extractLsb' (8 * i) 8

/-- The eight bytes of a word, lowest address first (R54). -/
def bytesOfWord (w : Word) : List Byte := (List.range 8).map (byteOfWord w)

/-- The word whose bytes stand at rising addresses, lowest first (R54). -/
def wordOfBytes (b0 b1 b2 b3 b4 b5 b6 b7 : Byte) : Word :=
  b7 ++ b6 ++ b5 ++ b4 ++ b3 ++ b2 ++ b1 ++ b0

/-- Decoding the bytes a bus would carry: total on any bytes; anything but one whole word is rejected by name. -/
def decodeBytes : List Byte → Except DecodeError Instr
  | [b0, b1, b2, b3, b4, b5, b6, b7] => decode (wordOfBytes b0 b1 b2 b3 b4 b5 b6 b7)
  | bs => .error (.notOneWord bs.length)

/-- The instruction the decoder reads from a row of spec/opcode_table.json whose low `nbits` bits are `w`, every higher
bit of the command word 0: the word is laid out as bytes and given to the decoder. -/
def decodeTableWord (nbits w : Nat) : Option Instr :=
  match decodeBytes (bytesOfWord (BitVec.ofNat 64 (w % 2 ^ nbits))) with
  | .ok i => some i
  | .error _ => none

end Sys2Proof
end

