-- ==== Sys2Proof/Config.lean ====
section
/-! DEFINITION. What one build of the block fixes and the spec leaves open (00_scope.md R5 to R8, 20_memory.md R47,
10_state.md R46). The raw parameters stand here; `Machine/Params.lean` gives them the named properties that R5 to R8
require, so that every choice of the raw parameters is a legal block and every legal block is some choice of them. -/

namespace Sys2Proof

/-- The random generator's internal state, the parameter type RngState of R7. The state of a digital generator is
countable, so a natural number can stand for it whatever the generator is (log entry 4; DESIGN CHOICE, safe). -/
abbrev RngState := Nat

/-- The open parameters of one block (R46): fixed for the block, changed by no command and by no reset. -/
structure Config where
  /-- MAX_FRAME - 1, so that 1 <= MAX_FRAME <= 4096 (R5). -/
  maxFramePred : Fin 4096
  /-- CONST_ORDER as a reordering of the reference table CONST_REF: a bijection from positions to points (R6). -/
  constPerm : Equiv.Perm (Fin 16)
  /-- BASE / 0x40000 (R47: BASE is a multiple of 0x40000). -/
  baseBlock : Nat
  /-- SEEDFN (R7). -/
  seedFn : Word → RngState
  /-- GAUSS before GAUSS_FINITE is imposed on it (R7). -/
  gaussRaw : RngState → F64 × RngState
  /-- COS before COS_ZERO and the range of R8 are imposed on it. -/
  cosRaw : F64 → F64
  /-- SIN before SIN_ZERO and the range of R8 are imposed on it. -/
  sinRaw : F64 → F64
  /-- POW10 before POW10_INT and the range of R8 are imposed on it. -/
  pow10Raw : F64 → F64
deriving Inhabited

/-- The configuration of the block being modelled: a FREE VALUE. It has no body, so nothing can be proved of it but
what holds of every block (R5 to R8, R46, R47; log entries 2 to 5 and 9). -/
opaque Config.chip : Config

end Sys2Proof
end

