-- ==== Sys2Proof/Machine/Binary64.lean ====
section
/-! DEFINITION. IEEE 754 binary64 arithmetic on bit patterns (00_scope.md R15 to R18): add, subtract, multiply, divide
and square root, each rounded once to nearest, ties to even. Every finite value is a whole number of units of 2^-1074,
so exact values (R16) are integers, and one rounding function serves every operator. -/

namespace Sys2Proof.Binary64

/-- How many units of 2^-1074 make 1.0. -/
@[irreducible] def one : Nat := 2 ^ 1074

/-- The sign bit, bit 63 (10_state.md R34). -/
def sign (x : F64) : Bool := x.msb

/-- Bits 62:0: biased exponent and fraction together. Magnitudes rise with this pattern. -/
def magBits (x : F64) : Nat := (x.extractLsb' 0 63).toNat

/-- The magnitude pattern of infinity: biased exponent 2047, fraction 0. -/
def infMag : Nat := 0x7FF0000000000000

/-- Neither an infinity nor a NaN (R16). -/
def isFinite (x : F64) : Bool := decide (magBits x < infMag)

def isInf (x : F64) : Bool := decide (magBits x = infMag)

def isNaN (x : F64) : Bool := decide (infMag < magBits x)

/-- +0 or -0. -/
def isZero (x : F64) : Bool := decide (magBits x = 0)

/-- The exact value of a finite magnitude pattern, in units of 2^-1074. Biased exponent e and fraction f stand for f
units when e = 0 and (2^52 + f) * 2^(e-1) units otherwise. (At `infMag` it gives 2^1024, the value at which IEEE 754
rounds to infinity as if it were the next binary64 value.) -/
def magUnits (k : Nat) : Nat :=
  if k / 2 ^ 52 = 0 then k else (2 ^ 52 + k % 2 ^ 52) * 2 ^ (k / 2 ^ 52 - 1)

/-- real(x) of R16, in units of 2^-1074; exact. Of meaning for finite x only. -/
def units (x : F64) : Int :=
  if sign x then -(magUnits (magBits x) : Int) else (magUnits (magBits x) : Int)

/-- The pattern with the given sign and magnitude pattern. -/
def pack (neg : Bool) (k : Nat) : F64 := BitVec.ofNat 64 (if neg then 2 ^ 63 + k else k)

/-- The not-a-number every invalid operation answers here. Which pattern it is can never be seen: no command stores a
value that is not finite (60_exceptions.md R115; log entry 6). -/
def nan : F64 := 0x7FF8000000000000

def infinity (neg : Bool) : F64 := pack neg infMag

def zero (neg : Bool) : F64 := pack neg 0

/-- The magnitude pattern nearest to the exact value `n / d` units (d > 0), ties to the even pattern, infinity from
the overflow threshold on (R15: round to nearest, ties to even). `s` is the number of low bits of the quotient that do
not fit the 53-bit significand; patterns with that `s` are `s * 2^52 + significand`. -/
def roundMag (n d : Nat) : Nat :=
  let s := Nat.log2 (n / d) - 52
  let unit := d * 2 ^ s
  let sig := n / unit
  let rest := n % unit
  let k := s * 2 ^ 52 + sig
  min infMag (if 2 * rest > unit ∨ (2 * rest = unit ∧ sig % 2 = 1) then k + 1 else k)

/-- Change of sign, bit 63. -/
def neg (x : F64) : F64 := x ^^^ 0x8000000000000000

/-- IEEE addition (R15). An exact zero sum is -0 only when both operands are negative. -/
def add (x y : F64) : F64 :=
  if isNaN x || isNaN y then nan
  else if isInf x then (if isInf y && (sign x != sign y) then nan else x)
  else if isInf y then y
  else
    let z := units x + units y
    if z = 0 then zero (sign x && sign y) else pack (decide (z < 0)) (roundMag z.natAbs 1)

/-- IEEE subtraction (R15): addition of the operand with its sign changed. -/
def sub (x y : F64) : F64 := add x (neg y)

/-- IEEE multiplication (R15). The product of `a` and `b` units of 2^-1074 is `a * b / 2^1074` units. -/
def mul (x y : F64) : F64 :=
  let s := sign x != sign y
  if isNaN x || isNaN y then nan
  else if isInf x || isInf y then (if isZero x || isZero y then nan else infinity s)
  else pack s (roundMag ((units x).natAbs * (units y).natAbs) one)

/-- IEEE division (R15). The quotient of `a` by `b` units is `a * 2^1074 / b` units. -/
def div (x y : F64) : F64 :=
  let s := sign x != sign y
  if isNaN x || isNaN y then nan
  else if isInf x then (if isInf y then nan else infinity s)
  else if isInf y then zero s
  else if isZero y then (if isZero x then nan else infinity s)
  else pack s (roundMag ((units x).natAbs * one) (units y).natAbs)

/-- The integer square root, bit by bit: the greatest r + t with t < 2^bits whose square is at most n, given r. -/
def isqrtFrom (n : Nat) : Nat → Nat → Nat
  | 0, r => r
  | b + 1, r => isqrtFrom n b (if (r + 2 ^ b) * (r + 2 ^ b) ≤ n then r + 2 ^ b else r)

/-- The greatest r with r * r <= n, for n < 2^128. -/
def isqrt (n : Nat) : Nat := isqrtFrom n 64 0

/-- The magnitude pattern of the correctly rounded square root of `a` units (a > 0). The root is the square root of
`a * 2^1074` units. That radicand is cut to 112 to 114 bits, `h` powers of 4 lower; `t` holds the first 56 or 57 bits
of the root, and one more bit below them says whether anything was cut off, which is all that rounding to 53 bits
needs. -/
def sqrtMag (a : Nat) : Nat :=
  let x := a * one
  let h := (Nat.log2 x - 112) / 2
  let t := isqrt (x / 4 ^ h)
  let low := if t * t * 4 ^ h = x then 0 else 1
  roundMag ((2 * t + low) * 2 ^ h) 2

/-- sqrt64 of R15: the IEEE correctly rounded square root. -/
def sqrt (x : F64) : F64 :=
  if isNaN x || isZero x then x
  else if sign x then nan
  else if isInf x then x
  else pack false (sqrtMag (units x).natAbs)

/-- The binary64 value nearest to the decimal or other fraction `num / den` (den > 0): f64 of R22, toF64 of R17. -/
def ofRatio (negative : Bool) (num den : Nat) : F64 := pack negative (roundMag (num * one) den)

/-- toF64 of R17: exact for 0 <= n <= 4096. -/
def ofNat (n : Nat) : F64 := ofRatio false n 1

/-- 1.0 -/
def f1 : F64 := 0x3FF0000000000000
/-- 2.0 -/
def f2 : F64 := 0x4000000000000000
/-- 10.0 -/
def f10 : F64 := 0x4024000000000000
/-- 180.0 -/
def f180 : F64 := 0x4066800000000000

/-- PI64 (R18). -/
def pi64 : F64 := 0x400921FB54442D18

end Sys2Proof.Binary64
end

