-- ==== Sys2Proof/Machine/Constellation.lean ====
section
/-! DEFINITION. The constellation: the sixteen points, the reference order CONST_REF and the order of one build
(00_scope.md R6, 40_mapper.md R74 to R77), the exact inverse by value (R82) and the nearest point (41_slicer.md R85,
R86). The table is an argument: the block holds it in its ROM (10_state.md R41). -/

namespace Sys2Proof

/-- The constellation ROM: position p holds CMAP(p) (10_state.md R41). -/
abbrev Rom := Vector Point 16

/-- The four levels -3.0, -1.0, 1.0, 3.0, the list L of R6. -/
def level : Fin 4 → F64
  | 0 => 0xC008000000000000
  | 1 => 0xBFF0000000000000
  | 2 => 0x3FF0000000000000
  | 3 => 0x4008000000000000

/-- CONST_REF (R6, 40_mapper.md R75): position p = 4a + b holds (L[a], L[b]). -/
def constRef (p : Fin 16) : Point :=
  { i := level ⟨p.val / 4, by omega⟩, q := level ⟨p.val % 4, by omega⟩ }

/-- CONST_ORDER of a build (R6). -/
def Config.constOrder (c : Config) (p : Fin 16) : Point := constRef (c.constPerm p)

/-- The ROM of a build: CMAP(p) = CONST_ORDER(p) (R41, R74). -/
def Config.rom (c : Config) : Rom := Vector.ofFn c.constOrder

/-- CMAP(p). -/
def Rom.point (r : Rom) (p : Fin 16) : Point := r[p]

/-- Two finite points are the same value: R82 compares halves by real value. -/
def Point.sameValue (a b : Point) : Bool :=
  decide (Binary64.units a.i = Binary64.units b.i) && decide (Binary64.units a.q = Binary64.units b.q)

/-- Both halves are finite (R16). -/
def Point.isFinite (a : Point) : Bool := Binary64.isFinite a.i && Binary64.isFinite a.q

/-- inverse of R77: the position whose point has the value of `s`, if there is one (R81, R82). -/
def Rom.inverse (r : Rom) (s : Point) : Option (Fin 16) :=
  (List.finRange 16).find? fun p => (r.point p).sameValue s

/-- The exact squared distance of R85, in units of 2^-2148. -/
def distSq (a b : Point) : Int :=
  (Binary64.units a.i - Binary64.units b.i) ^ 2 + (Binary64.units a.q - Binary64.units b.q) ^ 2

/-- `p` is at minimal distance from `s` among the sixteen positions. -/
def Rom.isNearest (r : Rom) (s : Point) (p : Fin 16) : Bool :=
  (List.finRange 16).all fun p' => decide (distSq s (r.point p) ≤ distSq s (r.point p'))

/-- nearest(s) of R85: the least position at minimal distance (R86). One of sixteen distances is always minimal, so the
default is never used. -/
def Rom.nearest (r : Rom) (s : Point) : Fin 16 :=
  ((List.finRange 16).find? (r.isNearest s)).getD 0

end Sys2Proof
end

