-- ==== Sys2Proof/Machine/Params.lean ====
section
/-! DEFINITION. The open parameters with the properties the spec names for them (00_scope.md R5, R7, R8; 20_memory.md
R47). Each is the raw parameter of `Config` wherever the spec leaves it open, and the value the spec gives where it
gives one, so the named properties hold of every block and nothing else does. -/

namespace Sys2Proof

/-- MAX_FRAME, between 1 and 4096 (R5). -/
def Config.maxFrame (c : Config) : Nat := c.maxFramePred.val + 1

/-- BASE, a multiple of 0x40000 (R47). -/
def Config.base (c : Config) : Nat := 0x40000 * c.baseBlock

/-- GAUSS: one draw and the next state; the draw is finite (GAUSS_FINITE, R7). -/
def Config.gauss (c : Config) (r : RngState) : F64 × RngState :=
  (if Binary64.isFinite (c.gaussRaw r).1 then (c.gaussRaw r).1 else Binary64.zero false, (c.gaussRaw r).2)

/-- The range R8 gives COS, SIN and POW10: for a finite argument, a finite value or +infinity, never NaN. A raw value
outside it is replaced by +0; a raw value for an argument that is not finite is left as it is (R8 says nothing of it,
and no command computes one). -/
def tame (x v : F64) : F64 :=
  if Binary64.isFinite x && !(Binary64.isFinite v || v == Binary64.infinity false) then Binary64.zero false else v

/-- COS, with COS(+0) = COS(-0) = 1.0 (COS_ZERO, R8). -/
def Config.cos (c : Config) (x : F64) : F64 :=
  if Binary64.isZero x then Binary64.f1 else tame x (c.cosRaw x)

/-- SIN, with SIN(+0) = +0 and SIN(-0) = -0 (SIN_ZERO, R8). -/
def Config.sin (c : Config) (x : F64) : F64 :=
  if Binary64.isZero x then x else tame x (c.sinRaw x)

/-- 10^k as a binary64 value when `x` is the binary64 value of an integer k in 0..22 (POW10_INT, R8; each of these
powers is a binary64 value exactly). -/
def pow10Exact (x : F64) : Option F64 :=
  ((List.range 23).find? fun k => x == Binary64.ofNat k).map fun k => Binary64.ofNat (10 ^ k)

/-- POW10 (R8). POW10(-0) is left open (log entry 5). -/
def Config.pow10 (c : Config) (x : F64) : F64 :=
  match pow10Exact x with
  | some v => v
  | none => tame x (c.pow10Raw x)

/-- cis of R20: (COS x, SIN x). -/
def Config.cis (c : Config) (x : F64) : Point := { i := c.cos x, q := c.sin x }

end Sys2Proof
end

