-- ==== Sys2Proof/Machine/State.lean ====
section
/-! DEFINITION. The block's state (10_state.md), what can stop the model (60_exceptions.md R119), and the state right
after reset (10_state.md R45, 70_reset_and_hazards.md R128). -/

namespace Sys2Proof.Machine

/-- The model faults of 60_exceptions.md R119: host actions the block gives no meaning. They change no block state.
SAFE: no claim about a value the spec refuses to give can be proved. -/
inductive Fault where
  /-- Raised by a host access of a width other than 8 bytes, misaligned, to an unmapped offset, by a write of STATUS,
  ERRPOS or CAPS, and by a read of CMD (20_memory.md R49, R51 to R53). Safe. -/
  | busError
  /-- Raised by a host read of an IDX entry or SYM half whose written mark is false, and by a frame command that comes
  to an operand whose mark is false (10_state.md R38). Safe. -/
  | unwrittenRead
deriving DecidableEq, Repr

/-- What the model gives no meaning to. -/
inductive Refusal where
  /-- An instruction that has no meaning yet, by its mnemonic. No arm of `exec` raises it: all six commands have their
  meaning. Safe. -/
  | notModelled (mnemonic : String)
deriving DecidableEq, Repr

/-- The bytes of the frame buffers by offset from BASE, in rising order; a byte nothing has written is not listed. -/
abbrev Memory := List Host.Cell

/-- The block, and the host's side of its port (INVENTORY.md, State). -/
structure State where
  /-- STATUS (10_state.md R31): ERR in bits 7:0, LASTOP in bits 15:8, 0 above. -/
  status : Word
  /-- ERRPOS (R32). -/
  errpos : Word
  /-- FLEN (R33). -/
  flen : Word
  /-- SNR_DB (R34), a binary64 pattern. -/
  snrDb : F64
  /-- PN_PARAM (R34), a binary64 pattern. -/
  pnParam : F64
  /-- ROT_DEG (R34), a binary64 pattern. -/
  rotDeg : F64
  /-- SEED (R35). -/
  seed : Word
  /-- CAPS (R39): MAX_FRAME in bits 15:0, 0 above; nothing writes it. -/
  caps : Word
  /-- CMAP, the constellation ROM (R41); nothing writes it. -/
  cmap : Rom
  /-- IDX and SYM (R36, R37) with their written marks (R38). -/
  mem : Memory
  /-- RNG (R40). -/
  rng : RngState
  /-- The fault record (60_exceptions.md R119), oldest first. -/
  faultRecord : List Fault
  /-- The MODEL's own field: the accesses the host will make, in order (20_memory.md R61; log entry 1). -/
  port : List HostAccess
  /-- The MODEL's own field: what the host's reads have returned, oldest first (70_reset_and_hazards.md R138). -/
  returned : List Word
deriving DecidableEq, Repr

/-- The machine right after reset (10_state.md R45, 70_reset_and_hazards.md R128), with no access waiting, nothing read
and no fault recorded. -/
def State.reset : State where
  status := 0
  errpos := nopos
  flen := 0
  snrDb := 0
  pnParam := 0
  rotDeg := 0
  seed := 0
  caps := BitVec.ofNat 64 Config.chip.maxFrame
  cmap := Config.chip.rom
  mem := []
  rng := Config.chip.seedFn 0
  faultRecord := []
  port := []
  returned := []

end Sys2Proof.Machine
end

