-- ==== Sys2Proof/Machine/Flags.lean ====
section
/-! DEFINITION. The block errors and their codes (60_exceptions.md R111), and the words STATUS and ERRPOS take
(10_state.md R31, R32; 60_exceptions.md R112). These are the block's only flags (10_state.md R43). -/

namespace Sys2Proof.Machine

/-- The block errors of R111. -/
inductive BlockError where
  /-- An index outside [0,15], by MAP. -/
  | invalidIndex
  /-- Reserved; no command raises it (R111, log of the spec D36). -/
  | lengthMismatch
  /-- FLEN = 0 or computed variance 0, by AWGN. -/
  | degenerateSignal
  /-- A command word with RSVD ≠ 0 or an unassigned opcode, by the decoder. -/
  | illegalCommand
  /-- FLEN > MAX_FRAME, by every frame command. -/
  | frameLength
  /-- SNR_DB, PN_PARAM or ROT_DEG not legal, by AWGN and PNROT. -/
  | invalidParameter
  /-- A NaN or infinite SYM half, by DEMAP, SLICE, AWGN and PNROT. -/
  | nonFiniteInput
  /-- A finite SYM entry that is none of the sixteen points, by DEMAP. -/
  | notAConstellationPoint
  /-- A computed value that is not finite, by AWGN and PNROT. -/
  | numericOverflow
deriving DecidableEq, Repr

/-- The error codes of R111. -/
def BlockError.code : BlockError → Byte
  | .invalidIndex => 1
  | .lengthMismatch => 2
  | .degenerateSignal => 3
  | .illegalCommand => 4
  | .frameLength => 5
  | .invalidParameter => 6
  | .nonFiniteInput => 7
  | .notAConstellationPoint => 8
  | .numericOverflow => 9

/-- STATUS after a command whose word has `op` in bits 7:0 and whose error code is `err`: zext_64(op ++ err) (R112). -/
def statusWord (op err : Byte) : Word := (op ++ err).setWidth 64

/-- STATUS.ERR (10_state.md R31). -/
def State.errField (s : State) : Byte := s.status.extractLsb' 0 8

/-- STATUS.LASTOP (10_state.md R31). -/
def State.lastOpField (s : State) : Byte := s.status.extractLsb' 8 8

/-- Element position `k` as ERRPOS holds it (10_state.md R32). -/
def posWord (k : Nat) : Word := BitVec.ofNat 64 k

end Sys2Proof.Machine
end

