-- ==== Sys2Proof/Machine/Ops.lean ====
section
/-! DEFINITION. The shared operations: bytes and words of the frame buffers (20_memory.md R54; 10_state.md R36 to R38),
the element loop (00_scope.md R14), raising a block error and the bookkeeping that ends a command (60_exceptions.md R112,
R113), the generator's draws (00_scope.md R21) and the reset event (70_reset_and_hazards.md R128). A block error is the
block's only exception: it is reported in place and nothing is entered or returned from (60_exceptions.md R110, R121). -/

namespace Sys2Proof.Machine

/-! ### Bytes of the buffers -/

/-- What a byte reads as that nothing has written: no value (10_state.md R38, R45). -/
def Memory.unlisted : Option Byte := none

/-- The byte at an offset. -/
def Memory.readByte : Memory → Nat → Option Byte
  | [], _ => Memory.unlisted
  | (x, b) :: m, a => if x = a then some b else Memory.readByte m a

/-- Write one byte, keeping the offsets strictly rising. -/
def Memory.writeByte : Memory → Nat → Byte → Memory
  | [], a, b => [(a, b)]
  | (x, c) :: m, a, b =>
    if a < x then (a, b) :: (x, c) :: m
    else if a = x then (a, b) :: m
    else (x, c) :: Memory.writeByte m a b

/-- The canonical form: offsets strictly rising. (No entry can equal what an unlisted byte reads as, since that is no
value.) -/
def Memory.wf : Memory → Bool
  | [] => true
  | [_] => true
  | (x, _) :: (y, c) :: m => decide (x < y) && Memory.wf ((y, c) :: m)

/-- The 64-bit value at offset `a`, little-endian (20_memory.md R54); none while a byte of it is unwritten. -/
def Memory.readWord (m : Memory) (a : Nat) : Option Word :=
  match m.readByte a, m.readByte (a + 1), m.readByte (a + 2), m.readByte (a + 3),
    m.readByte (a + 4), m.readByte (a + 5), m.readByte (a + 6), m.readByte (a + 7) with
  | some b0, some b1, some b2, some b3, some b4, some b5, some b6, some b7 =>
    some (wordOfBytes b0 b1 b2 b3 b4 b5 b6 b7)
  | _, _, _, _, _, _, _, _ => none

/-- Write bytes at rising offsets. -/
def Memory.writeBytes (m : Memory) (a : Nat) : List Byte → Memory
  | [] => m
  | b :: bs => (m.writeByte a b).writeBytes (a + 1) bs

/-- Write a 64-bit value at offset `a`, little-endian (20_memory.md R54); its bytes are then written. -/
def Memory.writeWord (m : Memory) (a : Nat) (w : Word) : Memory := m.writeBytes a (bytesOfWord w)

/-! ### Entries of the buffers -/

/-- Offset of IDX[k] (20_memory.md R48). -/
def idxOffset (k : Nat) : Nat := 0x10000 + 8 * k

/-- Offset of SYM[k].I (20_memory.md R48). -/
def symIOffset (k : Nat) : Nat := 0x20000 + 16 * k

/-- Offset of SYM[k].Q (20_memory.md R48). -/
def symQOffset (k : Nat) : Nat := 0x20008 + 16 * k

/-- IDX[k], when its written mark is true (10_state.md R36, R38). -/
def State.idxEntry (s : State) (k : Nat) : Option Word := s.mem.readWord (idxOffset k)

/-- SYM[k], when the written marks of both halves are true (10_state.md R37, R38). -/
def State.symEntry (s : State) (k : Nat) : Option Point :=
  match s.mem.readWord (symIOffset k), s.mem.readWord (symQOffset k) with
  | some i, some q => some { i := i, q := q }
  | _, _ => none

/-- SYM[k] <- p: both halves, which are then written (10_state.md R37, R38). -/
def Memory.writeSym (m : Memory) (k : Nat) (p : Point) : Memory :=
  (m.writeWord (symIOffset k) p.i).writeWord (symQOffset k) p.q

/-- SYM[k], SYM[k+1], … <- the points, in order. -/
def Memory.writeSymFrame (m : Memory) (k : Nat) : List Point → Memory
  | [] => m
  | p :: ps => (m.writeSym k p).writeSymFrame (k + 1) ps

/-- IDX[k] <- zext_64(p) for a table position (10_state.md R36). -/
def Memory.writeIdx (m : Memory) (k : Nat) (p : Fin 16) : Memory :=
  m.writeWord (idxOffset k) (BitVec.ofNat 64 p.val)

/-- IDX[k], IDX[k+1], … <- the positions, in order. -/
def Memory.writeIdxFrame (m : Memory) (k : Nat) : List (Fin 16) → Memory
  | [] => m
  | p :: ps => (m.writeIdx k p).writeIdxFrame (k + 1) ps

/-- MAX_FRAME, as CAPS bits 15:0 hold it (10_state.md R39; log entry 2). -/
def State.maxFrame (s : State) : Nat := (s.caps.extractLsb' 0 16).toNat

/-! ### A command's course -/

/-- What ends a command's pseudocode before its last line (60_exceptions.md R110, R113). -/
inductive Stop where
  /-- `raise e(pos)`: a block error, a defined outcome. -/
  | block (e : BlockError) (pos : Word)
  /-- `fault f`: a model fault (R119). -/
  | model (f : Fault)
deriving DecidableEq, Repr

/-- Go on when the condition holds, else stop. -/
def require (c : Bool) (stop : Stop) : Except Stop Unit := if c then .ok () else .error stop

/-- The element loop of the pseudocode: the elements in order, up to the first that stops (00_scope.md R14,
60_exceptions.md R114). -/
def eachInOrder (f : α → Except Stop β) : List α → Except Stop (List β)
  | [] => .ok []
  | a :: as =>
    match f a with
    | .error e => .error e
    | .ok b =>
      match eachInOrder f as with
      | .error e => .error e
      | .ok bs => .ok (b :: bs)

/-- The bookkeeping of R112: STATUS <- zext_64(op ++ code), ERRPOS <- pos. -/
def State.report (s : State) (op code : Byte) (pos : Word) : State :=
  { s with status := statusWord op code, errpos := pos }

/-- TAKING A BLOCK ERROR (R112, R113): STATUS and ERRPOS are written, nothing else changes. -/
def State.raise (s : State) (op : Byte) (e : BlockError) (pos : Word) : State := s.report op e.code pos

/-- The end of a command whose opcode is `op`, started in state `s` (R110, R112): on success the new state with ERR = 0
and ERRPOS = NOPOS; on a block error the state BEFORE the command with the error reported; a model fault stops. -/
def finish (op : Byte) (s : State) : Except Stop State → Host.Outcome State Fault Refusal
  | .ok t => .next (t.report op 0 nopos)
  | .error (.block e pos) => .next (s.raise op e pos)
  | .error (.model f) => .fault f

/-- An illegal command word (30_encoding.md R67, R70). -/
def State.illegalCommand (s : State) (w : Word) : State := s.raise (w.extractLsb' 0 8) .illegalCommand nopos

/-- `n` draws from GAUSS, in order, and the generator state after them (00_scope.md R21). -/
def draws (c : Config) : Nat → RngState → List F64 × RngState
  | 0, r => ([], r)
  | n + 1, r => ((c.gauss r).1 :: (draws c n (c.gauss r).2).1, (draws c n (c.gauss r).2).2)

/-- The generator state after `k` draws from `r` (R21, 44_control.md R109). -/
def rngAfter (c : Config) (k : Nat) (r : RngState) : RngState := (fun r' => (c.gauss r').2)^[k] r

/-- Draw number `k` (from 0) of the sequence that starts at `r` (R21, 44_control.md R109). -/
def drawAt (c : Config) (r : RngState) (k : Nat) : F64 := (c.gauss (rngAfter c k r)).1

/-- The reset event (70_reset_and_hazards.md R128): every piece of block state takes its reset value; the constants CAPS
and CMAP are not affected, the fault record survives (R131), and the host's own side of the port is not the block's to
change (log entry 1). -/
def State.resetEvent (s : State) : State :=
  { State.reset with
    caps := s.caps, cmap := s.cmap, faultRecord := s.faultRecord, port := s.port, returned := s.returned }

end Sys2Proof.Machine
end

