-- ==== Sys2Proof/Machine/Operands.lean ====
section
/-! DEFINITION. The operands a command reads from the state (30_encoding.md R69) and the checks every command makes of
them in the order of 60_exceptions.md R114. -/

namespace Sys2Proof.Machine

/-- n = FLEN, unsigned, at most MAX_FRAME; else FrameLength (R69, R111, R114). -/
def frameLength (s : State) : Except Stop Nat :=
  if s.maxFrame < s.flen.toNat then .error (.block .frameLength nopos) else .ok s.flen.toNat

/-- IDX[k], signed, in 0..15: a table position. An unwritten entry is the model fault UnwrittenRead; a value outside
0..15 is InvalidIndex(k) (40_mapper.md R78). -/
def indexOperand (s : State) (k : Nat) : Except Stop (Fin 16) :=
  match s.idxEntry k with
  | none => .error (.model .unwrittenRead)
  | some v =>
    if h : 0 ≤ v.toInt ∧ v.toInt ≤ 15 then .ok ⟨v.toInt.toNat, by omega⟩
    else .error (.block .invalidIndex (posWord k))

/-- SYM[k]: an unwritten half is the model fault UnwrittenRead; a half that is not finite is NonFiniteInput(k). -/
def symbolOperand (s : State) (k : Nat) : Except Stop Point :=
  match s.symEntry k with
  | none => .error (.model .unwrittenRead)
  | some p => if p.isFinite then .ok p else .error (.block .nonFiniteInput (posWord k))

/-- SYM[0..n-1], checked in order. -/
def symbolFrame (s : State) (n : Nat) : Except Stop (List Point) := eachInOrder (symbolOperand s) (List.range n)

/-- SNR_DB, finite (42_awgn.md R92). -/
def snrOperand (s : State) : Except Stop F64 :=
  if Binary64.isFinite s.snrDb then .ok s.snrDb else .error (.block .invalidParameter nopos)

/-- PN_PARAM, finite and not less than 0 (43_phase_rotator.md R101). -/
def phaseNoiseOperand (s : State) : Except Stop F64 :=
  if Binary64.isFinite s.pnParam && decide (0 ≤ Binary64.units s.pnParam) then .ok s.pnParam
  else .error (.block .invalidParameter nopos)

/-- ROT_DEG, finite (43_phase_rotator.md R101). -/
def rotationOperand (s : State) : Except Stop F64 :=
  if Binary64.isFinite s.rotDeg then .ok s.rotDeg else .error (.block .invalidParameter nopos)

end Sys2Proof.Machine
end

