-- ==== Sys2Proof/Machine/Awgn.lean ====
section
/-! DEFINITION. AWGN (42_awgn.md). -/

namespace Sys2Proof.Machine

open Binary64

/-- The sum of the values in order, from +0.0 (R93). -/
def sumInOrder (xs : List F64) : F64 := xs.foldl add (zero false)

/-- The mean of a frame: each half's sum divided by N (R93). -/
def frameMean (xs : List Point) : Point :=
  { i := div (sumInOrder (xs.map Point.i)) (Binary64.ofNat xs.length)
    q := div (sumInOrder (xs.map Point.q)) (Binary64.ofNat xs.length) }

/-- |x - m|^2 as R93 evaluates it: dI * dI + dQ * dQ. -/
def deviationSq (m x : Point) : F64 :=
  add (mul (sub x.i m.i) (sub x.i m.i)) (mul (sub x.q m.q) (sub x.q m.q))

/-- power(x[0..n-1]), the variance of the frame with divisor n (R93). -/
def power (xs : List Point) : F64 :=
  div (sumInOrder (xs.map (deviationSq (frameMean xs)))) (Binary64.ofNat xs.length)

/-- N0 = P / POW10(snr / 10.0) (R95). -/
def noiseLevel (c : Config) (p snr : F64) : F64 := div p (c.pow10 (div snr f10))

/-- sigma = sqrt64(N0 / 2.0) (R95). -/
def noiseSigma (n0 : F64) : F64 := sqrt (div n0 f2)

/-- One output symbol: x + sigma * (gI, gQ) (R96). -/
def mixed (sigma : F64) (x : Point) (gI gQ : F64) : Point :=
  { i := add x.i (mul sigma gI), q := add x.q (mul sigma gQ) }

/-- One output symbol, finite; else NumericOverflow(k) (R91). -/
def mixSymbol (sigma : F64) : Nat × Point × F64 × F64 → Except Stop Point
  | (k, x, gI, gQ) =>
    if (mixed sigma x gI gQ).isFinite then .ok (mixed sigma x gI gQ)
    else .error (.block .numericOverflow (posWord k))

/-- The course of AWGN (R91), its checks in the order of 60_exceptions.md R114. -/
def awgnCourse (c : Config) (s : State) : Except Stop State := do
  let n ← frameLength s
  let snr ← snrOperand s
  let xs ← symbolFrame s n
  require (n != 0) (.block .degenerateSignal nopos)
  let p := power xs
  require (isFinite p) (.block .numericOverflow nopos)
  require (!isZero p) (.block .degenerateSignal nopos)
  let n0 := noiseLevel c p snr
  require (isFinite n0) (.block .numericOverflow nopos)
  let gI := draws c n s.rng
  let gQ := draws c n gI.2
  let ys ← eachInOrder (mixSymbol (noiseSigma n0)) ((List.range n).zip (xs.zip (gI.1.zip gQ.1)))
  return { s with mem := s.mem.writeSymFrame 0 ys, rng := gQ.2 }

/-- AWGN (R91). -/
def execAwgn (s : State) : Host.Outcome State Fault Refusal := finish (opcodeOf .awgn) s (awgnCourse Config.chip s)

end Sys2Proof.Machine
end

