-- ==== Sys2Proof/Machine/Control.lean ====
section
/-! DEFINITION. SEED, the control command (44_control.md). -/

namespace Sys2Proof.Machine

/-- The course of SEED (R107): RNG <- SEEDFN(SEED). It reads neither FLEN nor a buffer and raises nothing. -/
def seedCourse (c : Config) (s : State) : Except Stop State := .ok { s with rng := c.seedFn s.seed }

/-- SEED (R107). -/
def execSeed (s : State) : Host.Outcome State Fault Refusal := finish (opcodeOf .seed) s (seedCourse Config.chip s)

end Sys2Proof.Machine
end

