-- ==== Sys2Proof/Machine/Mapper.lean ====
section
/-! DEFINITION. MAP and DEMAP (40_mapper.md). -/

namespace Sys2Proof.Machine

/-- The course of MAP (R78): every index is checked before any symbol is written (R79). -/
def mapCourse (s : State) : Except Stop State := do
  let n ← frameLength s
  let ps ← eachInOrder (indexOperand s) (List.range n)
  return { s with mem := s.mem.writeSymFrame 0 (ps.map s.cmap.point) }

/-- MAP (R78). -/
def execMap (s : State) : Host.Outcome State Fault Refusal := finish (opcodeOf .map) s (mapCourse s)

/-- SYM[k] as a table position: NotAConstellationPoint(k) when no point has its value (R81, R82). -/
def pointOperand (s : State) (k : Nat) : Except Stop (Fin 16) := do
  let p ← symbolOperand s k
  match s.cmap.inverse p with
  | some j => return j
  | none => .error (.block .notAConstellationPoint (posWord k))

/-- The course of DEMAP (R81). -/
def demapCourse (s : State) : Except Stop State := do
  let n ← frameLength s
  let js ← eachInOrder (pointOperand s) (List.range n)
  return { s with mem := s.mem.writeIdxFrame 0 js }

/-- DEMAP (R81). -/
def execDemap (s : State) : Host.Outcome State Fault Refusal := finish (opcodeOf .demap) s (demapCourse s)

end Sys2Proof.Machine
end

