-- ==== Sys2Proof/Machine/PhaseRotator.lean ====
section
/-! DEFINITION. PNROT (43_phase_rotator.md). -/

namespace Sys2Proof.Machine

open Binary64

/-- The complex product (00_scope.md R19): four rounded products, two rounded sums. -/
def cmul (a b : Point) : Point :=
  { i := sub (mul a.i b.i) (mul a.q b.q), q := add (mul a.i b.q) (mul a.q b.i) }

/-- sphi = pn * (PI64 / 180.0) (R102). -/
def phaseScale (pn : F64) : F64 := mul pn (div pi64 f180)

/-- theta = (rot * PI64) / 180.0 (R102). -/
def rotationAngle (rot : F64) : F64 := div (mul rot pi64) f180

/-- One output symbol: x times cis(phi), then times cis(theta), in this order (R100). -/
def rotated (c : Config) (phi theta : F64) (x : Point) : Point := cmul (cmul x (c.cis phi)) (c.cis theta)

/-- One output symbol; NumericOverflow(k) when its phase offset or a half of it is not finite (R100). -/
def rotateSymbol (c : Config) (sphi theta : F64) : Nat × Point × F64 → Except Stop Point
  | (k, x, g) =>
    if isFinite (mul sphi g) && (rotated c (mul sphi g) theta x).isFinite then
      .ok (rotated c (mul sphi g) theta x)
    else .error (.block .numericOverflow (posWord k))

/-- The course of PNROT (R100), its checks in the order of 60_exceptions.md R114. -/
def pnrotCourse (c : Config) (s : State) : Except Stop State := do
  let n ← frameLength s
  let pn ← phaseNoiseOperand s
  let rot ← rotationOperand s
  let xs ← symbolFrame s n
  let sphi := phaseScale pn
  let theta := rotationAngle rot
  require (isFinite sphi && isFinite theta) (.block .numericOverflow nopos)
  let g := draws c n s.rng
  let ys ← eachInOrder (rotateSymbol c sphi theta) ((List.range n).zip (xs.zip g.1))
  return { s with mem := s.mem.writeSymFrame 0 ys, rng := g.2 }

/-- PNROT (R100). -/
def execPnrot (s : State) : Host.Outcome State Fault Refusal := finish (opcodeOf .pnrot) s (pnrotCourse Config.chip s)

end Sys2Proof.Machine
end

