-- ==== Sys2Proof/Machine/Slicer.lean ====
section
/-! DEFINITION. SLICE (41_slicer.md). -/

namespace Sys2Proof.Machine

/-- The course of SLICE (R84): every symbol is checked before any index is written. -/
def sliceCourse (s : State) : Except Stop State := do
  let n ← frameLength s
  let xs ← symbolFrame s n
  return { s with mem := s.mem.writeIdxFrame 0 (xs.map s.cmap.nearest) }

/-- SLICE (R84). -/
def execSlice (s : State) : Host.Outcome State Fault Refusal := finish (opcodeOf .slice) s (sliceCourse s)

end Sys2Proof.Machine
end

