-- ==== Sys2Proof/Machine/Dispatch.lean ====
section
/-! DEFINITION. One arm per command: the meaning of each (30_encoding.md R67, R68). -/

namespace Sys2Proof.Machine

def exec (i : Instr) (s : State) : Host.Outcome State Fault Refusal :=
  match i with
  | .map => Sys2Proof.Machine.execMap s
  | .demap => Sys2Proof.Machine.execDemap s
  | .slice => Sys2Proof.Machine.execSlice s
  | .awgn => Sys2Proof.Machine.execAwgn s
  | .pnrot => Sys2Proof.Machine.execPnrot s
  | .seed => Sys2Proof.Machine.execSeed s

end Sys2Proof.Machine
end

