-- ==== Sys2Proof/Machine/Bus.lean ====
section
/-! DEFINITION. The host port (20_memory.md): the address map, the read and the write of R55 and R56, the place of the
window on the platform's bus (R47), and one host access (70_reset_and_hazards.md R137). -/

namespace Sys2Proof.Machine

/-- What an offset of the window names (R48). -/
inductive Target where
  | cmd | status | errpos | flen | snrDb | pnParam | rotDeg | seed | caps
  | idx (k : Nat) | symI (k : Nat) | symQ (k : Nat)
deriving DecidableEq, Repr

/-- The register map (R48) for a block of `maxFrame` entries; none where the offset is unmapped (R49). The offset of a
register or half is that of its lowest byte; other offsets name nothing (an access to them is misaligned, R52). -/
def targetOf (maxFrame offset : Nat) : Option Target :=
  if offset = 0x00000 then some .cmd
  else if offset = 0x00008 then some .status
  else if offset = 0x00010 then some .errpos
  else if offset = 0x00018 then some .flen
  else if offset = 0x00020 then some .snrDb
  else if offset = 0x00028 then some .pnParam
  else if offset = 0x00030 then some .rotDeg
  else if offset = 0x00038 then some .seed
  else if offset = 0x00040 then some .caps
  else if 0x10000 ≤ offset ∧ offset < 0x10000 + 8 * maxFrame ∧ offset % 8 = 0 then
    some (.idx ((offset - 0x10000) / 8))
  else if 0x20000 ≤ offset ∧ offset < 0x20000 + 16 * maxFrame ∧ offset % 16 = 0 then
    some (.symI ((offset - 0x20000) / 16))
  else if 0x20000 ≤ offset ∧ offset < 0x20000 + 16 * maxFrame ∧ offset % 16 = 8 then
    some (.symQ ((offset - 0x20000) / 16))
  else none

/-- The offset of a register or buffer half (R48). -/
def Target.offset : Target → Nat
  | .cmd => 0x00000
  | .status => 0x00008
  | .errpos => 0x00010
  | .flen => 0x00018
  | .snrDb => 0x00020
  | .pnParam => 0x00028
  | .rotDeg => 0x00030
  | .seed => 0x00038
  | .caps => 0x00040
  | .idx k => idxOffset k
  | .symI k => symIOffset k
  | .symQ k => symQOffset k

/-- A buffer half as a host read finds it: no value while its written mark is false (R55). -/
def bufferRead (s : State) (offset : Nat) : Except Fault Word :=
  match s.mem.readWord offset with
  | some v => .ok v
  | none => .error .unwrittenRead

/-- What a read of a mapped target returns (R53, R55). -/
def readTarget (s : State) : Target → Except Fault Word
  | .cmd => .error .busError
  | .status => .ok s.status
  | .errpos => .ok s.errpos
  | .flen => .ok s.flen
  | .snrDb => .ok s.snrDb
  | .pnParam => .ok s.pnParam
  | .rotDeg => .ok s.rotDeg
  | .seed => .ok s.seed
  | .caps => .ok s.caps
  | .idx k => bufferRead s (idxOffset k)
  | .symI k => bufferRead s (symIOffset k)
  | .symQ k => bufferRead s (symQOffset k)

/-- The checks of width, alignment and mapping every access passes first (R49, R51, R52). -/
def busTarget (s : State) (width offset : Nat) : Except Fault Target :=
  if width ≠ 8 ∨ offset % 8 ≠ 0 then .error .busError
  else match targetOf s.maxFrame offset with
    | some t => .ok t
    | none => .error .busError

/-- MemRead (R12, R55): the value read, or a model fault. It changes no state. -/
def busRead (s : State) (width offset : Nat) : Except Fault Word :=
  match busTarget s width offset with
  | .error f => .error f
  | .ok t => readTarget s t

/-- A write of CMD (30_encoding.md R67): the command the word selects runs to its end, or the word is illegal. -/
def runCommandWord (s : State) (w : Word) : Host.Outcome State Fault Refusal :=
  match decode w with
  | .ok i => exec i s
  | .error _ => .next (s.illegalCommand w)

/-- What a write of a mapped target does (R53, R56). -/
def writeTarget (s : State) (v : Word) : Target → Host.Outcome State Fault Refusal
  | .cmd => runCommandWord s v
  | .status => .fault .busError
  | .errpos => .fault .busError
  | .flen => .next { s with flen := v }
  | .snrDb => .next { s with snrDb := v }
  | .pnParam => .next { s with pnParam := v }
  | .rotDeg => .next { s with rotDeg := v }
  | .seed => .next { s with seed := v }
  | .caps => .fault .busError
  | .idx k => .next { s with mem := s.mem.writeWord (idxOffset k) v }
  | .symI k => .next { s with mem := s.mem.writeWord (symIOffset k) v }
  | .symQ k => .next { s with mem := s.mem.writeWord (symQOffset k) v }

/-- MemWrite (R12, R56). -/
def busWrite (s : State) (width offset : Nat) (v : Word) : Host.Outcome State Fault Refusal :=
  match busTarget s width offset with
  | .error f => .fault f
  | .ok t => writeTarget s v t

/-- One host access (70_reset_and_hazards.md R137). What a read returns is recorded for the host (R138). -/
def performAccess (s : State) : HostAccess → Host.Outcome State Fault Refusal
  | .read width offset =>
    match busRead s width offset with
    | .ok v => .next { s with returned := s.returned ++ [v] }
    | .error f => .fault f
  | .write width offset v => busWrite s width offset v
  | .reset => .next s.resetEvent

/-- The offset an address of the platform's bus has in the window at BASE, if it lies in the window (R47). -/
def windowOffset (c : Config) (address : Nat) : Option Nat :=
  if c.base ≤ address ∧ address < c.base + 0x40000 then some (address - c.base) else none

/-- The access a read on the platform's bus makes to the block, if the address is in its window (R47). -/
def readAt (c : Config) (width address : Nat) : Option HostAccess :=
  (windowOffset c address).map (HostAccess.read width)

/-- The access a write on the platform's bus makes to the block, if the address is in its window (R47). -/
def writeAt (c : Config) (width address : Nat) (v : Word) : Option HostAccess :=
  (windowOffset c address).map fun o => HostAccess.write width o v

end Sys2Proof.Machine
end

