-- ==== Sys2Proof/Machine/Step.lean ====
section
/-! DEFINITION. One step: the next host access (20_memory.md R59, R61; log entry 1), and the state whose next access
writes a given command word to CMD. -/

namespace Sys2Proof.Machine

/-- One step: the host's next access, performed whole. With no access waiting the block is idle and holds its state
(60_exceptions.md R127, 70_reset_and_hazards.md R129). -/
def step (s : State) : Host.Outcome State Fault Refusal :=
  match s.port with
  | [] => .next s
  | a :: rest => performAccess { s with port := rest } a

/-- `s` with a write of the command word `w` (its low `nbits` bits; the rest 0) to CMD as the host's next access. -/
def State.withFetchWord (s : State) (nbits w : Nat) : State :=
  { s with port := .write 8 0x00000 (BitVec.ofNat 64 (w % 2 ^ nbits)) :: s.port }

end Sys2Proof.Machine
end

