-- ==== Sys2Proof/Machine/Script.lean ====
section
/-! DEFINITION. The host-script notation (00_scope.md R22, 30_encoding.md R72, R73): each line is one or two host
accesses. -/

namespace Sys2Proof.Machine

/-- `wr NAME, v` (R22). -/
def wr (t : Target) (v : Word) : HostAccess := .write 8 t.offset v

/-- `rd NAME` (R22). -/
def rd (t : Target) : HostAccess := .read 8 t.offset

/-- `cmd OPNAME` (R22). -/
def cmd (i : Instr) : HostAccess := wr .cmd (encode i)

/-- `wrsym k, x, y` (R73). -/
def wrsym (k : Nat) (x y : F64) : List HostAccess := [wr (.symI k) x, wr (.symQ k) y]

/-- `rdsym k` (R73). -/
def rdsym (k : Nat) : List HostAccess := [rd (.symI k), rd (.symQ k)]

/-- `seed s` (R73). -/
def seedScript (v : Word) : List HostAccess := [wr .seed v, cmd .seed]

/-- `frame n` (R73). -/
def frameScript (n : Word) : List HostAccess := [wr .flen n]

end Sys2Proof.Machine
end

