-- ==== Sys2Proof/Machine/Run.lean ====
section
/-! DEFINITION. A run of a host program to its end, through model faults (70_reset_and_hazards.md R138). `step` stops at
a model fault and gives no state; here the fault is recorded, the block's state is as before the access (60_exceptions.md
R119), and the host goes on with its next access. -/

namespace Sys2Proof.Machine

/-- A model fault recorded: never cleared (R119). -/
def State.recordFault (s : State) (f : Fault) : State := { s with faultRecord := s.faultRecord ++ [f] }

/-- The state after the host's next access, whatever its outcome. -/
def afterAccess (s : State) : State :=
  match step s with
  | .next t => t
  | .fault f => State.recordFault { s with port := s.port.tail } f
  | .refused _ => s

/-- The state after the host's next `n` accesses. -/
def afterAccesses : Nat → State → State
  | 0, s => s
  | n + 1, s => afterAccesses n (afterAccess s)

/-- The host program `as`, run from `s` to the end of its last access (R138). -/
def runProgram (s : State) (as : List HostAccess) : State := afterAccesses as.length { s with port := as }

end Sys2Proof.Machine
end

