-- ==== Sys2Proof/Safety.lean ====
section
/-! DEFINITION. What counts as a legal state and as a run that ended well. -/

namespace Sys2Proof.Machine

/-- `a` is the offset of an IDX entry or of a SYM half of a block of `maxFrame` entries (20_memory.md R48). -/
def bufferHalf (maxFrame a : Nat) : Bool :=
  (decide (0x10000 ≤ a) && decide (a < 0x10000 + 8 * maxFrame) || decide (0x20000 ≤ a) && decide (a < 0x20000 + 16 * maxFrame))
    && a % 8 == 0

/-- Every byte that is listed belongs to a buffer entry or half, all eight bytes of which are listed: written marks are
per entry and per half (10_state.md R38). -/
def Memory.whole (maxFrame : Nat) (m : Memory) : Prop :=
  ∀ a, m.readByte a ≠ none →
    bufferHalf maxFrame (a / 8 * 8) = true ∧ ∀ j < 8, m.readByte (a / 8 * 8 + j) ≠ none

/-- CAPS holds a legal MAX_FRAME in bits 15:0 and 0 above (00_scope.md R5, 10_state.md R39). -/
def State.capsLegal (s : State) : Prop := 1 ≤ s.maxFrame ∧ s.maxFrame ≤ 4096 ∧ s.caps.toNat = s.maxFrame

/-- The ROM is a bijection from the positions onto the sixteen points (00_scope.md R6, 40_mapper.md R74). -/
def Rom.legal (r : Rom) : Prop := ∃ e : Equiv.Perm (Fin 16), ∀ p, r.point p = constRef (e p)

/-- STATUS has its reserved bits 0 and an assigned error code other than the reserved code 2 (10_state.md R31,
60_exceptions.md R111). -/
def State.statusLegal (s : State) : Prop :=
  s.status.toNat < 2 ^ 16 ∧ s.errField.toNat ≤ 9 ∧ s.errField ≠ BlockError.lengthMismatch.code

/-- ERRPOS is NOPOS, or the position of a frame element (below MAX_FRAME) with an error code that is tied to one
(10_state.md R32, 60_exceptions.md R111, R113). -/
def State.errposLegal (s : State) : Prop :=
  s.errpos = nopos ∨
    (s.errpos.toNat < s.maxFrame ∧
      (s.errField = BlockError.invalidIndex.code ∨ s.errField = BlockError.nonFiniteInput.code ∨
        s.errField = BlockError.notAConstellationPoint.code ∨ s.errField = BlockError.numericOverflow.code))

/-- What holds of the state at reset and after every step. -/
structure State.Legal (s : State) : Prop where
  caps : s.capsLegal
  rom : Rom.legal s.cmap
  memSorted : Memory.wf s.mem = true
  memWhole : Memory.whole s.maxFrame s.mem
  status : s.statusLegal
  errpos : s.errposLegal

/-- A run ended well: the host's accesses are done and no model fault is recorded (60_exceptions.md R119,
70_reset_and_hazards.md R138). -/
def State.endedWell (s : State) : Bool := s.port.isEmpty && s.faultRecord.isEmpty

end Sys2Proof.Machine
end

