-- ==== Sys2Proof/Certificates/Slice0/Obligations.lean ====
section
/-! DEFINITION. The statements for the provers, from the numbered rules of spec/. Offsets, STATUS words and opcodes stand
as the spec's literals, not as the model's own names, wherever the spec gives them. -/

namespace Sys2Proof.Claims

open Sys2Proof.Machine

/-- Every byte outside SYM[0..FLEN-1] reads as before (20_memory.md R48 gives the offsets). -/
def SameOutsideSym (s t : State) : Prop :=
  ∀ a, (a < 0x20000 ∨ 0x20000 + 16 * s.flen.toNat ≤ a) → t.mem.readByte a = s.mem.readByte a

/-- Every byte outside IDX[0..FLEN-1] reads as before. -/
def SameOutsideIdx (s t : State) : Prop :=
  ∀ a, (a < 0x10000 ∨ 0x10000 + 8 * s.flen.toNat ≤ a) → t.mem.readByte a = s.mem.readByte a

/-- SYM[0..FLEN-1] is the written, finite frame `xs`. -/
def HasFrame (s : State) (xs : List Point) : Prop :=
  xs.length = s.flen.toNat ∧
    ∀ (k : Nat) (h : k < xs.length), s.symEntry k = some xs[k] ∧ xs[k].isFinite = true

/-- SYM[0..k-1] is written and finite: no check of an element before `k` fails. -/
def CleanBefore (s : State) (k : Nat) : Prop := ∀ j < k, ∃ x, s.symEntry j = some x ∧ x.isFinite = true

/-- The loop `s <- s + x[k]`, k upward, from s = +0.0 (42_awgn.md R93). -/
def sumOf (xs : List F64) : F64 := xs.foldl Binary64.add 0x0000000000000000

/-- power of 42_awgn.md R93, written out: the means of the two halves, then the sum of dI * dI + dQ * dQ over the frame,
each with divisor N = toF64(n). -/
def signalPower (xs : List Point) : F64 :=
  let N := Binary64.ofNat xs.length
  let mI := Binary64.div (sumOf (xs.map Point.i)) N
  let mQ := Binary64.div (sumOf (xs.map Point.q)) N
  Binary64.div
    (sumOf (xs.map fun x =>
      Binary64.add (Binary64.mul (Binary64.sub x.i mI) (Binary64.sub x.i mI))
        (Binary64.mul (Binary64.sub x.q mQ) (Binary64.sub x.q mQ)))) N

/-- The value POW10(snr / 10.0) by which 42_awgn.md R95 divides. -/
def snrFactor (c : Config) (snr : F64) : F64 := c.pow10 (Binary64.div snr 0x4024000000000000)

/-- N0 of 42_awgn.md R95 for a frame of power `p` at `snr` decibels. -/
def noiseN0 (c : Config) (p snr : F64) : F64 := Binary64.div p (snrFactor c snr)

/-- sigma of 42_awgn.md R95 for a frame of power `p` at `snr` decibels. -/
def sigma (c : Config) (p snr : F64) : F64 :=
  Binary64.sqrt (Binary64.div (noiseN0 c p snr) 0x4000000000000000)

/-- The noisy symbol of 42_awgn.md R96. -/
def noisy (sg : F64) (x : Point) (gI gQ : F64) : Point :=
  ⟨Binary64.add x.i (Binary64.mul sg gI), Binary64.add x.q (Binary64.mul sg gQ)⟩

/-- The complex product of 00_scope.md R19: four rounded products, a rounded difference and a rounded sum. -/
def product (a b : Point) : Point :=
  ⟨Binary64.sub (Binary64.mul a.i b.i) (Binary64.mul a.q b.q),
    Binary64.add (Binary64.mul a.i b.q) (Binary64.mul a.q b.i)⟩

/-- cis of 00_scope.md R20. -/
def phasor (c : Config) (x : F64) : Point := ⟨c.cos x, c.sin x⟩

/-- The output symbol of 43_phase_rotator.md R100: first the phase offset `phi`, then the constant angle `theta`. -/
def turned (c : Config) (phi theta : F64) (x : Point) : Point := product (product x (phasor c phi)) (phasor c theta)

/-- A value, in units of 2^-1074, and the level (in the same units) the table of 41_slicer.md R87 gives it. -/
def AxisNearest (v l : Int) : Prop :=
  let o : Int := Binary64.one
  (v < -2 * o ∧ l = -3 * o) ∨ (v = -2 * o ∧ (l = -3 * o ∨ l = -o)) ∨ (-2 * o < v ∧ v < 0 ∧ l = -o) ∨
    (v = 0 ∧ (l = -o ∨ l = o)) ∨ (0 < v ∧ v < 2 * o ∧ l = o) ∨ (v = 2 * o ∧ (l = o ∨ l = 3 * o)) ∨
    (2 * o < v ∧ l = 3 * o)

/-- What a command reads, by the table of 10_state.md R44, is the same in two states. -/
def SameOperands (i : Instr) (s s' : State) : Prop :=
  match i with
  | .map => s.flen = s'.flen ∧ s.maxFrame = s'.maxFrame ∧ s.cmap = s'.cmap ∧
      ∀ k < s.flen.toNat, s.idxEntry k = s'.idxEntry k
  | .demap => s.flen = s'.flen ∧ s.maxFrame = s'.maxFrame ∧ s.cmap = s'.cmap ∧
      ∀ k < s.flen.toNat, s.symEntry k = s'.symEntry k
  | .slice => s.flen = s'.flen ∧ s.maxFrame = s'.maxFrame ∧ s.cmap = s'.cmap ∧
      ∀ k < s.flen.toNat, s.symEntry k = s'.symEntry k
  | .awgn => s.flen = s'.flen ∧ s.maxFrame = s'.maxFrame ∧ s.snrDb = s'.snrDb ∧ s.rng = s'.rng ∧
      ∀ k < s.flen.toNat, s.symEntry k = s'.symEntry k
  | .pnrot => s.flen = s'.flen ∧ s.maxFrame = s'.maxFrame ∧ s.pnParam = s'.pnParam ∧ s.rotDeg = s'.rotDeg ∧
      s.rng = s'.rng ∧ ∀ k < s.flen.toNat, s.symEntry k = s'.symEntry k
  | .seed => s.seed = s'.seed

/-- What a command writes on success, by the table of 10_state.md R44, is the same in two states (`n` the frame
length the command ran with). -/
def SameResults (i : Instr) (n : Nat) (t t' : State) : Prop :=
  match i with
  | .map => ∀ k < n, t.symEntry k = t'.symEntry k
  | .demap => ∀ k < n, t.idxEntry k = t'.idxEntry k
  | .slice => ∀ k < n, t.idxEntry k = t'.idxEntry k
  | .awgn => (∀ k < n, t.symEntry k = t'.symEntry k) ∧ t.rng = t'.rng
  | .pnrot => (∀ k < n, t.symEntry k = t'.symEntry k) ∧ t.rng = t'.rng
  | .seed => t.rng = t'.rng

/-- The table of 60_exceptions.md R116: the error codes each command can raise. -/
def codesOf : Instr → List Byte
  | .map => [5, 1]
  | .demap => [5, 7, 8]
  | .slice => [5, 7]
  | .awgn => [5, 6, 7, 3, 9]
  | .pnrot => [5, 6, 7, 9]
  | .seed => []

/-- AWGN in the configuration `c`. -/
def awgnWith (c : Config) (s : State) : Host.Outcome State Fault Refusal := finish 0x04 s (awgnCourse c s)

/-- PNROT in the configuration `c`. -/
def pnrotWith (c : Config) (s : State) : Host.Outcome State Fault Refusal := finish 0x05 s (pnrotCourse c s)

/-- The exact value `num / den`, in units of 2^-1074, is at least 2^1024 - 2^970 in magnitude: half a step above the
greatest finite value, from where rounding to nearest gives an infinity. -/
def Overflows (num den : Int) : Prop := (2 ^ 1024 - 2 ^ 970) * (Binary64.one : Int) * |den| ≤ |num|

/-- `r` is the exact value `num / den`, in units of 2^-1074, rounded to nearest, ties to even: the infinity of its sign
exactly when it overflows, and finite otherwise; and when finite, no finite value is nearer, and if one of another value is
as near, the pattern of `r` is even. -/
def RoundsTo (r : F64) (num den : Int) : Prop :=
  (r = 0x7FF0000000000000 ↔ Overflows num den ∧ 0 < num * den) ∧
  (r = 0xFFF0000000000000 ↔ Overflows num den ∧ num * den < 0) ∧
  (Binary64.isFinite r = true ↔ ¬Overflows num den) ∧
  (Binary64.isFinite r = true → ∀ w, Binary64.isFinite w = true →
    |Binary64.units r * den - num| ≤ |Binary64.units w * den - num| ∧
    (|Binary64.units r * den - num| = |Binary64.units w * den - num| → Binary64.units w ≠ Binary64.units r →
      r.toNat % 2 = 0))

/-- The infinity with the sign that the product and the quotient of `x` and `y` have. -/
def signedInfinity (x y : F64) : F64 :=
  if (Binary64.sign x != Binary64.sign y) = true then 0xFFF0000000000000 else 0x7FF0000000000000

/-- The zero with the sign that the product and the quotient of `x` and `y` have. -/
def signedZero (x y : F64) : F64 :=
  if (Binary64.sign x != Binary64.sign y) = true then 0x8000000000000000 else 0x0000000000000000

/-- A table of sixteen points in which each of the sixteen stands at exactly one position (00_scope.md R6). -/
def BijectionOntoPoints (f : Fin 16 → Point) : Prop :=
  (∀ a b : Fin 4, ∃! p : Fin 16, f p = ⟨level a, level b⟩) ∧ ∀ p : Fin 16, ∃ a b : Fin 4, f p = ⟨level a, level b⟩

/-- R8's range for a finite argument: a finite value or +infinity, never NaN. -/
def InRange (f : F64 → F64) : Prop :=
  ∀ x, Binary64.isFinite x = true → Binary64.isFinite (f x) = true ∨ f x = 0x7FF0000000000000

end Sys2Proof.Claims

open Sys2Proof Sys2Proof.Machine Sys2Proof.Claims

/-! ### Encoding -/

/-- 30_encoding.md R67, R68: a word decodes to a command exactly when it is that command's word; so each command word
gives its command back and every other word is rejected. -/
def Obligations.DecodeExactlyTheCommandWords : Prop :=
  (∀ i : Instr, decode (encode i) = .ok i) ∧ ∀ (w : Word) (i : Instr), decode w = .ok i → w = encode i

/-- Command words written out from the table of 30_encoding.md R68, and illegal ones from R70. -/
def Obligations.TableWordsDecode : Prop :=
  decode 0x0000000000000001 = .ok .map ∧ decode 0x0000000000000002 = .ok .demap ∧
  decode 0x0000000000000003 = .ok .slice ∧ decode 0x0000000000000004 = .ok .awgn ∧
  decode 0x0000000000000005 = .ok .pnrot ∧ decode 0x0000000000000006 = .ok .seed ∧
  decode 0x0000000000000000 = .error (.unassignedOpcode 0x00) ∧
  decode 0x0000000000000007 = .error (.unassignedOpcode 0x07) ∧
  decode 0x8000000000000003 = .error (.reservedBits 0x80000000000000)

/-- When the host's next access writes to CMD a word that decodes to a command, the step is that command's meaning, on
the state with the access taken (the port is the model's: log entry 1). -/
def Obligations.StepRunsTheDecodedCommand : Prop :=
  ∀ (s : State) (w : Word) (i : Instr) (rest : List HostAccess),
    s.port = .write 8 0x00000 w :: rest → decode w = .ok i → step s = exec i { s with port := rest }

/-- 30_encoding.md R70: an illegal word is reported and changes nothing else. (The access is taken from the model's port:
log entry 1.) -/
def Obligations.IllegalWordsReported : Prop :=
  ∀ (s : State) (w : Word) (rest : List HostAccess), s.port = .write 8 0x00000 w :: rest →
    (w.extractLsb' 8 56 ≠ 0 ∨ w.extractLsb' 0 8 = 0x00#8 ∨ 0x07#8 ≤ w.extractLsb' 0 8) →
    ∃ t, step s = .next t ∧ t.errField = 4 ∧ t.lastOpField = w.extractLsb' 0 8 ∧ t.status.toNat < 2 ^ 16 ∧
      t = { s with status := t.status, errpos := 0xFFFFFFFFFFFFFFFF, port := rest }

/-! ### The host port -/

/-- 20_memory.md R51, R52: an access of another width, or at an offset that is no multiple of 8, is the model fault
BusError; the block changes no state, and the fault is recorded (60_exceptions.md R119). (That the access is taken from the
port is log entry 1, and that the run, not the step, records the fault is log entry 7: both the model's choice.) -/
def Obligations.BadWidthOrAlignmentFaults : Prop :=
  ∀ (s : State) (width offset : Nat) (v : Word) (rest : List HostAccess), (width ≠ 8 ∨ offset % 8 ≠ 0) →
    s.port = .read width offset :: rest ∨ s.port = .write width offset v :: rest →
      step s = .fault .busError ∧
      afterAccess s = { s with port := rest, faultRecord := s.faultRecord ++ [.busError] }

/-- 20_memory.md R49: a read or write of an unmapped offset is the model fault BusError, which is recorded (60_exceptions.md
R119). (That the access is taken from the port is log entry 1, and that the run, not the step, records the fault is log
entry 7: both the model's choice.) -/
def Obligations.UnmappedOffsetsFault : Prop :=
  ∀ (s : State) (offset : Nat) (v : Word) (rest : List HostAccess), s.capsLegal →
    (0x00048 ≤ offset ∧ offset ≤ 0x0FFFF ∨
      0x10000 + 8 * s.maxFrame ≤ offset ∧ offset ≤ 0x1FFFF ∨
      0x20000 + 16 * s.maxFrame ≤ offset ∧ offset ≤ 0x3FFFF) →
    s.port = .read 8 offset :: rest ∨ s.port = .write 8 offset v :: rest →
      step s = .fault .busError ∧
      afterAccess s = { s with port := rest, faultRecord := s.faultRecord ++ [.busError] }

/-- 20_memory.md R53: writes of STATUS, ERRPOS and CAPS and reads of CMD are the model fault BusError, which is
recorded (60_exceptions.md R119). (That the access is taken from the port is log entry 1, and that the run, not the step,
records the fault is log entry 7: both the model's choice.) -/
def Obligations.ReadOnlyAndWriteOnlyFault : Prop :=
  ∀ (s : State) (v : Word) (rest : List HostAccess),
    (s.port = .write 8 0x00008 v :: rest ∨ s.port = .write 8 0x00010 v :: rest ∨
      s.port = .write 8 0x00040 v :: rest ∨ s.port = .read 8 0x00000 :: rest) →
      step s = .fault .busError ∧
      afterAccess s = { s with port := rest, faultRecord := s.faultRecord ++ [.busError] }

/-- 20_memory.md R48, R55: what a read of each readable offset returns; it changes nothing else. An unwritten buffer half
is the model fault UnwrittenRead. (The port and the list of returned values are the model's: log entry 1; a half is
unwritten when its bytes are not listed: log entry 8.) -/
def Obligations.HostReadReturns : Prop :=
  ∀ (s : State) (rest : List HostAccess), s.capsLegal →
    (∀ (offset : Nat) (v : Word),
      (offset, v) ∈ [(0x00008, s.status), (0x00010, s.errpos), (0x00018, s.flen), (0x00020, s.snrDb),
        (0x00028, s.pnParam), (0x00030, s.rotDeg), (0x00038, s.seed), (0x00040, s.caps)] →
      s.port = .read 8 offset :: rest → step s = .next { s with port := rest, returned := s.returned ++ [v] }) ∧
    (∀ (k offset : Nat), k < s.maxFrame →
      (offset = 0x10000 + 8 * k ∨ offset = 0x20000 + 16 * k ∨ offset = 0x20008 + 16 * k) →
      s.port = .read 8 offset :: rest →
      (∀ v, s.mem.readWord offset = some v →
        step s = .next { s with port := rest, returned := s.returned ++ [v] }) ∧
      (s.mem.readWord offset = none → step s = .fault .unwrittenRead))

/-- 20_memory.md R54, R56: a write of a writable register stores all 64 bits and does nothing else; a write of a buffer
half stores its eight bytes, byte i at offset + i being bits 8i+7:8i, marks the half written, and does nothing else (the
access is taken from the model's port: log entry 1). -/
def Obligations.HostWriteStores : Prop :=
  ∀ (s : State) (v : Word) (rest : List HostAccess), s.capsLegal →
    (s.port = .write 8 0x00018 v :: rest → step s = .next { s with port := rest, flen := v }) ∧
    (s.port = .write 8 0x00020 v :: rest → step s = .next { s with port := rest, snrDb := v }) ∧
    (s.port = .write 8 0x00028 v :: rest → step s = .next { s with port := rest, pnParam := v }) ∧
    (s.port = .write 8 0x00030 v :: rest → step s = .next { s with port := rest, rotDeg := v }) ∧
    (s.port = .write 8 0x00038 v :: rest → step s = .next { s with port := rest, seed := v }) ∧
    (∀ (k offset : Nat), k < s.maxFrame →
      (offset = 0x10000 + 8 * k ∨ offset = 0x20000 + 16 * k ∨ offset = 0x20008 + 16 * k) →
      s.port = .write 8 offset v :: rest →
      ∃ t, step s = .next t ∧ t = { s with port := rest, mem := t.mem } ∧ t.mem.readWord offset = some v ∧
        (∀ i < 8, t.mem.readByte (offset + i) = some (v.extractLsb' (8 * i) 8)) ∧
        ∀ a, (a < offset ∨ offset + 8 ≤ a) → t.mem.readByte a = s.mem.readByte a)

/-- 20_memory.md R47: BASE is a multiple of 0x40000, and the window holds exactly the 0x40000 addresses from BASE on, an
access to BASE + o being an access to offset o; every multiple of 0x40000 is some configuration's BASE. (BASE is a free
parameter: log entry 9.) -/
def Obligations.WindowOfTheBus : Prop :=
  (∀ c : Config, c.base % 0x40000 = 0 ∧
    (∀ (width o : Nat) (v : Word), o < 0x40000 →
      readAt c width (c.base + o) = some (.read width o) ∧
      writeAt c width (c.base + o) v = some (.write width o v)) ∧
    ∀ (width address : Nat) (v : Word), (address < c.base ∨ c.base + 0x40000 ≤ address) →
      readAt c width address = none ∧ writeAt c width address v = none) ∧
  ∀ b : Nat, b % 0x40000 = 0 → ∃ c : Config, c.base = b

/-- 60_exceptions.md R119, 70_reset_and_hazards.md R131: a model fault is recorded and changes no block state; the record
only grows, over any number of accesses, resets among them, so a run with a fault recorded never ends well (R138). (That
the run drops the access and appends the fault is the model's choice: log entries 1 and 7.) -/
def Obligations.FaultRecordNeverCleared : Prop :=
  (∀ (s : State) (f : Fault), step s = .fault f →
    afterAccess s = { s with port := s.port.tail, faultRecord := s.faultRecord ++ [f] }) ∧
  (∀ (n : Nat) (s : State), s.faultRecord <+: (afterAccesses n s).faultRecord) ∧
  ∀ (n : Nat) (s : State), s.faultRecord ≠ [] → (afterAccesses n s).endedWell = false

/-- 60_exceptions.md R119: the two model faults are all that stops a step; nothing is refused (log entry 7). -/
def Obligations.StepNeverRefuses : Prop :=
  ∀ (s : State) (r : Refusal), step s ≠ .refused r

/-- 60_exceptions.md R127, 70_reset_and_hazards.md R129: with no access waiting the block is idle and holds its state, over
any number of steps. (The port is the model's own field: log entry 1.) -/
def Obligations.IdleHoldsState : Prop :=
  ∀ s : State, s.port = [] → step s = .next s ∧ ∀ n : Nat, afterAccesses n s = s

/-! ### Reset -/

/-- 10_state.md R45, 70_reset_and_hazards.md R128: the value of every piece of block state at reset. -/
def Obligations.ResetValues : Prop :=
  State.reset.status = 0 ∧ State.reset.errpos = 0xFFFFFFFFFFFFFFFF ∧ State.reset.flen = 0 ∧
  State.reset.snrDb = 0 ∧ State.reset.pnParam = 0 ∧ State.reset.rotDeg = 0 ∧ State.reset.seed = 0 ∧
  State.reset.caps.toNat = Config.chip.maxFrame ∧ (∀ p, State.reset.cmap.point p = Config.chip.constOrder p) ∧
  State.reset.rng = Config.chip.seedFn 0 ∧ ∀ a, State.reset.mem.readByte a = none

/-- 70_reset_and_hazards.md R128, R131: from any state the reset event gives every piece of state its reset value; the
constants CAPS and CMAP are not affected, and the fault record survives (and what the host has read and will do is its own:
log entry 1). -/
def Obligations.ResetEventFromAnyState : Prop :=
  ∀ (s : State) (rest : List HostAccess), s.port = .reset :: rest →
    ∃ t, step s = .next t ∧ t.status = 0 ∧ t.errpos = 0xFFFFFFFFFFFFFFFF ∧ t.flen = 0 ∧ t.snrDb = 0 ∧ t.pnParam = 0 ∧
      t.rotDeg = 0 ∧ t.seed = 0 ∧ t.rng = Config.chip.seedFn 0 ∧ (∀ a, t.mem.readByte a = none) ∧
      t.caps = s.caps ∧ t.cmap = s.cmap ∧ t.faultRecord = s.faultRecord ∧ t.port = rest ∧ t.returned = s.returned

/-! ### Invariants -/

/-- The reset state is legal. -/
def Obligations.ResetIsLegal : Prop := State.reset.Legal

/-- Every step from a legal state leads to a legal state: the buffers keep their canonical form and hold whole entries of
mapped offsets only, CAPS holds a legal MAX_FRAME, the ROM is a bijection onto the sixteen points, STATUS keeps its
reserved bits 0 and an assigned code, ERRPOS is NOPOS or a position below MAX_FRAME with a code tied to an element.
(The canonical form of memory is the model's: log entry 8.) -/
def Obligations.StepKeepsLegal : Prop :=
  ∀ s t : State, s.Legal → step s = .next t → t.Legal

/-- 10_state.md R39, R41, 70_reset_and_hazards.md R128: no step, the reset event among them, changes CAPS or the
constellation ROM. -/
def Obligations.ConstantsNeverChange : Prop :=
  ∀ s t : State, step s = .next t → t.caps = s.caps ∧ t.cmap = s.cmap

/-! ### The constellation -/

/-- 40_mapper.md R74, 00_scope.md R6: whatever CONST_ORDER is, each of the sixteen points stands at exactly one position,
and every position holds one of them; and every such order is some configuration's, so nothing else is assumed of it. -/
def Obligations.ConstellationIsBijection : Prop :=
  (∀ c : Config, BijectionOntoPoints c.rom.point) ∧
  ∀ f : Fin 16 → Point, BijectionOntoPoints f → ∃ c : Config, c.constOrder = f ∧ c.rom.point = f

/-- 40_mapper.md R76: whatever CONST_ORDER is, the sixteen squares of I and the sixteen squares of Q sum to 80 each (their
means are 5), the squared magnitudes to 160 (their mean is 10), and the points to 0, in exact arithmetic. -/
def Obligations.ConstellationMeans : Prop :=
  ∀ c : Config,
    (∑ p : Fin 16, (Binary64.units (c.rom.point p).i) ^ 2) = 80 * (Binary64.one : Int) ^ 2 ∧
    (∑ p : Fin 16, (Binary64.units (c.rom.point p).q) ^ 2) = 80 * (Binary64.one : Int) ^ 2 ∧
    (∑ p : Fin 16, ((Binary64.units (c.rom.point p).i) ^ 2 + (Binary64.units (c.rom.point p).q) ^ 2))
      = 160 * (Binary64.one : Int) ^ 2 ∧
    (∑ p : Fin 16, Binary64.units (c.rom.point p).i) = 0 ∧ (∑ p : Fin 16, Binary64.units (c.rom.point p).q) = 0

/-- 40_mapper.md R77: inverse(forward(p)) = p, and forward(inverse(s)) = s for each of the sixteen points; inverse finds
nothing for a finite value that is none of them. -/
def Obligations.ForwardAndInverse : Prop :=
  ∀ r : Rom, Rom.legal r →
    (∀ p : Fin 16, r.inverse (r.point p) = some p) ∧
    (∀ a b : Fin 4, ∃ p, r.inverse ⟨level a, level b⟩ = some p ∧ r.point p = ⟨level a, level b⟩) ∧
    ∀ x : Point, x.isFinite = true → (∀ a b : Fin 4, x ≠ ⟨level a, level b⟩) → r.inverse x = none

/-! ### MAP -/

/-- 40_mapper.md R78: MAP on a frame of legal indices completes and writes each index's point; everything else is as
before but STATUS = 0x0100 and ERRPOS = NOPOS. -/
def Obligations.MapResult : Prop :=
  ∀ (s : State) (p : Nat → Fin 16), s.flen.toNat ≤ s.maxFrame →
    (∀ k < s.flen.toNat, s.idxEntry k = some (BitVec.ofNat 64 (p k).val)) →
    ∃ t, exec .map s = .next t ∧ (∀ k < s.flen.toNat, t.symEntry k = some (s.cmap.point (p k))) ∧
      SameOutsideSym s t ∧ t = { s with status := 0x0100, errpos := 0xFFFFFFFFFFFFFFFF, mem := t.mem }

/-- 40_mapper.md R78, R79: how MAP stops. FrameLength first; then the lowest position whose entry is unwritten (the model
fault) or outside 0..15 (InvalidIndex there, nothing else changed). That the lower position wins is the reading of log
entry 11. -/
def Obligations.MapErrors : Prop :=
  ∀ s : State,
    (s.maxFrame < s.flen.toNat →
      exec .map s = .next { s with status := 0x0105, errpos := 0xFFFFFFFFFFFFFFFF }) ∧
    ∀ k < s.flen.toNat, s.flen.toNat ≤ s.maxFrame →
      (∀ j < k, ∃ v, s.idxEntry j = some v ∧ 0 ≤ v.toInt ∧ v.toInt ≤ 15) →
      (s.idxEntry k = none → exec .map s = .fault .unwrittenRead) ∧
      ∀ v, s.idxEntry k = some v → (v.toInt < 0 ∨ 15 < v.toInt) →
        exec .map s = .next { s with status := 0x0101, errpos := BitVec.ofNat 64 k }

/-! ### DEMAP -/

/-- 40_mapper.md R81, R82: DEMAP on a frame of points (compared by value) completes and writes each point's position,
zero-extended; everything else is as before but STATUS = 0x0200 and ERRPOS = NOPOS. -/
def Obligations.DemapResult : Prop :=
  ∀ (s : State) (x : Nat → Point) (p : Nat → Fin 16), s.flen.toNat ≤ s.maxFrame → Rom.legal s.cmap →
    (∀ k < s.flen.toNat, s.symEntry k = some (x k) ∧ (x k).isFinite = true ∧
      Binary64.units (x k).i = Binary64.units (s.cmap.point (p k)).i ∧
      Binary64.units (x k).q = Binary64.units (s.cmap.point (p k)).q) →
    ∃ t, exec .demap s = .next t ∧ (∀ k < s.flen.toNat, t.idxEntry k = some (BitVec.ofNat 64 (p k).val)) ∧
      SameOutsideIdx s t ∧ t = { s with status := 0x0200, errpos := 0xFFFFFFFFFFFFFFFF, mem := t.mem }

/-- 40_mapper.md R81: how DEMAP stops, at the lowest failing position (the reading of log entry 11). -/
def Obligations.DemapErrors : Prop :=
  ∀ s : State,
    (s.maxFrame < s.flen.toNat →
      exec .demap s = .next { s with status := 0x0205, errpos := 0xFFFFFFFFFFFFFFFF }) ∧
    ∀ k < s.flen.toNat, s.flen.toNat ≤ s.maxFrame →
      (∀ j < k, ∃ x p, s.symEntry j = some x ∧ x.isFinite = true ∧
        Binary64.units x.i = Binary64.units (s.cmap.point p).i ∧
        Binary64.units x.q = Binary64.units (s.cmap.point p).q) →
      (s.symEntry k = none → exec .demap s = .fault .unwrittenRead) ∧
      ∀ x, s.symEntry k = some x →
        (x.isFinite = false →
          exec .demap s = .next { s with status := 0x0207, errpos := BitVec.ofNat 64 k }) ∧
        (x.isFinite = true →
          (∀ p : Fin 16, ¬(Binary64.units x.i = Binary64.units (s.cmap.point p).i ∧
            Binary64.units x.q = Binary64.units (s.cmap.point p).q)) →
          exec .demap s = .next { s with status := 0x0208, errpos := BitVec.ofNat 64 k })

/-! ### SLICE -/

/-- 41_slicer.md R84 to R86: SLICE on any written, finite frame completes and writes, for each symbol, the least position
at minimal exact squared distance; everything else is as before but STATUS = 0x0300 and ERRPOS = NOPOS. -/
def Obligations.SliceResult : Prop :=
  ∀ (s : State) (xs : List Point), s.flen.toNat ≤ s.maxFrame → HasFrame s xs →
    ∃ t, exec .slice s = .next t ∧
      (∀ (k : Nat) (h : k < xs.length), ∃ p : Fin 16, t.idxEntry k = some (BitVec.ofNat 64 p.val) ∧
        (∀ p', distSq xs[k] (s.cmap.point p) ≤ distSq xs[k] (s.cmap.point p')) ∧
        ∀ p' < p, distSq xs[k] (s.cmap.point p) < distSq xs[k] (s.cmap.point p')) ∧
      SameOutsideIdx s t ∧ t = { s with status := 0x0300, errpos := 0xFFFFFFFFFFFFFFFF, mem := t.mem }

/-- 41_slicer.md R84: how SLICE stops, at the lowest failing position (the reading of log entry 11). -/
def Obligations.SliceErrors : Prop :=
  ∀ s : State,
    (s.maxFrame < s.flen.toNat →
      exec .slice s = .next { s with status := 0x0305, errpos := 0xFFFFFFFFFFFFFFFF }) ∧
    ∀ k < s.flen.toNat, s.flen.toNat ≤ s.maxFrame → CleanBefore s k →
      (s.symEntry k = none → exec .slice s = .fault .unwrittenRead) ∧
      ∀ x, s.symEntry k = some x → x.isFinite = false →
        exec .slice s = .next { s with status := 0x0307, errpos := BitVec.ofNat 64 k }

/-- 41_slicer.md R87: the nearest points are exactly those whose two levels the per-axis table gives, and nearest(r) is
the lowest position among them. -/
def Obligations.NearestPerAxis : Prop :=
  ∀ (r : Rom) (x : Point), Rom.legal r →
    (∀ p : Fin 16, (∀ p', distSq x (r.point p) ≤ distSq x (r.point p')) ↔
      AxisNearest (Binary64.units x.i) (Binary64.units (r.point p).i) ∧
      AxisNearest (Binary64.units x.q) (Binary64.units (r.point p).q)) ∧
    (∀ p', distSq x (r.point (r.nearest x)) ≤ distSq x (r.point p')) ∧
    ∀ p : Fin 16, (∀ p', distSq x (r.point p) ≤ distSq x (r.point p')) → r.nearest x ≤ p

/-- 41_slicer.md R88: under CONST_REF a tie on either axis resolves to the more negative level. -/
def Obligations.TiesUnderConstRef : Prop :=
  ∀ (r : Rom) (x : Point), (∀ p, r.point p = constRef p) →
    let o : Int := Binary64.one
    let axis : Int → Nat := fun v => if v ≤ -2 * o then 0 else if v ≤ 0 then 1 else if v ≤ 2 * o then 2 else 3
    (r.nearest x).val = 4 * axis (Binary64.units x.i) + axis (Binary64.units x.q)

/-! ### Round trips -/

/-- 41_slicer.md R89: MAP then SLICE on a frame of legal indices leaves IDX[0..n-1] (and every other byte outside SYM's
frame) unchanged. -/
def Obligations.MapThenSlice : Prop :=
  ∀ (s : State) (p : Nat → Fin 16), s.capsLegal → Rom.legal s.cmap → s.flen.toNat ≤ s.maxFrame →
    (∀ k < s.flen.toNat, s.idxEntry k = some (BitVec.ofNat 64 (p k).val)) →
    ∃ t u, exec .map s = .next t ∧ exec .slice t = .next u ∧ u.errField = 0 ∧ SameOutsideSym s u

/-- 40_mapper.md R83: MAP then DEMAP leaves a frame of legal indices as it was; DEMAP then MAP leaves a frame of
constellation points as it was, bit for bit. -/
def Obligations.MapAndDemapRoundTrips : Prop :=
  (∀ (s : State) (p : Nat → Fin 16), s.capsLegal → Rom.legal s.cmap → s.flen.toNat ≤ s.maxFrame →
    (∀ k < s.flen.toNat, s.idxEntry k = some (BitVec.ofNat 64 (p k).val)) →
    ∃ t u, exec .map s = .next t ∧ exec .demap t = .next u ∧ u.errField = 0 ∧ SameOutsideSym s u) ∧
  (∀ (s : State) (p : Nat → Fin 16), s.capsLegal → Rom.legal s.cmap → s.flen.toNat ≤ s.maxFrame →
    (∀ k < s.flen.toNat, s.symEntry k = some (s.cmap.point (p k))) →
    ∃ t u, exec .demap s = .next t ∧ exec .map t = .next u ∧ u.errField = 0 ∧ SameOutsideIdx s u)

/-! ### AWGN -/

/-- 42_awgn.md R93: whatever sI, sQ, mI, mQ and acc take the values its loops and assignments give them, acc(n) / N is the
power of the frame. -/
def Obligations.PowerFollowsTheLoops : Prop :=
  ∀ (xs : List Point) (N mI mQ : F64) (sI sQ acc : Nat → F64), N = Binary64.ofNat xs.length →
    sI 0 = 0x0000000000000000 → sQ 0 = 0x0000000000000000 →
    (∀ (k : Nat) (h : k < xs.length),
      sI (k + 1) = Binary64.add (sI k) xs[k].i ∧ sQ (k + 1) = Binary64.add (sQ k) xs[k].q) →
    mI = Binary64.div (sI xs.length) N → mQ = Binary64.div (sQ xs.length) N →
    acc 0 = 0x0000000000000000 →
    (∀ (k : Nat) (h : k < xs.length), acc (k + 1) = Binary64.add (acc k)
      (Binary64.add (Binary64.mul (Binary64.sub xs[k].i mI) (Binary64.sub xs[k].i mI))
        (Binary64.mul (Binary64.sub xs[k].q mQ) (Binary64.sub xs[k].q mQ)))) →
    power xs = Binary64.div (acc xs.length) N

/-- 42_awgn.md R91, R95 to R97: when AWGN's checks pass it completes: symbol k becomes SYM[k] + sigma * (gI[k], gQ[k])
with gI[k] draw number k and gQ[k] draw number n + k, RNG advances by 2n draws, STATUS = 0x0400, ERRPOS = NOPOS, and
everything else is as before. -/
def Obligations.AwgnResult : Prop :=
  ∀ (s : State) (xs : List Point), s.flen.toNat ≤ s.maxFrame → s.flen.toNat ≠ 0 → HasFrame s xs →
    Binary64.isFinite s.snrDb = true → Binary64.isFinite (signalPower xs) = true → Binary64.isZero (signalPower xs) = false →
    Binary64.isFinite (noiseN0 Config.chip (signalPower xs) s.snrDb) = true →
    (∀ (k : Nat) (h : k < xs.length),
      (noisy (sigma Config.chip (signalPower xs) s.snrDb) xs[k] (drawAt Config.chip s.rng k)
        (drawAt Config.chip s.rng (s.flen.toNat + k))).isFinite = true) →
    ∃ t, exec .awgn s = .next t ∧
      (∀ (k : Nat) (h : k < xs.length),
        t.symEntry k = some (noisy (sigma Config.chip (signalPower xs) s.snrDb) xs[k] (drawAt Config.chip s.rng k)
          (drawAt Config.chip s.rng (s.flen.toNat + k)))) ∧
      SameOutsideSym s t ∧
      t = { s with status := 0x0400, errpos := 0xFFFFFFFFFFFFFFFF, mem := t.mem,
                   rng := rngAfter Config.chip (2 * s.flen.toNat) s.rng }

/-- 42_awgn.md R91, 60_exceptions.md R114: how AWGN stops, in order: FrameLength; InvalidParameter before any element is
looked at; the lowest unwritten or non-finite element; DegenerateSignal for an empty frame; NumericOverflow of P;
DegenerateSignal for P = 0; NumericOverflow of N0, which a POW10 of 0 gives (R95); NumericOverflow at the lowest non-finite
output. P is written out as R93 has it. It is stated of the course of AWGN in every configuration; `exec` runs it in the
chip's. (Order: log entry 11.) -/
def Obligations.AwgnErrors : Prop :=
  (∀ s : State, exec .awgn s = awgnWith Config.chip s) ∧
  ∀ (c : Config) (s : State),
    (s.maxFrame < s.flen.toNat →
      awgnWith c s = .next { s with status := 0x0405, errpos := 0xFFFFFFFFFFFFFFFF }) ∧
    (s.flen.toNat ≤ s.maxFrame → Binary64.isFinite s.snrDb = false →
      awgnWith c s = .next { s with status := 0x0406, errpos := 0xFFFFFFFFFFFFFFFF }) ∧
    (s.flen.toNat ≤ s.maxFrame → Binary64.isFinite s.snrDb = true →
      (∀ k < s.flen.toNat, CleanBefore s k →
        (s.symEntry k = none → awgnWith c s = .fault .unwrittenRead) ∧
        ∀ x, s.symEntry k = some x → x.isFinite = false →
          awgnWith c s = .next { s with status := 0x0407, errpos := BitVec.ofNat 64 k }) ∧
      ∀ xs, HasFrame s xs →
        (s.flen.toNat = 0 → awgnWith c s = .next { s with status := 0x0403, errpos := 0xFFFFFFFFFFFFFFFF }) ∧
        (s.flen.toNat ≠ 0 →
          (Binary64.isFinite (signalPower xs) = false →
            awgnWith c s = .next { s with status := 0x0409, errpos := 0xFFFFFFFFFFFFFFFF }) ∧
          (Binary64.isZero (signalPower xs) = true →
            awgnWith c s = .next { s with status := 0x0403, errpos := 0xFFFFFFFFFFFFFFFF }) ∧
          (Binary64.isFinite (signalPower xs) = true → Binary64.isZero (signalPower xs) = false →
            (Binary64.isFinite (noiseN0 c (signalPower xs) s.snrDb) = false ∨
                snrFactor c s.snrDb = 0x0000000000000000 ∨ snrFactor c s.snrDb = 0x8000000000000000 →
              awgnWith c s = .next { s with status := 0x0409, errpos := 0xFFFFFFFFFFFFFFFF }) ∧
            (Binary64.isFinite (noiseN0 c (signalPower xs) s.snrDb) = true →
              ∀ (k : Nat) (h : k < xs.length),
                (∀ (j : Nat) (hj : j < k),
                  (noisy (sigma c (signalPower xs) s.snrDb) (xs[j]'(Nat.lt_trans hj h))
                    (drawAt c s.rng j) (drawAt c s.rng (s.flen.toNat + j))).isFinite = true) →
                (noisy (sigma c (signalPower xs) s.snrDb) xs[k] (drawAt c s.rng k)
                  (drawAt c s.rng (s.flen.toNat + k))).isFinite = false →
                awgnWith c s = .next { s with status := 0x0409, errpos := BitVec.ofNat 64 k }))))

/-- 42_awgn.md R97: AWGN writes SYM[0..n-1] and RNG only when it succeeds; on success RNG has advanced by exactly
2n draws. -/
def Obligations.AwgnAtomic : Prop :=
  ∀ s t : State, exec .awgn s = .next t →
    (t.errField = 0 ∧ SameOutsideSym s t ∧ t.rng = rngAfter Config.chip (2 * s.flen.toNat) s.rng) ∨
    (t.errField ≠ 0 ∧ t.mem = s.mem ∧ t.rng = s.rng)

/-- 42_awgn.md R94: a frame of one finite symbol has power 0, so AWGN reports DegenerateSignal. -/
def Obligations.AwgnOneSymbolDegenerate : Prop :=
  ∀ (s : State) (x : Point), s.flen = 1 → 1 ≤ s.maxFrame → Binary64.isFinite s.snrDb = true →
    s.symEntry 0 = some x → x.isFinite = true →
    exec .awgn s = .next { s with status := 0x0403, errpos := 0xFFFFFFFFFFFFFFFF }

/-- 42_awgn.md R94 says that P is 0 for EVERY frame whose entries are all equal. Read of every finite frame, with P as R93
computes it in binary64, this is expected to FAIL (three entries of 0.1: the rounded mean is not 0.1). The model follows
R93 (log entry 12). -/
def Obligations.EqualEntriesPowerZero : Prop :=
  ∀ (x : Point) (n : Nat), x.isFinite = true → 1 ≤ n → n ≤ 4096 →
    Binary64.isZero (power (List.replicate n x)) = true

/-- 42_awgn.md R94, for the frames MAP writes: n equal constellation points have power 0. -/
def Obligations.EqualPointsPowerZero : Prop :=
  ∀ (a b : Fin 4) (n : Nat), 1 ≤ n → n ≤ 4096 →
    Binary64.isZero (power (List.replicate n ⟨level a, level b⟩)) = true

/-- 42_awgn.md R91, R95: N0 = 0 is legal, and a POW10 of +infinity gives it: AWGN then completes and every symbol keeps its
value. It is stated of the course of AWGN in every configuration; `exec` runs it in the chip's. (A finite value over an
infinity is a zero by IEEE 754: log entry 10.) -/
def Obligations.AwgnZeroNoiseKeepsValues : Prop :=
  (∀ s : State, exec .awgn s = awgnWith Config.chip s) ∧
  ∀ (c : Config) (s : State) (xs : List Point), s.flen.toNat ≤ s.maxFrame → s.flen.toNat ≠ 0 → HasFrame s xs →
    Binary64.isFinite s.snrDb = true → Binary64.isFinite (signalPower xs) = true →
    Binary64.isZero (signalPower xs) = false →
    (snrFactor c s.snrDb = 0x7FF0000000000000 → Binary64.isZero (noiseN0 c (signalPower xs) s.snrDb) = true) ∧
    (Binary64.isZero (noiseN0 c (signalPower xs) s.snrDb) = true ∨ snrFactor c s.snrDb = 0x7FF0000000000000 →
      ∃ t, awgnWith c s = .next t ∧ t.status = 0x0400 ∧ t.errpos = 0xFFFFFFFFFFFFFFFF ∧
        t.rng = rngAfter c (2 * s.flen.toNat) s.rng ∧
        ∀ (k : Nat) (h : k < xs.length), ∃ y, t.symEntry k = some y ∧ y.isFinite = true ∧
          Binary64.units y.i = Binary64.units xs[k].i ∧ Binary64.units y.q = Binary64.units xs[k].q)

/-- 42_awgn.md R99: on a frame of constellation points, when AWGN succeeds and every rounded noise term is at most 0.5 in
magnitude, SLICE then recovers every index. It is stated of the courses of AWGN and SLICE, for every configuration. -/
def Obligations.HighSnrStability : Prop :=
  ∀ (c : Config) (s t : State) (p : Nat → Fin 16), Rom.legal s.cmap →
    (∀ k < s.flen.toNat, s.symEntry k = some (s.cmap.point (p k))) →
    awgnCourse c s = .ok t →
    (∀ xs, HasFrame s xs → ∀ k < s.flen.toNat,
      2 * |Binary64.units (Binary64.mul (sigma c (signalPower xs) s.snrDb) (drawAt c s.rng k))| ≤ Binary64.one ∧
      Binary64.isFinite (Binary64.mul (sigma c (signalPower xs) s.snrDb) (drawAt c s.rng k)) = true ∧
      2 * |Binary64.units (Binary64.mul (sigma c (signalPower xs) s.snrDb) (drawAt c s.rng (s.flen.toNat + k)))|
        ≤ Binary64.one ∧
      Binary64.isFinite (Binary64.mul (sigma c (signalPower xs) s.snrDb) (drawAt c s.rng (s.flen.toNat + k))) = true) →
    ∃ u, sliceCourse t = .ok u ∧ ∀ k < s.flen.toNat, u.idxEntry k = some (BitVec.ofNat 64 (p k).val)

/-! ### PNROT -/

/-- 43_phase_rotator.md R100 to R103, R105: when PNROT's checks pass it completes: symbol k is multiplied by cis(sphi * g[k])
and then by cis(theta), g[k] being draw number k, RNG advances by n draws, STATUS = 0x0500, ERRPOS = NOPOS, and everything
else is as before. -/
def Obligations.PnrotResult : Prop :=
  ∀ (s : State) (xs : List Point) (sphi theta : F64), s.flen.toNat ≤ s.maxFrame → HasFrame s xs →
    Binary64.isFinite s.pnParam = true → 0 ≤ Binary64.units s.pnParam → Binary64.isFinite s.rotDeg = true →
    sphi = Binary64.mul s.pnParam (Binary64.div 0x400921FB54442D18 0x4066800000000000) →
    theta = Binary64.div (Binary64.mul s.rotDeg 0x400921FB54442D18) 0x4066800000000000 →
    Binary64.isFinite sphi = true → Binary64.isFinite theta = true →
    (∀ (k : Nat) (h : k < xs.length), Binary64.isFinite (Binary64.mul sphi (drawAt Config.chip s.rng k)) = true ∧
      (turned Config.chip (Binary64.mul sphi (drawAt Config.chip s.rng k)) theta xs[k]).isFinite = true) →
    ∃ t, exec .pnrot s = .next t ∧
      (∀ (k : Nat) (h : k < xs.length),
        t.symEntry k = some (turned Config.chip (Binary64.mul sphi (drawAt Config.chip s.rng k)) theta xs[k])) ∧
      SameOutsideSym s t ∧
      t = { s with status := 0x0500, errpos := 0xFFFFFFFFFFFFFFFF, mem := t.mem,
                   rng := rngAfter Config.chip s.flen.toNat s.rng }

/-- 43_phase_rotator.md R100, R101, 60_exceptions.md R114: how PNROT stops, in order. It is stated of
the course of PNROT in every configuration; `exec` runs it in the chip's. (Order: log entry 11.) -/
def Obligations.PnrotErrors : Prop :=
  (∀ s : State, exec .pnrot s = pnrotWith Config.chip s) ∧
  ∀ (c : Config) (s : State) (sphi theta : F64),
    sphi = Binary64.mul s.pnParam (Binary64.div 0x400921FB54442D18 0x4066800000000000) →
    theta = Binary64.div (Binary64.mul s.rotDeg 0x400921FB54442D18) 0x4066800000000000 →
    (s.maxFrame < s.flen.toNat →
      pnrotWith c s = .next { s with status := 0x0505, errpos := 0xFFFFFFFFFFFFFFFF }) ∧
    (s.flen.toNat ≤ s.maxFrame →
      (Binary64.isFinite s.pnParam = false ∨ Binary64.units s.pnParam < 0 ∨ Binary64.isFinite s.rotDeg = false) →
      pnrotWith c s = .next { s with status := 0x0506, errpos := 0xFFFFFFFFFFFFFFFF }) ∧
    (s.flen.toNat ≤ s.maxFrame → Binary64.isFinite s.pnParam = true → 0 ≤ Binary64.units s.pnParam →
      Binary64.isFinite s.rotDeg = true →
      (∀ k < s.flen.toNat, CleanBefore s k →
        (s.symEntry k = none → pnrotWith c s = .fault .unwrittenRead) ∧
        ∀ x, s.symEntry k = some x → x.isFinite = false →
          pnrotWith c s = .next { s with status := 0x0507, errpos := BitVec.ofNat 64 k }) ∧
      ∀ xs, HasFrame s xs →
        (Binary64.isFinite sphi = false ∨ Binary64.isFinite theta = false →
          pnrotWith c s = .next { s with status := 0x0509, errpos := 0xFFFFFFFFFFFFFFFF }) ∧
        (Binary64.isFinite sphi = true → Binary64.isFinite theta = true →
          ∀ (k : Nat) (h : k < xs.length),
            (∀ (j : Nat) (hj : j < k),
              Binary64.isFinite (Binary64.mul sphi (drawAt c s.rng j)) = true ∧
              (turned c (Binary64.mul sphi (drawAt c s.rng j)) theta (xs[j]'(Nat.lt_trans hj h))).isFinite = true) →
            (Binary64.isFinite (Binary64.mul sphi (drawAt c s.rng k)) = false ∨
              (turned c (Binary64.mul sphi (drawAt c s.rng k)) theta xs[k]).isFinite = false) →
            pnrotWith c s = .next { s with status := 0x0509, errpos := BitVec.ofNat 64 k }))

/-- 43_phase_rotator.md R105: PNROT writes SYM[0..n-1] and RNG only when it succeeds; on success RNG has advanced by
exactly n draws. -/
def Obligations.PnrotAtomic : Prop :=
  ∀ s t : State, exec .pnrot s = .next t →
    (t.errField = 0 ∧ SameOutsideSym s t ∧ t.rng = rngAfter Config.chip s.flen.toNat s.rng) ∨
    (t.errField ≠ 0 ∧ t.mem = s.mem ∧ t.rng = s.rng)

/-- 43_phase_rotator.md R104: with PN_PARAM = +0 or -0 and ROT_DEG = +0 or -0 PNROT completes on every written, finite
frame, whatever the draws are; every symbol keeps its value exactly, and RNG advances by n draws. -/
def Obligations.PnrotIdentity : Prop :=
  ∀ (s : State) (xs : List Point), s.flen.toNat ≤ s.maxFrame → HasFrame s xs →
    (s.pnParam = 0x0000000000000000 ∨ s.pnParam = 0x8000000000000000) →
    (s.rotDeg = 0x0000000000000000 ∨ s.rotDeg = 0x8000000000000000) →
    ∃ t, exec .pnrot s = .next t ∧ t.status = 0x0500 ∧ t.errpos = 0xFFFFFFFFFFFFFFFF ∧
      t.rng = rngAfter Config.chip s.flen.toNat s.rng ∧
      ∀ (k : Nat) (h : k < xs.length), ∃ y, t.symEntry k = some y ∧ y.isFinite = true ∧
        Binary64.units y.i = Binary64.units xs[k].i ∧ Binary64.units y.q = Binary64.units xs[k].q

/-! ### SEED -/

/-- 44_control.md R107: SEED copies SEEDFN(SEED) into RNG and reports success, whatever FLEN and the buffers are; nothing
else changes. -/
def Obligations.SeedResult : Prop :=
  ∀ s : State, exec .seed s =
    .next { s with rng := Config.chip.seedFn s.seed, status := 0x0600, errpos := 0xFFFFFFFFFFFFFFFF }

/-! ### All commands -/

/-- 60_exceptions.md R112, R117: every command word, legal or not, whatever its outcome other than a model fault, ends by
writing STATUS and ERRPOS; after a block error no other state has changed. -/
def Obligations.Bookkeeping : Prop :=
  ∀ (s t : State) (w : Word), runCommandWord s w = .next t →
    t.lastOpField = w.extractLsb' 0 8 ∧ t.status.toNat < 2 ^ 16 ∧
    ((t.errField = 0 ∧ t.errpos = 0xFFFFFFFFFFFFFFFF) ∨
     (t.errField ≠ 0 ∧ t = { s with status := t.status, errpos := t.errpos }))

/-- 60_exceptions.md R116: a command that does not succeed raises one of its row's codes, each of which it does raise from
some legal state; a word that is no command's raises code 4 and nothing else. -/
def Obligations.ErrorTable : Prop :=
  (∀ (i : Instr) (s t : State), exec i s = .next t → t.errField = 0 ∨ t.errField ∈ codesOf i) ∧
  (∀ (i : Instr), ∀ e ∈ codesOf i, ∃ s t, s.Legal ∧ exec i s = .next t ∧ t.errField = e) ∧
  ∀ (s : State) (w : Word), (∀ i, w ≠ encode i) → ∃ t, runCommandWord s w = .next t ∧ t.errField = 4

/-- 10_state.md R32: after an error tied to one frame element ERRPOS holds that element's position, below FLEN; after
every other command it holds NOPOS. Codes 1, 7 and 8 are tied to an element, code 9 may be (60_exceptions.md R111). -/
def Obligations.ErrorPosition : Prop :=
  ∀ (i : Instr) (s t : State), exec i s = .next t →
    (t.errField ∈ [1, 7, 8] → t.errpos.toNat < s.flen.toNat) ∧
    (t.errField = 9 → t.errpos.toNat < s.flen.toNat ∨ t.errpos = 0xFFFFFFFFFFFFFFFF) ∧
    (t.errField ∈ [0, 3, 4, 5, 6] → t.errpos = 0xFFFFFFFFFFFFFFFF)

/-- 60_exceptions.md R115: every value a successful command writes to SYM is finite, and every value written to IDX is in
0..15. -/
def Obligations.OnlyFiniteValuesWritten : Prop :=
  ∀ (i : Instr) (s t : State), Rom.legal s.cmap → exec i s = .next t → t.errField = 0 →
    (i = .map ∨ i = .awgn ∨ i = .pnrot →
      ∀ k < s.flen.toNat, ∃ y, t.symEntry k = some y ∧ y.isFinite = true) ∧
    (i = .demap ∨ i = .slice →
      ∀ k < s.flen.toNat, ∃ p : Fin 16, t.idxEntry k = some (BitVec.ofNat 64 p.val))

/-- 10_state.md R44: no command writes anything but its write set: parameters, CAPS, CMAP and the host's side never; SYM
only MAP, AWGN and PNROT and only its first FLEN entries; IDX only DEMAP and SLICE and only its first FLEN entries; RNG only
AWGN, PNROT and SEED. -/
def Obligations.WriteSets : Prop :=
  ∀ (i : Instr) (s t : State), exec i s = .next t →
    t = { s with status := t.status, errpos := t.errpos, mem := t.mem, rng := t.rng } ∧
    (i = .map ∨ i = .awgn ∨ i = .pnrot → SameOutsideSym s t) ∧
    (i = .demap ∨ i = .slice → SameOutsideIdx s t) ∧
    (i = .seed → t.mem = s.mem) ∧
    (i = .map ∨ i = .demap ∨ i = .slice → t.rng = s.rng)

/-- 44_control.md R108: a command is a function of what it reads (10_state.md R44): from two states that agree on that,
it stops with the same model fault, or ends with the same STATUS and ERRPOS and, on success, the same results. -/
def Obligations.CommandsDependOnOperandsOnly : Prop :=
  ∀ (i : Instr) (s s' : State), SameOperands i s s' →
    match exec i s, exec i s' with
    | .next t, .next t' => t.status = t'.status ∧ t.errpos = t'.errpos ∧
        (t.errField = 0 → SameResults i s.flen.toNat t t')
    | .fault f, .fault f' => f = f'
    | _, _ => False

/-! ### Arithmetic and parameters -/

/-- 00_scope.md R17: toF64(n) is exact for 0 <= n <= 4096. -/
def Obligations.ToF64Exact : Prop :=
  ∀ n ≤ 4096, Binary64.isFinite (Binary64.ofNat n) = true ∧
    Binary64.units (Binary64.ofNat n) = n * (Binary64.one : Int)

/-- 00_scope.md R15: sum, difference, product and quotient of finite values are the exact result rounded to nearest,
ties to even, and the infinity of its sign exactly from 2^1024 - 2^970 on (compared in units of 2^-1074, the product and the
quotient after clearing denominators; the threshold is IEEE 754's: log entry 10). -/
def Obligations.ArithmeticRoundsToNearest : Prop :=
  ∀ x y : F64, Binary64.isFinite x = true → Binary64.isFinite y = true →
    RoundsTo (Binary64.add x y) (Binary64.units x + Binary64.units y) 1 ∧
    RoundsTo (Binary64.sub x y) (Binary64.units x - Binary64.units y) 1 ∧
    RoundsTo (Binary64.mul x y) (Binary64.units x * Binary64.units y) Binary64.one ∧
    (Binary64.isZero y = false →
      RoundsTo (Binary64.div x y) (Binary64.units x * Binary64.one) (Binary64.units y))

/-- 10_state.md R34: the parts of a binary64 pattern and what they stand for, in units of 2^-1074: sign in bit 63, biased
exponent e in bits 62:52, fraction f in bits 51:0. (The value of the parts is IEEE 754's: log entry 10.) -/
def Obligations.PatternsAndValues : Prop :=
  ∀ x : F64,
    let e := (x.extractLsb' 52 11).toNat
    let f := (x.extractLsb' 0 52).toNat
    (Binary64.sign x = true ↔ x.extractLsb' 63 1 = 1#1) ∧ (Binary64.isFinite x = true ↔ e ≠ 2047) ∧
    (Binary64.isInf x = true ↔ e = 2047 ∧ f = 0) ∧ (Binary64.isNaN x = true ↔ e = 2047 ∧ f ≠ 0) ∧
    (Binary64.isZero x = true ↔ e = 0 ∧ f = 0) ∧
    (e = 0 → |Binary64.units x| = f) ∧ (e ≠ 0 → e ≠ 2047 → |Binary64.units x| = (2 ^ 52 + f) * 2 ^ (e - 1)) ∧
    (Binary64.sign x = true → Binary64.units x ≤ 0) ∧ (Binary64.sign x = false → 0 ≤ Binary64.units x)

/-- 00_scope.md R15, in IEEE 754's special cases (log entry 10): what the operators answer for a NaN, an infinity or a zero
operand, and the signs of zero results. POW10 and COS may be +infinity or 0 (R8), so AWGN and PNROT meet them. -/
def Obligations.SpecialOperands : Prop :=
  (∀ x y : F64, Binary64.isNaN x = true ∨ Binary64.isNaN y = true →
    Binary64.isNaN (Binary64.add x y) = true ∧ Binary64.isNaN (Binary64.sub x y) = true ∧
    Binary64.isNaN (Binary64.mul x y) = true ∧ Binary64.isNaN (Binary64.div x y) = true) ∧
  (∀ x y : F64, Binary64.isInf x = true → Binary64.isFinite y = true →
    Binary64.add x y = x ∧ Binary64.add y x = x ∧ Binary64.sub x y = x ∧
    Binary64.sub y x = x ^^^ 0x8000000000000000 ∧
    (Binary64.isZero y = false →
      Binary64.mul x y = signedInfinity x y ∧ Binary64.mul y x = signedInfinity x y) ∧
    (Binary64.isZero y = true →
      Binary64.isNaN (Binary64.mul x y) = true ∧ Binary64.isNaN (Binary64.mul y x) = true) ∧
    Binary64.div x y = signedInfinity x y ∧ Binary64.div y x = signedZero x y) ∧
  (∀ x y : F64, Binary64.isInf x = true → Binary64.isInf y = true →
    (x = y → Binary64.add x y = x ∧ Binary64.isNaN (Binary64.sub x y) = true) ∧
    (x ≠ y → Binary64.isNaN (Binary64.add x y) = true ∧ Binary64.sub x y = x) ∧
    Binary64.mul x y = signedInfinity x y ∧ Binary64.isNaN (Binary64.div x y) = true) ∧
  (∀ x y : F64, Binary64.isFinite x = true → Binary64.isZero y = true →
    (Binary64.isZero x = false → Binary64.div x y = signedInfinity x y) ∧
    (Binary64.isZero x = true → Binary64.isNaN (Binary64.div x y) = true)) ∧
  (∀ x y : F64, Binary64.isFinite x = true → Binary64.isFinite y = true →
    (Binary64.units x + Binary64.units y = 0 →
      Binary64.add x y = if Binary64.sign x && Binary64.sign y then 0x8000000000000000 else 0x0000000000000000) ∧
    (Binary64.isZero (Binary64.mul x y) = true → Binary64.mul x y = signedZero x y) ∧
    (Binary64.isZero y = false → Binary64.isZero (Binary64.div x y) = true → Binary64.div x y = signedZero x y)) ∧
  ∀ x : F64, (Binary64.isNaN x = true → Binary64.isNaN (Binary64.sqrt x) = true) ∧
    (Binary64.isZero x = true → Binary64.sqrt x = x) ∧
    (Binary64.isNaN x = false → Binary64.isZero x = false → Binary64.sign x = true →
      Binary64.isNaN (Binary64.sqrt x) = true) ∧
    (x = 0x7FF0000000000000 → Binary64.sqrt x = x)

/-- 00_scope.md R15: sqrt64 of a finite value that is not negative is finite and a binary64 value nearest to the real
square root. (A value of u units is u / one; its root is sqrt(u * one) units.) -/
def Obligations.SqrtRoundsToNearest : Prop :=
  ∀ x w : F64, Binary64.isFinite x = true → 0 ≤ Binary64.units x → Binary64.isFinite w = true →
    Binary64.isFinite (Binary64.sqrt x) = true ∧
    |(Binary64.units (Binary64.sqrt x) : ℝ) - Real.sqrt ((Binary64.units x : ℝ) * Binary64.one)|
      ≤ |(Binary64.units w : ℝ) - Real.sqrt ((Binary64.units x : ℝ) * Binary64.one)|

/-- 00_scope.md R8: COS, SIN and POW10 have the named properties in every configuration, and nothing else is assumed of
them: every three functions with these properties are some configuration's. (That POW10_INT fixes POW10(+0) alone and leaves
POW10(-0) free, and that an argument that is not finite is left wholly free, is the model's choice: log entry 5.) -/
def Obligations.TranscendentalProperties : Prop :=
  (∀ c : Config, c.cos 0x0000000000000000 = 0x3FF0000000000000 ∧ c.cos 0x8000000000000000 = 0x3FF0000000000000 ∧
    c.sin 0x0000000000000000 = 0x0000000000000000 ∧ c.sin 0x8000000000000000 = 0x8000000000000000 ∧
    (∀ k ≤ 22, c.pow10 (Binary64.ofNat k) = Binary64.ofNat (10 ^ k)) ∧
    InRange c.cos ∧ InRange c.sin ∧ InRange c.pow10) ∧
  (∀ k ≤ 22, Binary64.units (Binary64.ofNat k) = k * (Binary64.one : Int) ∧
    Binary64.isFinite (Binary64.ofNat (10 ^ k)) = true ∧
    Binary64.units (Binary64.ofNat (10 ^ k)) = 10 ^ k * (Binary64.one : Int)) ∧
  ∀ f g h : F64 → F64, InRange f → InRange g → InRange h →
    f 0x0000000000000000 = 0x3FF0000000000000 → f 0x8000000000000000 = 0x3FF0000000000000 →
    g 0x0000000000000000 = 0x0000000000000000 → g 0x8000000000000000 = 0x8000000000000000 →
    (∀ k ≤ 22, h (Binary64.ofNat k) = Binary64.ofNat (10 ^ k)) →
    ∃ c : Config, c.cos = f ∧ c.sin = g ∧ c.pow10 = h

/-- 00_scope.md R5, R7: MAX_FRAME is between 1 and 4096, and every draw is finite (GAUSS_FINITE), in every configuration;
every such MAX_FRAME, SEEDFN and GAUSS (over the natural numbers as generator states: log entry 4) is some configuration's. -/
def Obligations.CapacityAndGeneratorProperties : Prop :=
  (∀ c : Config, 1 ≤ c.maxFrame ∧ c.maxFrame ≤ 4096 ∧ ∀ r, Binary64.isFinite (c.gauss r).1 = true) ∧
  ∀ (n : Nat) (seedFn : Word → RngState) (gauss : RngState → F64 × RngState), 1 ≤ n → n ≤ 4096 →
    (∀ r, Binary64.isFinite (gauss r).1 = true) →
    ∃ c : Config, c.maxFrame = n ∧ c.seedFn = seedFn ∧ c.gauss = gauss
end

