-- ==== Sys2Proof/Laws/Binary64.lean ====
section
/-! SUPPORT. The binary64 arithmetic: patterns and their values, and the rounding function, which gives the nearest
value with ties to the even pattern, gives representable values exactly, and keeps order. -/

namespace Sys2Proof.Binary64

/-! ### Patterns -/

theorem magBits_lt (x : F64) : magBits x < 2 ^ 63 := (x.extractLsb' 0 63).isLt

theorem toNat_eq (x : F64) : x.toNat = (if sign x then 2 ^ 63 else 0) + magBits x := by
  unfold sign magBits
  rw [BitVec.extractLsb'_toNat, BitVec.msb_eq_decide, Nat.shiftRight_zero]
  have := x.isLt
  by_cases h : 2 ^ (64 - 1) ≤ x.toNat
  · simp only [h, decide_true, if_true]; omega
  · simp only [h, decide_false, Bool.false_eq_true, if_false]; omega

theorem pack_toNat (n : Bool) {k : Nat} (h : k < 2 ^ 63) : (pack n k).toNat = (if n then 2 ^ 63 else 0) + k := by
  unfold pack
  rw [BitVec.toNat_ofNat]
  cases n <;> simp <;> omega

theorem pack_parts (n : Bool) {k : Nat} (h : k < 2 ^ 63) : sign (pack n k) = n ∧ magBits (pack n k) = k := by
  have h1 := toNat_eq (pack n k)
  rw [pack_toNat n h] at h1
  have h2 := magBits_lt (pack n k)
  generalize sign (pack n k) = b at *
  generalize magBits (pack n k) = j at *
  cases n <;> cases b <;> simp at h1 ⊢ <;> omega

theorem magBits_pack (n : Bool) {k : Nat} (h : k < 2 ^ 63) : magBits (pack n k) = k := (pack_parts n h).2

theorem sign_pack (n : Bool) {k : Nat} (h : k < 2 ^ 63) : sign (pack n k) = n := (pack_parts n h).1

theorem pack_sign_magBits (x : F64) : pack (sign x) (magBits x) = x := by
  apply BitVec.eq_of_toNat_eq
  rw [pack_toNat _ (magBits_lt x), ← toNat_eq]

theorem ext_sign_magBits {x y : F64} (h1 : sign x = sign y) (h2 : magBits x = magBits y) : x = y := by
  rw [← pack_sign_magBits x, ← pack_sign_magBits y, h1, h2]

theorem isFinite_iff (x : F64) : isFinite x = true ↔ magBits x < infMag := by simp [isFinite]

theorem isZero_iff (x : F64) : isZero x = true ↔ magBits x = 0 := by simp [isZero]

theorem not_isNaN_of_isFinite {x : F64} (h : isFinite x = true) : isNaN x = false := by
  rw [isFinite_iff] at h; simp [isNaN]; omega

theorem not_isInf_of_isFinite {x : F64} (h : isFinite x = true) : isInf x = false := by
  rw [isFinite_iff] at h; simp [isInf]; omega

theorem isFinite_pack (n : Bool) {k : Nat} (h : k < infMag) : isFinite (pack n k) = true := by
  rw [isFinite_iff, magBits_pack n (by unfold infMag at h; omega)]; exact h

theorem isFinite_pack_le (n : Bool) {k : Nat} (h : k ≤ infMag) : isFinite (pack n k) = true ↔ k < infMag := by
  rw [isFinite_iff, magBits_pack n (by unfold infMag at h; omega)]

/-! ### Values of magnitude patterns -/

theorem magUnits_shift {s g : Nat} (h1 : g ≤ 2 ^ 53) (h2 : s = 0 ∨ 2 ^ 52 ≤ g) :
    magUnits (s * 2 ^ 52 + g) = g * 2 ^ s := by
  unfold magUnits
  rcases Nat.lt_or_ge g (2 ^ 52) with hg | hg
  · obtain rfl : s = 0 := by omega
    rw [if_pos (by omega)]; simp
  · rcases Nat.lt_or_ge g (2 ^ 53) with hg' | hg'
    · have e1 : (s * 2 ^ 52 + g) / 2 ^ 52 = s + 1 := by omega
      have e2 : (s * 2 ^ 52 + g) % 2 ^ 52 = g - 2 ^ 52 := by omega
      rw [e1, e2, if_neg (by omega), Nat.add_sub_cancel, show 2 ^ 52 + (g - 2 ^ 52) = g by omega]
    · obtain rfl : g = 2 ^ 53 := by omega
      have e1 : (s * 2 ^ 52 + 2 ^ 53) / 2 ^ 52 = s + 2 := by omega
      have e2 : (s * 2 ^ 52 + 2 ^ 53) % 2 ^ 52 = 0 := by omega
      rw [e1, e2, if_neg (by omega), show s + 2 - 1 = s + 1 by omega, Nat.pow_succ 2 s]; omega

/-- Every pattern is a significand and an exponent. -/
theorem mag_split (k : Nat) : ∃ s g, k = s * 2 ^ 52 + g ∧ g < 2 ^ 53 ∧ (s = 0 ∨ 2 ^ 52 ≤ g) := by
  rcases Nat.lt_or_ge k (2 ^ 53) with h | h
  · exact ⟨0, k, by omega, h, .inl rfl⟩
  · exact ⟨k / 2 ^ 52 - 1, k % 2 ^ 52 + 2 ^ 52, by omega, by omega, .inr (by omega)⟩

theorem magUnits_lt_succ (k : Nat) : magUnits k < magUnits (k + 1) := by
  obtain ⟨s, g, rfl, h1, h2⟩ := mag_split k
  rw [Nat.add_assoc, magUnits_shift (by omega) h2, magUnits_shift (by omega) (by omega)]
  exact Nat.mul_lt_mul_of_pos_right (Nat.lt_succ_self g) (Nat.two_pow_pos s)

theorem magUnits_strictMono : StrictMono magUnits := strictMono_nat_of_lt_succ magUnits_lt_succ

@[simp] theorem magUnits_zero : magUnits 0 = 0 := by simp [magUnits]

theorem magUnits_eq_zero_iff (k : Nat) : magUnits k = 0 ↔ k = 0 := by
  rw [← magUnits_zero, magUnits_strictMono.injective.eq_iff, magUnits_zero]

theorem units_pack (n : Bool) {k : Nat} (h : k < 2 ^ 63) :
    units (pack n k) = if n then -(magUnits k : Int) else (magUnits k : Int) := by
  unfold units; rw [sign_pack n h, magBits_pack n h]

theorem natAbs_units (x : F64) : (units x).natAbs = magUnits (magBits x) := by
  unfold units; split <;> simp

theorem units_eq_zero_iff (x : F64) : units x = 0 ↔ isZero x = true := by
  rw [isZero_iff, ← magUnits_eq_zero_iff, ← natAbs_units, Int.natAbs_eq_zero]

/-- A value that is not zero has one pattern. -/
theorem eq_of_units_eq {x y : F64} (h : units x = units y) (h0 : units x ≠ 0) : x = y := by
  have hm : magBits x = magBits y := by
    apply magUnits_strictMono.injective; rw [← natAbs_units, ← natAbs_units, h]
  apply ext_sign_magBits _ hm
  have hp : 0 < magUnits (magBits x) := by rw [← natAbs_units]; omega
  have hq : 0 < magUnits (magBits y) := by rw [← hm]; exact hp
  unfold units at h
  cases hx : sign x <;> cases hy : sign y <;> simp [hx, hy] at h ⊢ <;> omega

/-! ### Rounding -/

theorem roundMag_le (n d : Nat) : roundMag n d ≤ infMag := by unfold roundMag; exact Nat.min_le_left _ _

theorem roundMag_lt_pow (n d : Nat) : roundMag n d < 2 ^ 63 :=
  Nat.lt_of_le_of_lt (roundMag_le n d) (by unfold infMag; omega)

/-- Where the exact quotient stands between two neighbouring patterns, and which of them `roundMag` takes. -/
theorem roundMag_split (n : Nat) {d : Nat} (hd : 0 < d) :
    ∃ k u r, 0 < u ∧ r < u ∧ n = d * magUnits k + r ∧ d * magUnits (k + 1) = d * magUnits k + u ∧
      roundMag n d = min infMag (if 2 * r > u ∨ (2 * r = u ∧ k % 2 = 1) then k + 1 else k) := by
  have hu : 0 < d * 2 ^ (Nat.log2 (n / d) - 52) := Nat.mul_pos hd (Nat.two_pow_pos _)
  have hsig : n / (d * 2 ^ (Nat.log2 (n / d) - 52)) < 2 ^ 53 ∧
      (Nat.log2 (n / d) - 52 = 0 ∨ 2 ^ 52 ≤ n / (d * 2 ^ (Nat.log2 (n / d) - 52))) := by
    rw [← Nat.div_div_eq_div_mul]
    generalize n / d = q
    by_cases h0 : q = 0
    · subst h0; simp
    · have l1 : 2 ^ Nat.log2 q ≤ q := Nat.log2_self_le h0
      have l2 : q < 2 ^ (Nat.log2 q + 1) := Nat.lt_log2_self
      constructor
      · rw [Nat.div_lt_iff_lt_mul (Nat.two_pow_pos _), ← Nat.pow_add]
        exact Nat.lt_of_lt_of_le l2 (Nat.pow_le_pow_right (by omega) (by omega))
      · rcases Nat.lt_or_ge 52 (Nat.log2 q) with h | h
        · right
          rw [Nat.le_div_iff_mul_le (Nat.two_pow_pos _), ← Nat.pow_add]
          exact Nat.le_trans (Nat.pow_le_pow_right (by omega) (by omega)) l1
        · left; omega
  obtain ⟨hs1, hs2⟩ := hsig
  have hdm := Nat.div_add_mod n (d * 2 ^ (Nat.log2 (n / d) - 52))
  have hlt := Nat.mod_lt n hu
  unfold roundMag
  simp only
  generalize hgs : Nat.log2 (n / d) - 52 = s at *
  generalize hgg : n / (d * 2 ^ s) = g at *
  generalize hgr : n % (d * 2 ^ s) = r at *
  refine ⟨s * 2 ^ 52 + g, d * 2 ^ s, r, hu, hlt, ?_, ?_, ?_⟩
  · rw [magUnits_shift (by omega) hs2, ← hdm]; ring
  · rw [Nat.add_assoc, magUnits_shift (by omega) (by omega), magUnits_shift (by omega) hs2]; ring
  · have hpar : (s * 2 ^ 52 + g) % 2 = g % 2 := by omega
    rw [hpar]

/-- ROUND TO NEAREST, TIES TO EVEN (00_scope.md R15): no magnitude pattern up to infinity is nearer to the exact
quotient than the one `roundMag` gives, and one that is as near is odd. -/
theorem roundMag_nearest (n : Nat) {d : Nat} (hd : 0 < d) (j : Nat) (hj : j ≤ infMag) :
    |(n : Int) - d * magUnits (roundMag n d)| ≤ |(n : Int) - d * magUnits j| ∧
    (|(n : Int) - d * magUnits (roundMag n d)| = |(n : Int) - d * magUnits j| → j ≠ roundMag n d →
      roundMag n d % 2 = 0) := by
  obtain ⟨k, u, r, hu, hr, hn, hk, hround⟩ := roundMag_split n hd
  have hn' : (n : Int) = d * magUnits k + r := by exact_mod_cast hn
  have hk' : (d : Int) * magUnits (k + 1) = d * magUnits k + u := by exact_mod_cast hk
  have mono : ∀ a b : Nat, a ≤ b → (d : Int) * magUnits a ≤ d * magUnits b := by
    intro a b hab
    exact_mod_cast Nat.mul_le_mul_left d (magUnits_strictMono.monotone hab)
  have smono : ∀ a b : Nat, a < b → (d : Int) * magUnits a < d * magUnits b := by
    intro a b hab
    exact_mod_cast Nat.mul_lt_mul_of_pos_left (magUnits_strictMono hab) hd
  rcases Nat.lt_or_ge k infMag with hki | hki
  · -- the quotient is below the overflow threshold's upper neighbour
    have hle : (if 2 * r > u ∨ (2 * r = u ∧ k % 2 = 1) then k + 1 else k) ≤ infMag := by split <;> omega
    rw [Nat.min_eq_right hle] at hround
    rw [hround]
    split
    · next hc =>
      rw [hk', show (n : Int) - (d * magUnits k + u) = -((u : Int) - r) by rw [hn']; ring, abs_neg,
        abs_of_nonneg (by omega)]
      rcases Nat.lt_or_ge k j with hkj | hkj
      · have h1 := mono (k + 1) j hkj
        rw [abs_of_nonpos (by rw [hn']; omega)]
        constructor
        · rw [hn']; omega
        · intro he hne
          exfalso
          have h2 := smono (k + 1) j (by omega)
          rw [hn'] at he; omega
      · have h1 := mono j k hkj
        rw [abs_of_nonneg (by rw [hn']; omega)]
        constructor
        · rw [hn']; omega
        · intro he _
          rcases hc with hc | hc
          · rw [hn'] at he; omega
          · omega
    · next hc =>
      rw [show (n : Int) - d * magUnits k = r by rw [hn']; ring, abs_of_nonneg (by omega)]
      rcases Nat.lt_or_ge k j with hkj | hkj
      · have h1 := mono (k + 1) j hkj
        rw [abs_of_nonpos (by rw [hn']; omega)]
        constructor
        · rw [hn']; omega
        · intro he _
          rw [hn'] at he
          have : 2 * r = u := by omega
          omega
      · have h1 := mono j k hkj
        rw [abs_of_nonneg (by rw [hn']; omega)]
        constructor
        · rw [hn']; omega
        · intro he hne
          have h2 := smono j k (by omega)
          rw [hn'] at he; omega
  · -- at or above it: infinity
    have hge : infMag ≤ (if 2 * r > u ∨ (2 * r = u ∧ k % 2 = 1) then k + 1 else k) := by split <;> omega
    rw [Nat.min_eq_left hge] at hround
    rw [hround]
    have h1 := mono infMag k hki
    have h2 := mono j infMag hj
    rw [abs_of_nonneg (by rw [hn']; omega), abs_of_nonneg (by rw [hn']; omega)]
    exact ⟨by omega, fun _ _ => by unfold infMag; omega⟩

/-- A representable quotient is given exactly. -/
theorem roundMag_exact {d : Nat} (hd : 0 < d) {k : Nat} (hk : k ≤ infMag) : roundMag (d * magUnits k) d = k := by
  have h := (roundMag_nearest (d * magUnits k) hd k hk).1
  rw [show ((d * magUnits k : Nat) : Int) - d * magUnits k = 0 by push_cast; ring, abs_zero] at h
  have h2 : ((d * magUnits k : Nat) : Int) = d * magUnits (roundMag (d * magUnits k) d) := by
    have := abs_nonpos_iff.mp h
    omega
  have h3 : d * magUnits k = d * magUnits (roundMag (d * magUnits k) d) := by exact_mod_cast h2
  exact (magUnits_strictMono.injective (Nat.eq_of_mul_eq_mul_left hd h3)).symm

@[simp] theorem roundMag_zero {d : Nat} (hd : 0 < d) : roundMag 0 d = 0 := by
  have := roundMag_exact hd (k := 0) (Nat.zero_le _)
  simpa using this

/-- Rounding keeps order. -/
theorem roundMag_mono {n d n' d' : Nat} (hd : 0 < d) (hd' : 0 < d') (h : n * d' ≤ n' * d) :
    roundMag n d ≤ roundMag n' d' := by
  by_contra hlt
  rw [Nat.not_le] at hlt
  have hk := roundMag_le n d
  have hk' := roundMag_le n' d'
  generalize hgk : roundMag n d = k at *
  generalize hgk' : roundMag n' d' = k' at *
  obtain ⟨a1, a2⟩ := roundMag_nearest n hd k' hk'
  obtain ⟨b1, b2⟩ := roundMag_nearest n' hd' k hk
  rw [hgk] at a1 a2
  rw [hgk'] at b1 b2
  have hm : magUnits k' < magUnits k := magUnits_strictMono hlt
  have hm' : (magUnits k' : Int) < magUnits k := by exact_mod_cast hm
  have hdp : (0 : Int) < d := by exact_mod_cast hd
  have hdp' : (0 : Int) < d' := by exact_mod_cast hd'
  have hz : (n : Int) * d' ≤ n' * d := by exact_mod_cast h
  have pos1 : (d : Int) * magUnits k' < d * magUnits k := Int.mul_lt_mul_of_pos_left hm' hdp
  have pos2 : (d' : Int) * magUnits k' < d' * magUnits k := Int.mul_lt_mul_of_pos_left hm' hdp'
  -- 2n >= d (mk + mk'), 2n' <= d' (mk + mk')
  have g1 : (d : Int) * magUnits k + d * magUnits k' ≤ 2 * n := by
    rcases abs_cases ((n : Int) - d * magUnits k) with ⟨e1, _⟩ | ⟨e1, _⟩ <;>
    rcases abs_cases ((n : Int) - d * magUnits k') with ⟨e2, _⟩ | ⟨e2, _⟩ <;>
    rw [e1, e2] at a1 <;> omega
  have g2 : 2 * (n' : Int) ≤ d' * magUnits k + d' * magUnits k' := by
    rcases abs_cases ((n' : Int) - d' * magUnits k) with ⟨e1, _⟩ | ⟨e1, _⟩ <;>
    rcases abs_cases ((n' : Int) - d' * magUnits k') with ⟨e2, _⟩ | ⟨e2, _⟩ <;>
    rw [e1, e2] at b1 <;> omega
  have g1' : ((d : Int) * magUnits k + d * magUnits k') * d' ≤ 2 * n * d' := Int.mul_le_mul_of_nonneg_right g1 hdp'.le
  have g2' : 2 * (n' : Int) * d ≤ (d' * magUnits k + d' * magUnits k') * d := Int.mul_le_mul_of_nonneg_right g2 hdp.le
  have t1 : ((d : Int) * magUnits k + d * magUnits k') * d' = 2 * n * d' := by nlinarith
  have t1' : (d : Int) * magUnits k + d * magUnits k' = 2 * n := Int.eq_of_mul_eq_mul_right hdp'.ne' t1
  have t2 : 2 * (n' : Int) * d = (d' * magUnits k + d' * magUnits k') * d := by nlinarith
  have t2' : 2 * (n' : Int) = d' * magUnits k + d' * magUnits k' := Int.eq_of_mul_eq_mul_right hdp.ne' t2
  have p1 : k % 2 = 0 := by
    apply a2 _ (by omega)
    rw [abs_of_nonpos (by omega), abs_of_nonneg (by omega)]; omega
  have p2 : k' % 2 = 0 := by
    apply b2 _ (by omega)
    rw [abs_of_nonneg (by omega), abs_of_nonpos (by omega)]; omega
  -- a pattern strictly between would be nearer
  obtain ⟨c1, _⟩ := roundMag_nearest n hd (k' + 1) (by omega)
  rw [hgk] at c1
  have q1 : magUnits k' < magUnits (k' + 1) := magUnits_lt_succ k'
  have q2 : magUnits (k' + 1) < magUnits k := magUnits_strictMono (by omega)
  have q1' : (d : Int) * magUnits k' < d * magUnits (k' + 1) := by exact_mod_cast Nat.mul_lt_mul_of_pos_left q1 hd
  have q2' : (d : Int) * magUnits (k' + 1) < d * magUnits k := by exact_mod_cast Nat.mul_lt_mul_of_pos_left q2 hd
  rw [abs_of_nonpos (by omega)] at c1
  rcases abs_cases ((n : Int) - d * magUnits (k' + 1)) with ⟨e2, _⟩ | ⟨e2, _⟩ <;> rw [e2] at c1 <;> omega

theorem one_pos : 0 < one := by unfold one; positivity

/-! ### Where rounding gives infinity -/

/-- The greatest finite magnitude, and the step above it, in units of 2^-1074. -/
theorem magUnits_top : magUnits (infMag - 1) = (2 ^ 53 - 1) * 2 ^ 2045 ∧ magUnits infMag = 2 ^ 53 * 2 ^ 2045 :=
  ⟨(by rw [show infMag - 1 = 2045 * 2 ^ 52 + (2 ^ 53 - 1) by decide]; exact magUnits_shift (by omega) (.inr (by omega))),
   (by rw [show infMag = 2045 * 2 ^ 52 + 2 ^ 53 by decide]; exact magUnits_shift (by omega) (.inr (by omega)))⟩

/-- 2^1024 - 2^970 in units: half a step above the greatest finite value. -/
theorem threshold_eq : (2 ^ 1024 - 2 ^ 970) * one = (2 ^ 54 - 1) * 2 ^ 2044 := by
  unfold one
  rw [Nat.mul_comm, Nat.mul_sub, ← pow_add, ← pow_add, Nat.sub_mul, ← pow_add, Nat.one_mul]

/-- Rounding gives infinity exactly from half a step above the greatest finite value on: from 2^1024 - 2^970. -/
theorem roundMag_eq_infMag_iff (n : Nat) {d : Nat} (hd : 0 < d) :
    roundMag n d = infMag ↔ (2 ^ 1024 - 2 ^ 970) * one * d ≤ n := by
  obtain ⟨k, u, r, hu, hr, hn, hk, hround⟩ := roundMag_split n hd
  obtain ⟨h1, h2⟩ := magUnits_top
  rw [threshold_eq, hround, hn]
  have e1 : (2 : Nat) ^ 2045 = 2 * 2 ^ 2044 := by rw [← pow_succ']
  rw [e1] at h1 h2
  generalize hP : (2 : Nat) ^ 2044 = P at *
  have key : (2 ^ 54 - 1) * P * d = d * magUnits (infMag - 1) + d * P := by rw [h1]; ring
  have step : d * magUnits infMag = d * magUnits (infMag - 1) + 2 * (d * P) := by rw [h1, h2]; ring
  rw [key]
  rcases Nat.lt_trichotomy k (infMag - 1) with h | h | h
  · have : d * magUnits (k + 1) ≤ d * magUnits (infMag - 1) :=
      Nat.mul_le_mul_left _ (magUnits_strictMono.monotone (by omega))
    constructor
    · intro h'; exfalso; unfold infMag at *; split at h' <;> omega
    · intro h'; exfalso; omega
  · subst h
    rw [show infMag - 1 + 1 = infMag by decide] at hk hround ⊢
    have hu2 : u = 2 * (d * P) := by omega
    have hodd : (infMag - 1) % 2 = 1 := by decide
    constructor
    · intro h'
      split at h'
      · omega
      · unfold infMag at h'; omega
    · intro h'
      rw [if_pos]
      · exact Nat.min_self _
      · rcases Nat.lt_or_ge u (2 * r) with h3 | h3
        · exact .inl h3
        · exact .inr ⟨by omega, hodd⟩
  · have : d * magUnits infMag ≤ d * magUnits k := Nat.mul_le_mul_left _ (magUnits_strictMono.monotone (by unfold infMag at *; omega))
    constructor
    · intro _; omega
    · intro _; unfold infMag at *; split <;> omega

end Sys2Proof.Binary64
end

