-- ==== Sys2Proof/Laws/Binary64Ops.lean ====
section
/-! SUPPORT. What the binary64 operators answer on finite operands: the exact result where it is a binary64 value, and a
result between two values where the exact result is. -/

namespace Sys2Proof.Binary64

/-! ### Sign and zero -/

theorem neg_toNat (x : F64) : sign (neg x) = !sign x ∧ magBits (neg x) = magBits x := by
  constructor
  · unfold sign neg
    rw [BitVec.msb_xor, show (0x8000000000000000 : F64).msb = true by decide, Bool.xor_true]
  · unfold magBits neg
    congr 1
    apply BitVec.eq_of_getLsbD_eq
    intro i hi
    simp only [BitVec.getLsbD_extractLsb', BitVec.getLsbD_xor]
    have : (0x8000000000000000 : F64).getLsbD (0 + i) = false := by
      rw [show (0x8000000000000000 : F64) = BitVec.twoPow 64 63 by decide, BitVec.getLsbD_twoPow]
      simp; omega
    rw [this, Bool.xor_false]

@[simp] theorem units_neg (x : F64) : units (neg x) = -units x := by
  unfold units
  rw [(neg_toNat x).1, (neg_toNat x).2]
  cases sign x <;> simp

@[simp] theorem isFinite_neg (x : F64) : isFinite (neg x) = isFinite x := by
  unfold isFinite; rw [(neg_toNat x).2]

theorem isFinite_zero (n : Bool) : isFinite (zero n) = true := isFinite_pack n (by unfold infMag; omega)

theorem units_zero (n : Bool) : units (zero n) = 0 := by
  unfold zero; rw [units_pack n (by omega)]; cases n <;> simp

theorem sign_eq_true_of_neg {x : F64} (h : units x < 0) : sign x = true := by
  unfold units at h
  by_contra hs
  rw [if_neg hs] at h
  omega

theorem sign_eq_false_of_pos {x : F64} (h : 0 < units x) : sign x = false := by
  unfold units at h
  by_contra hs
  rw [Bool.not_eq_false] at hs
  rw [if_pos hs] at h
  omega

/-! ### Exact results -/

/-- A rounded quotient that is a binary64 value is that value. -/
theorem roundMag_of_exact {n d : Nat} (hd : 0 < d) {w : F64} (hw : isFinite w = true)
    (h : n = d * (units w).natAbs) : roundMag n d = magBits w := by
  rw [h, natAbs_units]
  exact roundMag_exact hd (Nat.le_of_lt ((isFinite_iff w).mp hw))

theorem add_eq {x y : F64} (hx : isFinite x = true) (hy : isFinite y = true) :
    add x y = if units x + units y = 0 then zero (sign x && sign y)
      else pack (decide (units x + units y < 0)) (roundMag (units x + units y).natAbs 1) := by
  simp [add, not_isNaN_of_isFinite hx, not_isNaN_of_isFinite hy, not_isInf_of_isFinite hx, not_isInf_of_isFinite hy]

theorem add_exact {x y w : F64} (hx : isFinite x = true) (hy : isFinite y = true) (hw : isFinite w = true)
    (h : units x + units y = units w) : isFinite (add x y) = true ∧ units (add x y) = units w := by
  rw [add_eq hx hy]
  split
  · next h0 => rw [isFinite_zero, units_zero]; exact ⟨rfl, by omega⟩
  · next h0 =>
    rw [h, roundMag_of_exact Nat.one_pos hw (by simp)]
    have e : pack (decide (units w < 0)) (magBits w) = w := by
      have hs : decide (units w < 0) = sign w := by
        rcases lt_trichotomy (units w) 0 with h1 | h1 | h1
        · rw [sign_eq_true_of_neg h1]; simpa using h1
        · omega
        · rw [sign_eq_false_of_pos h1]; simp; omega
      rw [hs]; exact pack_sign_magBits w
    rw [e]; exact ⟨hw, rfl⟩

theorem sub_exact {x y w : F64} (hx : isFinite x = true) (hy : isFinite y = true) (hw : isFinite w = true)
    (h : units x - units y = units w) : isFinite (sub x y) = true ∧ units (sub x y) = units w :=
  add_exact hx (by simpa using hy) hw (by rw [units_neg]; omega)

theorem mul_eq {x y : F64} (hx : isFinite x = true) (hy : isFinite y = true) :
    mul x y = pack (sign x != sign y) (roundMag ((units x).natAbs * (units y).natAbs) one) := by
  simp [mul, not_isNaN_of_isFinite hx, not_isNaN_of_isFinite hy, not_isInf_of_isFinite hx, not_isInf_of_isFinite hy]

theorem units_eq_sign_mul (x : F64) : units x = (if sign x then -1 else 1) * ((units x).natAbs : Int) := by
  rw [natAbs_units]; unfold units; split <;> simp

theorem mul_exact {x y w : F64} (hx : isFinite x = true) (hy : isFinite y = true) (hw : isFinite w = true)
    (h : units x * units y = units w * one) : isFinite (mul x y) = true ∧ units (mul x y) = units w := by
  have hn : (units x).natAbs * (units y).natAbs = one * (units w).natAbs := by
    rw [← Int.natAbs_mul, h, Int.natAbs_mul, Int.natAbs_natCast, Nat.mul_comm]
  rw [mul_eq hx hy, roundMag_of_exact one_pos hw hn]
  refine ⟨isFinite_pack _ ((isFinite_iff w).mp hw), ?_⟩
  rw [units_pack _ (magBits_lt w), ← natAbs_units]
  have ho : (0 : Int) < one := by exact_mod_cast one_pos
  apply Int.eq_of_mul_eq_mul_right ho.ne'
  rw [← h]
  have hnI : ((units x).natAbs : Int) * (units y).natAbs = one * (units w).natAbs := by exact_mod_cast hn
  rw [units_eq_sign_mul x, units_eq_sign_mul y]
  generalize (one : Nat) = o at *
  cases sign x <;> cases sign y <;> simp at hnI ⊢ <;> linarith

/-- A finite value times +0 or -0 is a zero. -/
theorem mul_zero_left {x y : F64} (hx : isZero x = true) (hy : isFinite y = true) :
    isFinite (mul x y) = true ∧ isZero (mul x y) = true := by
  have hx' : isFinite x = true := by rw [isFinite_iff]; rw [isZero_iff] at hx; rw [hx]; unfold infMag; omega
  have h := mul_exact hx' hy (isFinite_zero false)
    (by rw [units_zero, (units_eq_zero_iff x).mpr hx]; ring)
  exact ⟨h.1, (units_eq_zero_iff _).mp (by rw [h.2, units_zero])⟩

theorem mul_zero_right {x y : F64} (hx : isFinite x = true) (hy : isZero y = true) :
    isFinite (mul x y) = true ∧ isZero (mul x y) = true := by
  have hy' : isFinite y = true := by rw [isFinite_iff]; rw [isZero_iff] at hy; rw [hy]; unfold infMag; omega
  have h := mul_exact hx hy' (isFinite_zero false)
    (by rw [units_zero, (units_eq_zero_iff y).mpr hy]; ring)
  exact ⟨h.1, (units_eq_zero_iff _).mp (by rw [h.2, units_zero])⟩

theorem isFinite_of_isZero {x : F64} (h : isZero x = true) : isFinite x = true := by
  rw [isZero_iff] at h; rw [isFinite_iff, h]; unfold infMag; omega

theorem div_eq {x y : F64} (hx : isFinite x = true) (hy : isFinite y = true) (hz : isZero y = false) :
    div x y = pack (sign x != sign y) (roundMag ((units x).natAbs * one) (units y).natAbs) := by
  simp [div, not_isNaN_of_isFinite hx, not_isNaN_of_isFinite hy, not_isInf_of_isFinite hx, not_isInf_of_isFinite hy, hz]

theorem natAbs_units_pos {y : F64} (hz : isZero y = false) : 0 < (units y).natAbs := by
  rcases Nat.eq_zero_or_pos (units y).natAbs with h | h
  · rw [Int.natAbs_eq_zero, units_eq_zero_iff, hz] at h; cases h
  · exact h

theorem div_exact {x y w : F64} (hx : isFinite x = true) (hy : isFinite y = true) (hz : isZero y = false)
    (hw : isFinite w = true) (h : units x * one = units w * units y) :
    isFinite (div x y) = true ∧ units (div x y) = units w := by
  have hn : (units x).natAbs * one = (units y).natAbs * (units w).natAbs := by
    have := congrArg Int.natAbs h
    rw [Int.natAbs_mul, Int.natAbs_mul, Int.natAbs_natCast] at this
    rw [this, Nat.mul_comm]
  rw [div_eq hx hy hz, roundMag_of_exact (natAbs_units_pos hz) hw hn]
  refine ⟨isFinite_pack _ ((isFinite_iff w).mp hw), ?_⟩
  rw [units_pack _ (magBits_lt w), ← natAbs_units]
  have hy0 : units y ≠ 0 := by intro h0; rw [units_eq_zero_iff, hz] at h0; cases h0
  apply Int.eq_of_mul_eq_mul_right hy0
  rw [← h]
  have hnI : ((units x).natAbs : Int) * one = (units y).natAbs * (units w).natAbs := by exact_mod_cast hn
  have ex := units_eq_sign_mul x
  have ey := units_eq_sign_mul y
  rw [ex, ey]
  generalize (one : Nat) = o at *
  cases sign x <;> cases sign y <;> simp at hnI ⊢ <;> linarith

/-- A zero divided by a finite value that is not zero is a zero. -/
theorem div_zero_left {x y : F64} (hx : isZero x = true) (hy : isFinite y = true) (hz : isZero y = false) :
    isFinite (div x y) = true ∧ isZero (div x y) = true := by
  have h := div_exact (isFinite_of_isZero hx) hy hz (isFinite_zero false)
    (by rw [units_zero, (units_eq_zero_iff x).mpr hx]; ring)
  exact ⟨h.1, (units_eq_zero_iff _).mp (by rw [h.2, units_zero])⟩

/-! ### Results between two values -/

/-- A sum whose exact value lies between two binary64 values is rounded between them. -/
theorem add_between {x y lo hi : F64} (hx : isFinite x = true) (hy : isFinite y = true) (hlo : isFinite lo = true)
    (hhi : isFinite hi = true) (h1 : units lo ≤ units x + units y) (h2 : units x + units y ≤ units hi) :
    isFinite (add x y) = true ∧ units lo ≤ units (add x y) ∧ units (add x y) ≤ units hi := by
  have key : ∀ {z : Int} {w : F64}, isFinite w = true → z.natAbs ≤ (units w).natAbs →
      roundMag z.natAbs 1 ≤ magBits w := by
    intro z w hw h
    have := roundMag_mono (n := z.natAbs) (d := 1) (n' := 1 * (units w).natAbs) (d' := 1) (by omega) (by omega) (by omega)
    rwa [roundMag_of_exact (d := 1) (by omega) hw rfl] at this
  have key' : ∀ {z : Int} {w : F64}, isFinite w = true → (units w).natAbs ≤ z.natAbs →
      magBits w ≤ roundMag z.natAbs 1 := by
    intro z w hw h
    have := roundMag_mono (n := 1 * (units w).natAbs) (d := 1) (n' := z.natAbs) (d' := 1) (by omega) (by omega) (by omega)
    rwa [roundMag_of_exact (d := 1) (by omega) hw rfl] at this
  have fin : ∀ {w : F64}, isFinite w = true → ∀ {k}, k ≤ magBits w → k < infMag := by
    intro w hw k hk
    exact Nat.lt_of_le_of_lt hk ((isFinite_iff w).mp hw)
  rw [add_eq hx hy]
  generalize units x + units y = z at *
  split
  · next h0 => rw [isFinite_zero, units_zero]; exact ⟨rfl, by omega, by omega⟩
  · next h0 =>
    have hk := roundMag_lt_pow z.natAbs 1
    rcases lt_or_gt_of_ne h0 with hneg | hpos
    · have hl := key (z := z) hlo (by omega)
      refine ⟨isFinite_pack _ (fin hlo hl), ?_⟩
      rw [units_pack _ hk, decide_eq_true hneg, if_pos rfl]
      have hlm : magUnits (roundMag z.natAbs 1) ≤ magUnits (magBits lo) := magUnits_strictMono.monotone hl
      rw [← natAbs_units] at hlm
      refine ⟨by omega, ?_⟩
      rcases le_or_gt 0 (units hi) with hh | hh
      · omega
      · have hh' := key' (z := z) hhi (by omega)
        have hhm : magUnits (magBits hi) ≤ magUnits (roundMag z.natAbs 1) := magUnits_strictMono.monotone hh'
        rw [← natAbs_units] at hhm
        omega
    · have hh := key (z := z) hhi (by omega)
      refine ⟨isFinite_pack _ (fin hhi hh), ?_⟩
      rw [units_pack _ hk, decide_eq_false (by omega), if_neg (by decide)]
      have hhm : magUnits (roundMag z.natAbs 1) ≤ magUnits (magBits hi) := magUnits_strictMono.monotone hh
      rw [← natAbs_units] at hhm
      refine ⟨?_, by omega⟩
      rcases le_or_gt (units lo) 0 with hl | hl
      · omega
      · have hl' := key' (z := z) hlo (by omega)
        have hlm : magUnits (magBits lo) ≤ magUnits (roundMag z.natAbs 1) := magUnits_strictMono.monotone hl'
        rw [← natAbs_units] at hlm
        omega

/-! ### Constants -/

theorem isFinite_f1 : isFinite f1 = true := by decide +kernel
theorem units_f1 : units f1 = one := by decide +kernel
theorem isFinite_f180 : isFinite f180 = true := by decide +kernel

/-- One more value: x times 1.0 has the value of x. -/
theorem mul_f1 {x : F64} (hx : isFinite x = true) : isFinite (mul x f1) = true ∧ units (mul x f1) = units x :=
  mul_exact hx isFinite_f1 hx (by rw [units_f1])

/-- A product is no larger in magnitude than a finite value that the exact product does not exceed. -/
theorem mul_le {x y w : F64} (hx : isFinite x = true) (hy : isFinite y = true) (hw : isFinite w = true)
    (h : (units x).natAbs * (units y).natAbs ≤ one * (units w).natAbs) :
    isFinite (mul x y) = true ∧ (units (mul x y)).natAbs ≤ (units w).natAbs := by
  have hr : roundMag ((units x).natAbs * (units y).natAbs) one ≤ magBits w := by
    rw [← roundMag_of_exact one_pos hw rfl]
    exact roundMag_mono one_pos one_pos (Nat.mul_le_mul_right one h)
  have hlt : roundMag ((units x).natAbs * (units y).natAbs) one < infMag :=
    Nat.lt_of_le_of_lt hr ((isFinite_iff w).mp hw)
  rw [mul_eq hx hy]
  refine ⟨isFinite_pack _ hlt, ?_⟩
  rw [natAbs_units (pack _ _), natAbs_units w, magBits_pack _ (roundMag_lt_pow _ _)]
  exact magUnits_strictMono.monotone hr

/-! ### The integer square root -/

theorem isqrtFrom_spec (n b r : Nat) (h1 : r * r ≤ n) (h2 : n < (r + 2 ^ b) * (r + 2 ^ b)) :
    isqrtFrom n b r * isqrtFrom n b r ≤ n ∧ n < (isqrtFrom n b r + 1) * (isqrtFrom n b r + 1) := by
  induction b generalizing r with
  | zero => exact ⟨h1, h2⟩
  | succ b ih =>
    unfold isqrtFrom
    split
    · next h => exact ih _ h (by rw [show r + 2 ^ b + 2 ^ b = r + 2 ^ (b + 1) by rw [pow_succ]; ring]; exact h2)
    · next h => exact ih _ h1 (by omega)

theorem isqrt_spec {n : Nat} (h : n < 2 ^ 128) : isqrt n * isqrt n ≤ n ∧ n < (isqrt n + 1) * (isqrt n + 1) :=
  isqrtFrom_spec n 64 0 (by simp) (by simpa using h)

end Sys2Proof.Binary64
end

