-- ==== Sys2Proof/Laws/Constellation.lean ====
section
/-! SUPPORT. The constellation's operations: the points of a ROM, the inverse by value, the nearest point. -/

namespace Sys2Proof

open Binary64

theorem rom_point (c : Config) (p : Fin 16) : c.rom.point p = constRef (c.constPerm p) := by
  unfold Rom.point Config.rom
  simp [Config.constOrder]

theorem isFinite_level (a : Fin 4) : Binary64.isFinite (level a) = true := by revert a; decide +kernel

/-- The levels are -3, -1, 1, 3 (00_scope.md R6). -/
theorem units_level (a : Fin 4) : units (level a) = (2 * (a.val : Int) - 3) * (one : Int) := by
  revert a; decide +kernel

theorem units_level_ne_zero (a : Fin 4) : units (level a) ≠ 0 := by revert a; decide +kernel

theorem eq_level_of_units {a : Fin 4} {x : F64} (h : units x = units (level a)) : x = level a :=
   eq_of_units_eq h (h ▸ units_level_ne_zero a)

theorem constRef_injective : Function.Injective constRef := by decide +kernel

theorem sameValue_iff (a b : Point) : a.sameValue b = true ↔ units a.i = units b.i ∧ units a.q = units b.q := by
  simp [Point.sameValue]

/-- What `inverse` finds has the value it looks for. -/
theorem inverse_sound {r : Rom} {x : Point} {p : Fin 16} (h : r.inverse x = some p) :
    units (r.point p).i = units x.i ∧ units (r.point p).q = units x.q :=
  (sameValue_iff _ _).mp (List.find?_some (p := fun p => (r.point p).sameValue x) h)

theorem inverse_eq_none_iff (r : Rom) (x : Point) :
    r.inverse x = none ↔ ∀ p, ¬(units (r.point p).i = units x.i ∧ units (r.point p).q = units x.q) := by
  unfold Rom.inverse
  rw [List.find?_eq_none]
  simp only [List.mem_finRange, forall_const, sameValue_iff]

theorem isNearest_iff (r : Rom) (x : Point) (p : Fin 16) :
    r.isNearest x p = true ↔ ∀ p', distSq x (r.point p) ≤ distSq x (r.point p') := by
  simp [Rom.isNearest]

/-- `nearest` is at minimal distance, so its default is never used (41_slicer.md R86). -/
theorem nearest_isNearest (r : Rom) (x : Point) : r.isNearest x (r.nearest x) = true := by
  obtain ⟨q, _, hq⟩ := Finset.exists_min_image Finset.univ (fun p => distSq x (r.point p)) ⟨0, Finset.mem_univ _⟩
  have hq' : r.isNearest x q = true := (isNearest_iff r x q).mpr fun p' => hq p' (Finset.mem_univ _)
  unfold Rom.nearest
  cases h : (List.finRange 16).find? (r.isNearest x) with
  | none => exact absurd hq' (List.find?_eq_none.mp h q (List.mem_finRange q))
  | some p => exact List.find?_some h

end Sys2Proof
end

