-- ==== Sys2Proof/Laws/State.lean ====
section
/-! SUPPORT. One lemma per field per update of the state, each true by unfolding the update once, so that no later proof
unfolds a record update. -/

namespace Sys2Proof.Machine

section Report
variable (s : State) (op code : Byte) (pos : Word)

@[simp] theorem report_status : (s.report op code pos).status = statusWord op code := rfl
@[simp] theorem report_errpos : (s.report op code pos).errpos = pos := rfl
@[simp] theorem report_flen : (s.report op code pos).flen = s.flen := rfl
@[simp] theorem report_snrDb : (s.report op code pos).snrDb = s.snrDb := rfl
@[simp] theorem report_pnParam : (s.report op code pos).pnParam = s.pnParam := rfl
@[simp] theorem report_rotDeg : (s.report op code pos).rotDeg = s.rotDeg := rfl
@[simp] theorem report_seed : (s.report op code pos).seed = s.seed := rfl
@[simp] theorem report_caps : (s.report op code pos).caps = s.caps := rfl
@[simp] theorem report_cmap : (s.report op code pos).cmap = s.cmap := rfl
@[simp] theorem report_mem : (s.report op code pos).mem = s.mem := rfl
@[simp] theorem report_rng : (s.report op code pos).rng = s.rng := rfl
@[simp] theorem report_faultRecord : (s.report op code pos).faultRecord = s.faultRecord := rfl
@[simp] theorem report_port : (s.report op code pos).port = s.port := rfl
@[simp] theorem report_returned : (s.report op code pos).returned = s.returned := rfl
@[simp] theorem report_maxFrame : (s.report op code pos).maxFrame = s.maxFrame := rfl
@[simp] theorem report_idxEntry (k : Nat) : (s.report op code pos).idxEntry k = s.idxEntry k := rfl
@[simp] theorem report_symEntry (k : Nat) : (s.report op code pos).symEntry k = s.symEntry k := rfl

theorem raise_eq_report (e : BlockError) : s.raise op e pos = s.report op e.code pos := rfl

end Report

section Reset
variable (s : State)

@[simp] theorem resetEvent_status : s.resetEvent.status = 0 := rfl
@[simp] theorem resetEvent_errpos : s.resetEvent.errpos = nopos := rfl
@[simp] theorem resetEvent_flen : s.resetEvent.flen = 0 := rfl
@[simp] theorem resetEvent_snrDb : s.resetEvent.snrDb = 0 := rfl
@[simp] theorem resetEvent_pnParam : s.resetEvent.pnParam = 0 := rfl
@[simp] theorem resetEvent_rotDeg : s.resetEvent.rotDeg = 0 := rfl
@[simp] theorem resetEvent_seed : s.resetEvent.seed = 0 := rfl
@[simp] theorem resetEvent_caps : s.resetEvent.caps = s.caps := rfl
@[simp] theorem resetEvent_cmap : s.resetEvent.cmap = s.cmap := rfl
@[simp] theorem resetEvent_mem : s.resetEvent.mem = [] := rfl
@[simp] theorem resetEvent_rng : s.resetEvent.rng = State.reset.rng := rfl
@[simp] theorem resetEvent_faultRecord : s.resetEvent.faultRecord = s.faultRecord := rfl
@[simp] theorem resetEvent_port : s.resetEvent.port = s.port := rfl
@[simp] theorem resetEvent_returned : s.resetEvent.returned = s.returned := rfl

end Reset

section Record
variable (s : State) (f : Fault)

@[simp] theorem recordFault_faultRecord : (s.recordFault f).faultRecord = s.faultRecord ++ [f] := rfl
@[simp] theorem recordFault_port : (s.recordFault f).port = s.port := rfl
@[simp] theorem recordFault_returned : (s.recordFault f).returned = s.returned := rfl
@[simp] theorem recordFault_mem : (s.recordFault f).mem = s.mem := rfl
@[simp] theorem recordFault_rng : (s.recordFault f).rng = s.rng := rfl
@[simp] theorem recordFault_status : (s.recordFault f).status = s.status := rfl
@[simp] theorem recordFault_errpos : (s.recordFault f).errpos = s.errpos := rfl

end Record

/-- What the host asks of `withFetchWord`: the next step performs a write of the word to CMD. -/
theorem withFetchWord_port (s : State) (nbits w : Nat) :
    (s.withFetchWord nbits w).port = .write 8 0x00000 (BitVec.ofNat 64 (w % 2 ^ nbits)) :: s.port := rfl

/-- Which fields STATUS shows after the bookkeeping: ERR is the code, LASTOP the opcode (10_state.md R31). -/
theorem errField_statusWord (op code : Byte) : (statusWord op code).extractLsb' 0 8 = code := by
  ext i hi
  simp only [statusWord, BitVec.getElem_extractLsb', BitVec.getLsbD_setWidth, BitVec.getLsbD_append]
  have h : decide (0 + i < 64) = true := by simp; omega
  rw [h, Bool.true_and, if_pos (by omega), Nat.zero_add, BitVec.getLsbD_eq_getElem]

theorem lastOpField_statusWord (op code : Byte) : (statusWord op code).extractLsb' 8 8 = op := by
  ext i hi
  simp only [statusWord, BitVec.getElem_extractLsb', BitVec.getLsbD_setWidth, BitVec.getLsbD_append]
  have h : decide (8 + i < 64) = true := by simp; omega
  rw [h, Bool.true_and, if_neg (by omega), Nat.add_sub_cancel_left, BitVec.getLsbD_eq_getElem]

@[simp] theorem report_errField (s : State) (op code : Byte) (pos : Word) : (s.report op code pos).errField = code :=
  errField_statusWord op code

@[simp] theorem report_lastOpField (s : State) (op code : Byte) (pos : Word) :
    (s.report op code pos).lastOpField = op :=
  lastOpField_statusWord op code

/-- STATUS bits 63:16 are 0 after the bookkeeping. -/
theorem statusWord_lt (op code : Byte) : (statusWord op code).toNat < 2 ^ 16 := by
  unfold statusWord
  rw [BitVec.toNat_setWidth]
  exact lt_of_le_of_lt (Nat.mod_le _ _) (op ++ code).isLt

end Sys2Proof.Machine
end

