-- ==== Sys2Proof/Laws/Memory.lean ====
section
/-! SUPPORT. The memory of the frame buffers: what a read finds after a write, and the canonical form. -/

namespace Sys2Proof.Machine

/-! ### One byte -/

theorem readByte_writeByte_same (m : Memory) (a : Nat) (b : Byte) : (m.writeByte a b).readByte a = some b := by
  induction m with
  | nil => simp [Memory.writeByte, Memory.readByte]
  | cons c m ih =>
    obtain ⟨x, c⟩ := c
    unfold Memory.writeByte
    split
    · simp [Memory.readByte]
    · split
      · simp [Memory.readByte]
      · rename_i h1 h2
        simp [Memory.readByte, Ne.symm h2, ih]

theorem readByte_writeByte_other (m : Memory) {a a' : Nat} (b : Byte) (h : a' ≠ a) :
    (m.writeByte a b).readByte a' = m.readByte a' := by
  induction m with
  | nil => simp [Memory.writeByte, Memory.readByte, Ne.symm h]
  | cons c m ih =>
    obtain ⟨x, c⟩ := c
    unfold Memory.writeByte
    split
    · simp [Memory.readByte, Ne.symm h]
    · split
      · rename_i h1 h2
        subst h2
        simp [Memory.readByte, Ne.symm h]
      · simp only [Memory.readByte]
        split <;> simp_all

theorem readByte_writeByte (m : Memory) (a a' : Nat) (b : Byte) :
    (m.writeByte a b).readByte a' = if a' = a then some b else m.readByte a' := by
  split
  · next h => subst h; exact readByte_writeByte_same m _ b
  · next h => exact readByte_writeByte_other m b h

/-! ### Runs of bytes -/

theorem readByte_writeBytes (m : Memory) (a a' : Nat) (bs : List Byte) :
    (m.writeBytes a bs).readByte a' =
      if a ≤ a' then (match bs[a' - a]? with | some b => some b | none => m.readByte a') else m.readByte a' := by
  induction bs generalizing m a with
  | nil => simp [Memory.writeBytes]
  | cons b bs ih =>
    rw [Memory.writeBytes, ih, readByte_writeByte]
    rcases Nat.lt_trichotomy a' a with h | h | h
    · rw [if_neg (by omega), if_neg (by omega), if_neg (by omega)]
    · subst h
      simp
    · rw [if_neg (show ¬a' = a by omega), if_pos (by omega), if_pos (by omega)]
      obtain ⟨d, rfl⟩ : ∃ d, a' = a + 1 + d := ⟨a' - a - 1, by omega⟩
      rw [show a + 1 + d - (a + 1) = d by omega, show a + 1 + d - a = d + 1 by omega, List.getElem?_cons_succ]

/-! ### 64-bit values -/

theorem bytesOfWord_getElem? (w : Word) (j : Nat) : (bytesOfWord w)[j]? = if j < 8 then some (byteOfWord w j) else none := by
  unfold bytesOfWord
  rw [List.getElem?_map]
  split
  · next h => rw [List.getElem?_range h]; rfl
  · next h => rw [List.getElem?_eq_none (by simpa using h)]; rfl

/-- What one byte reads as after a 64-bit write (20_memory.md R54): the byte at offset a + i is bits 8i+7:8i. -/
theorem readByte_writeWord (m : Memory) (a a' : Nat) (w : Word) :
    (m.writeWord a w).readByte a' = if a ≤ a' ∧ a' < a + 8 then some (byteOfWord w (a' - a)) else m.readByte a' := by
  rw [Memory.writeWord, readByte_writeBytes, bytesOfWord_getElem?]
  by_cases h1 : a ≤ a'
  · by_cases h2 : a' < a + 8
    · rw [if_pos h1, if_pos (by omega), if_pos ⟨h1, h2⟩]
    · rw [if_pos h1, if_neg (by omega), if_neg (by omega)]
  · rw [if_neg h1, if_neg (by omega)]

theorem wordOfBytes_byteOfWord (w : Word) :
    wordOfBytes (byteOfWord w 0) (byteOfWord w 1) (byteOfWord w 2) (byteOfWord w 3)
      (byteOfWord w 4) (byteOfWord w 5) (byteOfWord w 6) (byteOfWord w 7) = w := by
  apply BitVec.eq_of_getLsbD_eq
  intro i hi
  unfold wordOfBytes byteOfWord
  rw [BitVec.getLsbD_append, BitVec.getLsbD_append, BitVec.getLsbD_append, BitVec.getLsbD_append,
    BitVec.getLsbD_append, BitVec.getLsbD_append, BitVec.getLsbD_append]
  simp only [BitVec.getLsbD_extractLsb']
  repeat' split
  all_goals
    rw [show ∀ (b : Bool) (p : Prop) [Decidable p], p → (decide p && b) = b from fun b p _ hp => by simp [hp]]
    · congr 1; omega
    · omega

/-- A 64-bit read depends on its eight bytes only. -/
theorem readWord_congr {m m' : Memory} {a : Nat} (h : ∀ j < 8, m.readByte (a + j) = m'.readByte (a + j)) :
    m.readWord a = m'.readWord a := by
  have h0 : m.readByte a = m'.readByte a := h 0 (by omega)
  have h1 := h 1 (by omega)
  have h2 := h 2 (by omega)
  have h3 := h 3 (by omega)
  have h4 := h 4 (by omega)
  have h5 := h 5 (by omega)
  have h6 := h 6 (by omega)
  have h7 := h 7 (by omega)
  simp only [Memory.readWord, h0, h1, h2, h3, h4, h5, h6, h7]

theorem readWord_writeWord_same (m : Memory) (a : Nat) (w : Word) : (m.writeWord a w).readWord a = some w := by
  have h : ∀ j < 8, (m.writeWord a w).readByte (a + j) = some (byteOfWord w j) := by
    intro j hj
    rw [readByte_writeWord, if_pos (by omega), Nat.add_sub_cancel_left]
  have h0 : (m.writeWord a w).readByte a = some (byteOfWord w 0) := h 0 (by omega)
  simp only [Memory.readWord, h0, h 1 (by omega), h 2 (by omega), h 3 (by omega), h 4 (by omega), h 5 (by omega),
    h 6 (by omega), h 7 (by omega)]
  rw [wordOfBytes_byteOfWord]

theorem low_byte (n : Nat) (hi : BitVec n) (b : Byte) : (hi ++ b).extractLsb' 0 8 = b := by
  apply BitVec.eq_of_getLsbD_eq
  intro i h
  simp [BitVec.getLsbD_append, h]

theorem next_byte (n : Nat) (hi : BitVec n) (b : Byte) (j : Nat) :
    (hi ++ b).extractLsb' (8 * (j + 1)) 8 = hi.extractLsb' (8 * j) 8 := by
  apply BitVec.eq_of_getLsbD_eq
  intro i h
  simp only [BitVec.getLsbD_extractLsb', BitVec.getLsbD_append]
  rw [if_neg (by omega)]
  congr 2; omega

/-- Byte `j` of a word put together from eight bytes is the byte at offset `j` (20_memory.md R54). -/
theorem byteOfWord_wordOfBytes (b0 b1 b2 b3 b4 b5 b6 b7 : Byte) :
    byteOfWord (wordOfBytes b0 b1 b2 b3 b4 b5 b6 b7) 0 = b0 ∧ byteOfWord (wordOfBytes b0 b1 b2 b3 b4 b5 b6 b7) 1 = b1 ∧
    byteOfWord (wordOfBytes b0 b1 b2 b3 b4 b5 b6 b7) 2 = b2 ∧ byteOfWord (wordOfBytes b0 b1 b2 b3 b4 b5 b6 b7) 3 = b3 ∧
    byteOfWord (wordOfBytes b0 b1 b2 b3 b4 b5 b6 b7) 4 = b4 ∧ byteOfWord (wordOfBytes b0 b1 b2 b3 b4 b5 b6 b7) 5 = b5 ∧
    byteOfWord (wordOfBytes b0 b1 b2 b3 b4 b5 b6 b7) 6 = b6 ∧
    byteOfWord (wordOfBytes b0 b1 b2 b3 b4 b5 b6 b7) 7 = b7 := by
  unfold byteOfWord wordOfBytes
  refine ⟨low_byte 56 _ _, ?_, ?_, ?_, ?_, ?_, ?_, ?_⟩
  · rw [next_byte 56 _ _ 0]; exact low_byte 48 _ _
  · rw [next_byte 56 _ _ 1, next_byte 48 _ _ 0]; exact low_byte 40 _ _
  · rw [next_byte 56 _ _ 2, next_byte 48 _ _ 1, next_byte 40 _ _ 0]; exact low_byte 32 _ _
  · rw [next_byte 56 _ _ 3, next_byte 48 _ _ 2, next_byte 40 _ _ 1, next_byte 32 _ _ 0]; exact low_byte 24 _ _
  · rw [next_byte 56 _ _ 4, next_byte 48 _ _ 3, next_byte 40 _ _ 2, next_byte 32 _ _ 1, next_byte 24 _ _ 0]
    exact low_byte 16 _ _
  · rw [next_byte 56 _ _ 5, next_byte 48 _ _ 4, next_byte 40 _ _ 3, next_byte 32 _ _ 2, next_byte 24 _ _ 1,
      next_byte 16 _ _ 0]
    exact low_byte 8 _ _
  · rw [next_byte 56 _ _ 6, next_byte 48 _ _ 5, next_byte 40 _ _ 4, next_byte 32 _ _ 3, next_byte 24 _ _ 2,
      next_byte 16 _ _ 1, next_byte 8 _ _ 0]
    exact BitVec.extractLsb'_eq_self

/-- A 64-bit value that is there fixes its eight bytes. -/
theorem readByte_of_readWord {m : Memory} {a : Nat} {w : Word} (h : m.readWord a = some w) :
    ∀ j < 8, m.readByte (a + j) = some (byteOfWord w j) := by
  intro j hj
  unfold Memory.readWord at h
  split at h
  · next b0 b1 b2 b3 b4 b5 b6 b7 e0 e1 e2 e3 e4 e5 e6 e7 =>
    cases h
    obtain ⟨h0, h1, h2, h3, h4, h5, h6, h7⟩ := byteOfWord_wordOfBytes b0 b1 b2 b3 b4 b5 b6 b7
    obtain rfl | rfl | rfl | rfl | rfl | rfl | rfl | rfl :
        j = 0 ∨ j = 1 ∨ j = 2 ∨ j = 3 ∨ j = 4 ∨ j = 5 ∨ j = 6 ∨ j = 7 := by omega
    · rw [h0]; exact e0
    · rw [h1]; exact e1
    · rw [h2]; exact e2
    · rw [h3]; exact e3
    · rw [h4]; exact e4
    · rw [h5]; exact e5
    · rw [h6]; exact e6
    · rw [h7]; exact e7
  · cases h

theorem readWord_writeWord_other (m : Memory) {a b : Nat} (w : Word) (h : b + 8 ≤ a ∨ a + 8 ≤ b) :
    (m.writeWord a w).readWord b = m.readWord b := by
  apply readWord_congr
  intro j hj
  rw [readByte_writeWord, if_neg (by omega)]

/-- A 64-bit value is there exactly when its eight bytes are (10_state.md R38). -/
theorem readWord_isSome (m : Memory) (a : Nat) : (m.readWord a).isSome ↔ ∀ j < 8, m.readByte (a + j) ≠ none := by
  constructor
  · intro h j hj hn
    have : m.readWord a = none := by
      unfold Memory.readWord
      rcases j with _ | _ | _ | _ | _ | _ | _ | _ | j
      all_goals first | omega | (simp only [Nat.add_zero, Nat.zero_add] at hn; simp [hn])
    rw [this] at h
    exact absurd h (by simp)
  · intro h
    obtain ⟨b0, h0⟩ := Option.ne_none_iff_exists'.mp (show m.readByte a ≠ none from h 0 (by omega))
    obtain ⟨b1, h1⟩ := Option.ne_none_iff_exists'.mp (h 1 (by omega))
    obtain ⟨b2, h2⟩ := Option.ne_none_iff_exists'.mp (h 2 (by omega))
    obtain ⟨b3, h3⟩ := Option.ne_none_iff_exists'.mp (h 3 (by omega))
    obtain ⟨b4, h4⟩ := Option.ne_none_iff_exists'.mp (h 4 (by omega))
    obtain ⟨b5, h5⟩ := Option.ne_none_iff_exists'.mp (h 5 (by omega))
    obtain ⟨b6, h6⟩ := Option.ne_none_iff_exists'.mp (h 6 (by omega))
    obtain ⟨b7, h7⟩ := Option.ne_none_iff_exists'.mp (h 7 (by omega))
    simp [Memory.readWord, h0, h1, h2, h3, h4, h5, h6, h7]

/-! ### Entries and frames -/

theorem readByte_writeSym (m : Memory) (k a : Nat) (p : Point)
    (h : a < symIOffset k ∨ symIOffset k + 16 ≤ a) : (m.writeSym k p).readByte a = m.readByte a := by
  unfold symIOffset at h
  rw [Memory.writeSym, readByte_writeWord, if_neg (by unfold symQOffset; omega), readByte_writeWord,
    if_neg (by unfold symIOffset; omega)]

/-- A frame written to SYM changes no byte outside its entries. -/
theorem readByte_writeSymFrame (m : Memory) (k a : Nat) (ps : List Point)
    (h : a < symIOffset k ∨ symIOffset (k + ps.length) ≤ a) : (m.writeSymFrame k ps).readByte a = m.readByte a := by
  induction ps generalizing m k with
  | nil => rfl
  | cons p ps ih =>
    unfold symIOffset at h
    rw [List.length_cons] at h
    rw [Memory.writeSymFrame, ih _ _ (by unfold symIOffset; omega), readByte_writeSym]
    unfold symIOffset; omega

/-- A frame written to IDX changes no byte outside its entries. -/
theorem readByte_writeIdxFrame (m : Memory) (k a : Nat) (ps : List (Fin 16))
    (h : a < idxOffset k ∨ idxOffset (k + ps.length) ≤ a) : (m.writeIdxFrame k ps).readByte a = m.readByte a := by
  induction ps generalizing m k with
  | nil => rfl
  | cons p ps ih =>
    unfold idxOffset at h
    rw [List.length_cons] at h
    rw [Memory.writeIdxFrame, ih _ _ (by unfold idxOffset; omega), Memory.writeIdx, readByte_writeWord, if_neg]
    unfold idxOffset; omega

/-- Entry `j` of SYM in a memory. -/
def Memory.symAt (m : Memory) (j : Nat) : Option Point :=
  match m.readWord (symIOffset j), m.readWord (symQOffset j) with
  | some i, some q => some { i := i, q := q }
  | _, _ => none

theorem symEntry_eq (s : State) (k : Nat) : s.symEntry k = s.mem.symAt k := rfl

theorem symAt_congr {m m' : Memory} {k : Nat}
    (h : ∀ a, symIOffset k ≤ a → a < symIOffset k + 16 → m.readByte a = m'.readByte a) : m.symAt k = m'.symAt k := by
  unfold symIOffset at h
  have hi : m.readWord (symIOffset k) = m'.readWord (symIOffset k) :=
    readWord_congr fun j hj => h _ (by unfold symIOffset; omega) (by unfold symIOffset; omega)
  have hq : m.readWord (symQOffset k) = m'.readWord (symQOffset k) :=
    readWord_congr fun j hj => h _ (by unfold symQOffset; omega) (by unfold symQOffset; omega)
  simp only [Memory.symAt, hi, hq]

theorem symAt_writeSym_same (m : Memory) (k : Nat) (p : Point) : (m.writeSym k p).symAt k = some p := by
  unfold Memory.symAt Memory.writeSym
  rw [readWord_writeWord_same, readWord_writeWord_other _ _ (by unfold symIOffset symQOffset; omega),
    readWord_writeWord_same]

/-- What SYM[j] holds after a frame is written to SYM[k], SYM[k+1], …. -/
theorem symAt_writeSymFrame (m : Memory) (k j : Nat) (ps : List Point) :
    (m.writeSymFrame k ps).symAt j =
      if k ≤ j then (match ps[j - k]? with | some p => some p | none => m.symAt j) else m.symAt j := by
  induction ps generalizing m k with
  | nil => simp [Memory.writeSymFrame]
  | cons p ps ih =>
    rw [Memory.writeSymFrame, ih]
    have other : j ≠ k → (m.writeSym k p).symAt j = m.symAt j := fun hjk =>
      symAt_congr fun a h1 h2 => readByte_writeSym m k a p (by unfold symIOffset at *; omega)
    rcases Nat.lt_trichotomy j k with h | h | h
    · rw [if_neg (by omega), if_neg (by omega), other (by omega)]
    · subst h
      rw [if_neg (by omega), if_pos (by omega), symAt_writeSym_same]
      simp
    · rw [if_pos (by omega), if_pos (by omega), other (by omega)]
      obtain ⟨d, rfl⟩ : ∃ d, j = k + 1 + d := ⟨j - k - 1, by omega⟩
      rw [show k + 1 + d - (k + 1) = d by omega, show k + 1 + d - k = d + 1 by omega, List.getElem?_cons_succ]

/-- What IDX[j] holds after a frame of positions is written to IDX[k], IDX[k+1], …. -/
theorem idxAt_writeIdxFrame (m : Memory) (k j : Nat) (ps : List (Fin 16)) :
    (m.writeIdxFrame k ps).readWord (idxOffset j) =
      if k ≤ j then (match ps[j - k]? with | some p => some (BitVec.ofNat 64 p.val) | none => m.readWord (idxOffset j))
      else m.readWord (idxOffset j) := by
  induction ps generalizing m k with
  | nil => simp [Memory.writeIdxFrame]
  | cons p ps ih =>
    rw [Memory.writeIdxFrame, ih]
    have other : j ≠ k → (m.writeIdx k p).readWord (idxOffset j) = m.readWord (idxOffset j) := fun hjk =>
      readWord_writeWord_other m _ (by unfold idxOffset; omega)
    rcases Nat.lt_trichotomy j k with h | h | h
    · rw [if_neg (by omega), if_neg (by omega), other (by omega)]
    · subst h
      rw [if_neg (by omega), if_pos (by omega), Memory.writeIdx, readWord_writeWord_same]
      simp
    · rw [if_pos (by omega), if_pos (by omega), other (by omega)]
      obtain ⟨d, rfl⟩ : ∃ d, j = k + 1 + d := ⟨j - k - 1, by omega⟩
      rw [show k + 1 + d - (k + 1) = d by omega, show k + 1 + d - k = d + 1 by omega, List.getElem?_cons_succ]

/-! ### The canonical form -/

theorem wf_cons_iff (x : Nat) (c : Byte) (m : Memory) :
    Memory.wf ((x, c) :: m) = true ↔ (∀ e ∈ m.head?, x < e.1) ∧ Memory.wf m = true := by
  cases m with
  | nil => simp [Memory.wf]
  | cons d m => obtain ⟨y, d⟩ := d; simp [Memory.wf]

theorem head?_writeByte (m : Memory) (a : Nat) (b : Byte) :
    ∀ e ∈ (m.writeByte a b).head?, e.1 = a ∨ ∃ d ∈ m.head?, e.1 = d.1 := by
  cases m with
  | nil => simp [Memory.writeByte]
  | cons d m =>
    obtain ⟨y, d⟩ := d
    unfold Memory.writeByte
    split
    · simp
    · split <;> simp

theorem writeByte_wf {m : Memory} (h : Memory.wf m = true) (a : Nat) (b : Byte) : Memory.wf (m.writeByte a b) = true := by
  induction m with
  | nil => rfl
  | cons d m ih =>
    obtain ⟨x, d⟩ := d
    obtain ⟨h1, h2⟩ := (wf_cons_iff x d m).mp h
    unfold Memory.writeByte
    split
    · next hlt => exact (wf_cons_iff _ _ _).mpr ⟨by simpa using hlt, h⟩
    · split
      · next heq => subst heq; exact (wf_cons_iff _ _ _).mpr ⟨h1, h2⟩
      · next hn hne =>
        refine (wf_cons_iff _ _ _).mpr ⟨fun e he => ?_, ih h2⟩
        rcases head?_writeByte m a b e he with h3 | ⟨d', hd', h3⟩
        · omega
        · rw [h3]; exact h1 d' hd'

theorem writeBytes_wf {m : Memory} (h : Memory.wf m = true) (a : Nat) (bs : List Byte) :
    Memory.wf (m.writeBytes a bs) = true := by
  induction bs generalizing m a with
  | nil => exact h
  | cons b bs ih => exact ih (writeByte_wf h a b) _

theorem writeWord_wf {m : Memory} (h : Memory.wf m = true) (a : Nat) (w : Word) : Memory.wf (m.writeWord a w) = true :=
  writeBytes_wf h a _

theorem writeSymFrame_wf {m : Memory} (h : Memory.wf m = true) (k : Nat) (ps : List Point) :
    Memory.wf (m.writeSymFrame k ps) = true := by
  induction ps generalizing m k with
  | nil => exact h
  | cons p ps ih => exact ih (writeWord_wf (writeWord_wf h _ _) _ _) _

theorem writeIdxFrame_wf {m : Memory} (h : Memory.wf m = true) (k : Nat) (ps : List (Fin 16)) :
    Memory.wf (m.writeIdxFrame k ps) = true := by
  induction ps generalizing m k with
  | nil => exact h
  | cons p ps ih => exact ih (writeWord_wf h _ _) _

theorem reset_mem_wf : Memory.wf State.reset.mem = true := rfl

end Sys2Proof.Machine
end

