-- ==== Sys2Proof/Laws/Loop.lean ====
section
/-! SUPPORT. What the shared parts of a command can do: the element loop, the operands, the end of a command; and what
each command's course can answer. Proofs cite these and do not unfold the courses again. -/

namespace Sys2Proof.Machine

/-! ### The element loop -/

theorem eachInOrder_ok_iff (f : α → Except Stop β) (as : List α) (bs : List β) :
    eachInOrder f as = .ok bs ↔ as.map f = bs.map .ok := by
  induction as generalizing bs with
  | nil => cases bs <;> simp [eachInOrder]
  | cons a as ih =>
    unfold eachInOrder
    cases hfa : f a with
    | error e => cases bs <;> simp [hfa]
    | ok b =>
      cases hr : eachInOrder f as with
      | error e =>
        have := fun cs => (ih cs).not.mp (by simp [hr])
        cases bs with
        | nil => simp
        | cons c cs => simp [this cs]
      | ok cs =>
        cases bs with
        | nil => simp
        | cons c ds => simp [hfa, (ih cs).mp hr, List.map_inj_right]

/-- The loop answers a list exactly when every element does, in its place. -/
theorem eachInOrder_ok_iff_getElem (f : α → Except Stop β) (as : List α) (bs : List β) :
    eachInOrder f as = .ok bs ↔
      bs.length = as.length ∧ ∀ (k : Nat) (h : k < as.length) (h' : k < bs.length), f as[k] = .ok bs[k] := by
  rw [eachInOrder_ok_iff, List.ext_getElem_iff]
  simp only [List.length_map, List.getElem_map]
  constructor
  · rintro ⟨h1, h2⟩; exact ⟨h1.symm, fun k h h' => h2 k h h'⟩
  · rintro ⟨h1, h2⟩; exact ⟨h1.symm, fun k h h' => h2 k h h'⟩

theorem eachInOrder_range_ok_iff (f : Nat → Except Stop β) (n : Nat) (bs : List β) :
    eachInOrder f (List.range n) = .ok bs ↔ bs.length = n ∧ ∀ (k : Nat) (h : k < bs.length), f k = .ok bs[k] := by
  rw [eachInOrder_ok_iff_getElem]
  simp only [List.length_range, List.getElem_range]
  constructor
  · rintro ⟨h1, h2⟩; exact ⟨h1, fun k h => h2 k (by omega) h⟩
  · rintro ⟨h1, h2⟩; exact ⟨h1, fun k _ h => h2 k h⟩

/-- The loop stops with the first element that stops. -/
theorem eachInOrder_error_iff (f : α → Except Stop β) (as : List α) (e : Stop) :
    eachInOrder f as = .error e ↔
      ∃ (k : Nat) (h : k < as.length), f as[k] = .error e ∧
        ∀ (j : Nat) (hj : j < k), ∃ b, f (as[j]'(Nat.lt_trans hj h)) = .ok b := by
  induction as with
  | nil => simp [eachInOrder]
  | cons a as ih =>
    unfold eachInOrder
    cases hfa : f a with
    | error e' =>
      constructor
      · intro h
        cases h
        exact ⟨0, by simp, hfa, fun j hj => absurd hj (Nat.not_lt_zero j)⟩
      · rintro ⟨k, h, h1, h2⟩
        cases k with
        | zero => rw [List.getElem_cons_zero, hfa] at h1; cases h1; rfl
        | succ k =>
          obtain ⟨b, hb⟩ := h2 0 (by omega)
          rw [List.getElem_cons_zero, hfa] at hb
          cases hb
    | ok b =>
      refine Iff.trans (b := eachInOrder f as = .error e) (by cases eachInOrder f as <;> simp) (ih.trans ?_)
      constructor
      · rintro ⟨k, h, h1, h2⟩
        refine ⟨k + 1, by simpa using h, by simpa using h1, fun j hj => ?_⟩
        cases j with
        | zero => exact ⟨b, hfa⟩
        | succ j => simpa using h2 j (by omega)
      · rintro ⟨k, h, h1, h2⟩
        cases k with
        | zero => rw [List.getElem_cons_zero, hfa] at h1; cases h1
        | succ k =>
          refine ⟨k, by simpa using h, by simpa using h1, fun j hj => ?_⟩
          simpa using h2 (j + 1) (by omega)

theorem eachInOrder_range_error_iff (f : Nat → Except Stop β) (n : Nat) (e : Stop) :
    eachInOrder f (List.range n) = .error e ↔ ∃ k < n, f k = .error e ∧ ∀ j < k, ∃ b, f j = .ok b := by
  rw [eachInOrder_error_iff]
  simp only [List.length_range, List.getElem_range, exists_prop]

/-! ### Except -/

@[simp] theorem bind_ok (a : α) (f : α → Except Stop β) : ((Except.ok a : Except Stop α) >>= f) = f a := rfl

@[simp] theorem bind_error (e : Stop) (f : α → Except Stop β) : ((Except.error e : Except Stop α) >>= f) = .error e := rfl

theorem bind_eq_ok_iff (x : Except Stop α) (f : α → Except Stop β) (b : β) :
    (x >>= f) = .ok b ↔ ∃ a, x = .ok a ∧ f a = .ok b := by
  cases x <;> simp

theorem bind_eq_error_iff (x : Except Stop α) (f : α → Except Stop β) (e : Stop) :
    (x >>= f) = .error e ↔ x = .error e ∨ ∃ a, x = .ok a ∧ f a = .error e := by
  cases x <;> simp

theorem require_ok_iff (c : Bool) (e : Stop) (u : Unit) : require c e = .ok u ↔ c = true := by
  cases c <;> simp [require]

theorem require_error_iff (c : Bool) (e e' : Stop) : require c e = .error e' ↔ c = false ∧ e = e' := by
  cases c <;> simp [require]

/-! ### The end of a command -/

@[simp] theorem finish_ok (op : Byte) (s t : State) : finish op s (.ok t) = .next (t.report op 0 nopos) := rfl

@[simp] theorem finish_block (op : Byte) (s : State) (e : BlockError) (pos : Word) :
    finish op s (.error (.block e pos)) = .next (s.report op e.code pos) := rfl

@[simp] theorem finish_model (op : Byte) (s : State) (f : Fault) : finish op s (.error (.model f)) = .fault f := rfl

theorem finish_next {op : Byte} {s t : State} {r : Except Stop State} (h : finish op s r = .next t) :
    (∃ u, r = .ok u ∧ t = u.report op 0 nopos) ∨ ∃ e pos, r = .error (.block e pos) ∧ t = s.report op e.code pos := by
  rcases r with (⟨e, pos⟩ | f) | u
  · simp only [finish, Host.Outcome.next.injEq] at h
    exact .inr ⟨e, pos, rfl, h.symm⟩
  · simp [finish] at h
  · simp only [finish, Host.Outcome.next.injEq] at h
    exact .inl ⟨u, rfl, h.symm⟩

theorem finish_fault {op : Byte} {s : State} {r : Except Stop State} {f : Fault} (h : finish op s r = .fault f) :
    r = .error (.model f) := by
  rcases r with (⟨e, pos⟩ | f) | u
  · simp [finish] at h
  · simp only [finish, Host.Outcome.fault.injEq] at h; rw [h]
  · simp [finish] at h

theorem finish_not_refused (op : Byte) (s : State) (r : Except Stop State) (x : Refusal) : finish op s r ≠ .refused x := by
  rcases r with (⟨e, pos⟩ | f) | u <;> simp [finish]

/-! ### The operands -/

theorem frameLength_ok_iff (s : State) (n : Nat) : frameLength s = .ok n ↔ s.flen.toNat ≤ s.maxFrame ∧ n = s.flen.toNat := by
  unfold frameLength
  split
  · next h => simp; omega
  · next h => simp only [Except.ok.injEq]; constructor
              · rintro rfl; exact ⟨by omega, rfl⟩
              · rintro ⟨_, rfl⟩; rfl

theorem frameLength_error_iff (s : State) (e : Stop) :
    frameLength s = .error e ↔ s.maxFrame < s.flen.toNat ∧ e = .block .frameLength nopos := by
  unfold frameLength
  split
  · next h => simpa [h] using eq_comm
  · next h => simp [h]

theorem indexOperand_ok_iff (s : State) (k : Nat) (p : Fin 16) :
    indexOperand s k = .ok p ↔ s.idxEntry k = some (BitVec.ofNat 64 p.val) := by
  unfold indexOperand
  cases h : s.idxEntry k with
  | none => simp
  | some v =>
    have hp : (BitVec.ofNat 64 p.val).toInt = p.val := by
      rw [BitVec.toInt_eq_toNat_of_lt]
      · simp; omega
      · simp; omega
    simp only [Option.some.injEq]
    split
    · next hv =>
      simp only [Except.ok.injEq]
      constructor
      · rintro rfl
        apply BitVec.eq_of_toInt_eq
        rw [hp]
        show v.toInt = ((v.toInt.toNat : Nat) : Int)
        omega
      · rintro rfl
        apply Fin.ext
        show (BitVec.ofNat 64 p.val).toInt.toNat = p.val
        rw [hp]; rfl
    · next hv =>
      simp only [reduceCtorEq, false_iff]
      rintro rfl
      rw [hp] at hv
      exact hv ⟨by omega, by omega⟩

theorem indexOperand_error_iff (s : State) (k : Nat) (e : Stop) :
    indexOperand s k = .error e ↔
      (s.idxEntry k = none ∧ e = .model .unwrittenRead) ∨
      (∃ v, s.idxEntry k = some v ∧ ¬(0 ≤ v.toInt ∧ v.toInt ≤ 15) ∧ e = .block .invalidIndex (posWord k)) := by
  unfold indexOperand
  cases h : s.idxEntry k with
  | none => simpa using eq_comm
  | some v =>
    simp only [reduceCtorEq, false_and, false_or, Option.some.injEq]
    split
    · next hv => simp; intro h1; omega
    · next hv =>
      constructor
      · intro h; cases h; exact ⟨v, rfl, hv, rfl⟩
      · rintro ⟨w, rfl, _, rfl⟩; rfl

theorem symbolOperand_ok_iff (s : State) (k : Nat) (x : Point) :
    symbolOperand s k = .ok x ↔ s.symEntry k = some x ∧ x.isFinite = true := by
  unfold symbolOperand
  cases h : s.symEntry k with
  | none => simp
  | some p =>
    simp only [Option.some.injEq]
    split
    · next hf =>
      simp only [Except.ok.injEq]
      constructor
      · rintro rfl; exact ⟨rfl, hf⟩
      · exact fun h => h.1
    · next hf =>
      simp only [reduceCtorEq, false_iff]
      rintro ⟨rfl, h2⟩; exact hf h2

theorem symbolOperand_error_iff (s : State) (k : Nat) (e : Stop) :
    symbolOperand s k = .error e ↔
      (s.symEntry k = none ∧ e = .model .unwrittenRead) ∨
      (∃ x, s.symEntry k = some x ∧ x.isFinite = false ∧ e = .block .nonFiniteInput (posWord k)) := by
  unfold symbolOperand
  cases h : s.symEntry k with
  | none => simpa using eq_comm
  | some x =>
    simp only [reduceCtorEq, false_and, false_or, Option.some.injEq]
    split
    · next hv => simp [hv]
    · next hv =>
      constructor
      · intro h; cases h; exact ⟨x, rfl, by simpa using hv, rfl⟩
      · rintro ⟨w, rfl, _, rfl⟩; rfl

theorem pointOperand_ok_iff (s : State) (k : Nat) (p : Fin 16) :
    pointOperand s k = .ok p ↔ ∃ x, s.symEntry k = some x ∧ x.isFinite = true ∧ s.cmap.inverse x = some p := by
  unfold pointOperand
  rw [bind_eq_ok_iff]
  constructor
  · rintro ⟨x, h1, h2⟩
    rw [symbolOperand_ok_iff] at h1
    refine ⟨x, h1.1, h1.2, ?_⟩
    cases h : s.cmap.inverse x with
    | none => simp [h] at h2
    | some j => simp only [h] at h2; cases h2; rfl
  · rintro ⟨x, h1, h2, h3⟩
    exact ⟨x, (symbolOperand_ok_iff s k x).mpr ⟨h1, h2⟩, by simp only [h3]; rfl⟩

theorem pointOperand_error_iff (s : State) (k : Nat) (e : Stop) :
    pointOperand s k = .error e ↔
      symbolOperand s k = .error e ∨
      (∃ x, s.symEntry k = some x ∧ x.isFinite = true ∧ s.cmap.inverse x = none ∧
        e = .block .notAConstellationPoint (posWord k)) := by
  unfold pointOperand
  rw [bind_eq_error_iff]
  refine or_congr Iff.rfl ⟨?_, ?_⟩
  · rintro ⟨x, h1, h2⟩
    rw [symbolOperand_ok_iff] at h1
    refine ⟨x, h1.1, h1.2, ?_⟩
    cases h : s.cmap.inverse x with
    | none => simp only [h] at h2; cases h2; exact ⟨rfl, rfl⟩
    | some j => simp only [h] at h2; cases h2
  · rintro ⟨x, h1, h2, h3, rfl⟩
    exact ⟨x, (symbolOperand_ok_iff s k x).mpr ⟨h1, h2⟩, by simp only [h3]⟩

theorem symbolFrame_ok_iff (s : State) (n : Nat) (xs : List Point) :
    symbolFrame s n = .ok xs ↔
      xs.length = n ∧ ∀ (k : Nat) (h : k < xs.length), s.symEntry k = some xs[k] ∧ xs[k].isFinite = true := by
  unfold symbolFrame
  rw [eachInOrder_range_ok_iff]
  simp only [symbolOperand_ok_iff]

theorem symbolFrame_error_iff (s : State) (n : Nat) (e : Stop) :
    symbolFrame s n = .error e ↔
      ∃ k < n, symbolOperand s k = .error e ∧ ∀ j < k, ∃ x, s.symEntry j = some x ∧ x.isFinite = true := by
  unfold symbolFrame
  rw [eachInOrder_range_error_iff]
  simp only [symbolOperand_ok_iff]

theorem snrOperand_ok_iff (s : State) (x : F64) : snrOperand s = .ok x ↔ Binary64.isFinite s.snrDb = true ∧ x = s.snrDb := by
  unfold snrOperand
  split
  · next h => simpa [h] using eq_comm
  · next h => simp [h]

theorem snrOperand_error_iff (s : State) (e : Stop) :
    snrOperand s = .error e ↔ Binary64.isFinite s.snrDb = false ∧ e = .block .invalidParameter nopos := by
  unfold snrOperand
  split
  · next h => simp [h]
  · next h => simpa [h] using eq_comm

/-- PN_PARAM is legal: finite and not less than 0 (43_phase_rotator.md R101). -/
theorem phaseNoiseOperand_ok_iff (s : State) (x : F64) :
    phaseNoiseOperand s = .ok x ↔
      (Binary64.isFinite s.pnParam && decide (0 ≤ Binary64.units s.pnParam)) = true ∧ x = s.pnParam := by
  unfold phaseNoiseOperand
  split
  · next h => simpa only [Except.ok.injEq, h, true_and] using eq_comm
  · next h => simp only [reduceCtorEq, h, false_and, Bool.false_eq_true]

theorem phaseNoiseOperand_error_iff (s : State) (e : Stop) :
    phaseNoiseOperand s = .error e ↔
      (Binary64.isFinite s.pnParam && decide (0 ≤ Binary64.units s.pnParam)) = false ∧
        e = .block .invalidParameter nopos := by
  unfold phaseNoiseOperand
  split
  · next h => simp only [reduceCtorEq, h, Bool.true_eq_false, false_and]
  · next h =>
    rw [Bool.not_eq_true] at h
    simpa only [Except.error.injEq, h, true_and] using eq_comm

theorem rotationOperand_ok_iff (s : State) (x : F64) :
    rotationOperand s = .ok x ↔ Binary64.isFinite s.rotDeg = true ∧ x = s.rotDeg := by
  unfold rotationOperand
  split
  · next h => simpa [h] using eq_comm
  · next h => simp [h]

theorem rotationOperand_error_iff (s : State) (e : Stop) :
    rotationOperand s = .error e ↔ Binary64.isFinite s.rotDeg = false ∧ e = .block .invalidParameter nopos := by
  unfold rotationOperand
  split
  · next h => simp [h]
  · next h => simpa [h] using eq_comm

end Sys2Proof.Machine
end

