-- ==== Sys2Proof/Laws/Courses.lean ====
section
/-! SUPPORT. What each command's course can answer, said once: when it succeeds and with what state, and when and how it
stops. -/

namespace Sys2Proof.Machine

open Binary64

/-! ### Draws -/

@[simp] theorem rngAfter_zero (c : Config) (r : RngState) : rngAfter c 0 r = r := rfl

theorem rngAfter_succ (c : Config) (k : Nat) (r : RngState) : rngAfter c (k + 1) r = rngAfter c k (c.gauss r).2 := rfl

theorem rngAfter_add (c : Config) (j k : Nat) (r : RngState) : rngAfter c (j + k) r = rngAfter c j (rngAfter c k r) :=
  Function.iterate_add_apply _ j k r

theorem draws_state (c : Config) (n : Nat) (r : RngState) : (draws c n r).2 = rngAfter c n r := by
  induction n generalizing r with
  | zero => rfl
  | succ n ih => rw [draws, rngAfter_succ, ← ih]

theorem draws_values (c : Config) (n : Nat) (r : RngState) : (draws c n r).1 = (List.range n).map (drawAt c r) := by
  induction n generalizing r with
  | zero => rfl
  | succ n ih =>
    rw [draws, List.range_succ_eq_map, List.map_cons, List.map_map, ih]
    congr 1

theorem draws_length (c : Config) (n : Nat) (r : RngState) : (draws c n r).1.length = n := by
  rw [draws_values]; simp

/-! ### MAP -/

theorem mapCourse_ok_iff (s t : State) :
    mapCourse s = .ok t ↔
      s.flen.toNat ≤ s.maxFrame ∧
      ∃ ps : List (Fin 16), ps.length = s.flen.toNat ∧
        (∀ (k : Nat) (h : k < ps.length), s.idxEntry k = some (BitVec.ofNat 64 ps[k].val)) ∧
        t = { s with mem := s.mem.writeSymFrame 0 (ps.map s.cmap.point) } := by
  unfold mapCourse
  simp only [bind_eq_ok_iff, frameLength_ok_iff, eachInOrder_range_ok_iff, indexOperand_ok_iff]
  constructor
  · rintro ⟨n, ⟨h1, rfl⟩, ps, ⟨h2, h3⟩, h4⟩
    cases h4
    exact ⟨h1, ps, h2, h3, rfl⟩
  · rintro ⟨h1, ps, h2, h3, rfl⟩
    exact ⟨_, ⟨h1, rfl⟩, ps, ⟨h2, h3⟩, rfl⟩

theorem mapCourse_error_iff (s : State) (e : Stop) :
    mapCourse s = .error e ↔
      (s.maxFrame < s.flen.toNat ∧ e = .block .frameLength nopos) ∨
      (s.flen.toNat ≤ s.maxFrame ∧ ∃ k < s.flen.toNat, indexOperand s k = .error e ∧
        ∀ j < k, ∃ p : Fin 16, s.idxEntry j = some (BitVec.ofNat 64 p.val)) := by
  unfold mapCourse
  simp only [bind_eq_error_iff, frameLength_ok_iff, frameLength_error_iff, eachInOrder_range_error_iff,
    indexOperand_ok_iff]
  refine or_congr Iff.rfl ⟨?_, ?_⟩
  · rintro ⟨n, ⟨h1, rfl⟩, h | ⟨ps, _, h⟩⟩
    · exact ⟨h1, h⟩
    · cases h
  · rintro ⟨h1, h⟩
    exact ⟨_, ⟨h1, rfl⟩, .inl h⟩

/-! ### DEMAP -/

theorem demapCourse_ok_iff (s t : State) :
    demapCourse s = .ok t ↔
      s.flen.toNat ≤ s.maxFrame ∧
      ∃ ps : List (Fin 16), ps.length = s.flen.toNat ∧
        (∀ (k : Nat) (h : k < ps.length),
          ∃ x, s.symEntry k = some x ∧ x.isFinite = true ∧ s.cmap.inverse x = some ps[k]) ∧
        t = { s with mem := s.mem.writeIdxFrame 0 ps } := by
  unfold demapCourse
  simp only [bind_eq_ok_iff, frameLength_ok_iff, eachInOrder_range_ok_iff, pointOperand_ok_iff]
  constructor
  · rintro ⟨n, ⟨h1, rfl⟩, ps, ⟨h2, h3⟩, h4⟩
    cases h4
    exact ⟨h1, ps, h2, h3, rfl⟩
  · rintro ⟨h1, ps, h2, h3, rfl⟩
    exact ⟨_, ⟨h1, rfl⟩, ps, ⟨h2, h3⟩, rfl⟩

theorem demapCourse_error_iff (s : State) (e : Stop) :
    demapCourse s = .error e ↔
      (s.maxFrame < s.flen.toNat ∧ e = .block .frameLength nopos) ∨
      (s.flen.toNat ≤ s.maxFrame ∧ ∃ k < s.flen.toNat, pointOperand s k = .error e ∧
        ∀ j < k, ∃ p x, s.symEntry j = some x ∧ x.isFinite = true ∧ s.cmap.inverse x = some p) := by
  unfold demapCourse
  simp only [bind_eq_error_iff, frameLength_ok_iff, frameLength_error_iff, eachInOrder_range_error_iff,
    pointOperand_ok_iff]
  refine or_congr Iff.rfl ⟨?_, ?_⟩
  · rintro ⟨n, ⟨h1, rfl⟩, h | ⟨ps, _, h⟩⟩
    · exact ⟨h1, h⟩
    · cases h
  · rintro ⟨h1, h⟩
    exact ⟨_, ⟨h1, rfl⟩, .inl h⟩

/-! ### SLICE -/

theorem sliceCourse_ok_iff (s t : State) :
    sliceCourse s = .ok t ↔
      s.flen.toNat ≤ s.maxFrame ∧
      ∃ xs : List Point, xs.length = s.flen.toNat ∧
        (∀ (k : Nat) (h : k < xs.length), s.symEntry k = some xs[k] ∧ xs[k].isFinite = true) ∧
        t = { s with mem := s.mem.writeIdxFrame 0 (xs.map s.cmap.nearest) } := by
  unfold sliceCourse
  simp only [bind_eq_ok_iff, frameLength_ok_iff, symbolFrame_ok_iff]
  constructor
  · rintro ⟨n, ⟨h1, rfl⟩, ps, ⟨h2, h3⟩, h4⟩
    cases h4
    exact ⟨h1, ps, h2, h3, rfl⟩
  · rintro ⟨h1, ps, h2, h3, rfl⟩
    exact ⟨_, ⟨h1, rfl⟩, ps, ⟨h2, h3⟩, rfl⟩

theorem sliceCourse_error_iff (s : State) (e : Stop) :
    sliceCourse s = .error e ↔
      (s.maxFrame < s.flen.toNat ∧ e = .block .frameLength nopos) ∨
      (s.flen.toNat ≤ s.maxFrame ∧ ∃ k < s.flen.toNat, symbolOperand s k = .error e ∧
        ∀ j < k, ∃ x, s.symEntry j = some x ∧ x.isFinite = true) := by
  unfold sliceCourse
  simp only [bind_eq_error_iff, frameLength_ok_iff, frameLength_error_iff, symbolFrame_error_iff]
  refine or_congr Iff.rfl ⟨?_, ?_⟩
  · rintro ⟨n, ⟨h1, rfl⟩, h | ⟨ps, _, h⟩⟩
    · exact ⟨h1, h⟩
    · cases h
  · rintro ⟨h1, h⟩
    exact ⟨_, ⟨h1, rfl⟩, .inl h⟩

/-! ### AWGN -/

theorem mixSymbol_ok_iff (sigma : F64) (k : Nat) (x : Point) (gI gQ : F64) (y : Point) :
    mixSymbol sigma (k, x, gI, gQ) = .ok y ↔ y = mixed sigma x gI gQ ∧ y.isFinite = true := by
  simp only [mixSymbol]
  split
  · next h =>
    simp only [Except.ok.injEq]
    constructor
    · rintro rfl; exact ⟨rfl, h⟩
    · rintro ⟨rfl, _⟩; rfl
  · next h =>
    simp only [reduceCtorEq, false_iff]
    rintro ⟨rfl, h2⟩; exact h h2

theorem mixSymbol_error_iff (sigma : F64) (k : Nat) (x : Point) (gI gQ : F64) (e : Stop) :
    mixSymbol sigma (k, x, gI, gQ) = .error e ↔
      (mixed sigma x gI gQ).isFinite = false ∧ e = .block .numericOverflow (posWord k) := by
  simp only [mixSymbol]
  split
  · next h => simp [h]
  · next h => simpa [h] using eq_comm

/-- The element loop over a frame and its 2n draws, by position. -/
theorem mixFrame_ok_iff (c : Config) (sigma : F64) (n : Nat) (xs : List Point) (hx : xs.length = n) (r : RngState)
    (ys : List Point) :
    eachInOrder (mixSymbol sigma)
        ((List.range n).zip (xs.zip ((draws c n r).1.zip (draws c n (draws c n r).2).1))) = .ok ys ↔
      ys.length = n ∧ ∀ (k : Nat) (h : k < ys.length) (h' : k < xs.length),
        ys[k] = mixed sigma xs[k] (drawAt c r k) (drawAt c r (n + k)) ∧ ys[k].isFinite = true := by
  rw [eachInOrder_ok_iff_getElem]
  simp only [List.length_zip, List.length_range, hx, List.length_map, Nat.min_self, List.getElem_zip, List.getElem_range,
    mixSymbol_ok_iff, draws_values, draws_state, List.getElem_map]
  have hd : ∀ k, drawAt c (rngAfter c n r) k = drawAt c r (n + k) := by
    intro k; unfold drawAt; rw [Nat.add_comm n k, rngAfter_add]
  simp only [hd]
  constructor
  · rintro ⟨h1, h2⟩; exact ⟨h1, fun k h h' => h2 k (by omega) h⟩
  · rintro ⟨h1, h2⟩; exact ⟨h1, fun k h h' => h2 k h' (by omega)⟩

theorem mixFrame_error_iff (c : Config) (sigma : F64) (n : Nat) (xs : List Point) (hx : xs.length = n) (r : RngState)
    (e : Stop) :
    eachInOrder (mixSymbol sigma)
        ((List.range n).zip (xs.zip ((draws c n r).1.zip (draws c n (draws c n r).2).1))) = .error e ↔
      ∃ (k : Nat) (h : k < xs.length),
        (mixed sigma xs[k] (drawAt c r k) (drawAt c r (n + k))).isFinite = false ∧
        e = .block .numericOverflow (posWord k) ∧
        ∀ (j : Nat) (hj : j < k),
          (mixed sigma (xs[j]'(Nat.lt_trans hj h)) (drawAt c r j) (drawAt c r (n + j))).isFinite = true := by
  rw [eachInOrder_error_iff]
  have hd : ∀ k, drawAt c (rngAfter c n r) k = drawAt c r (n + k) := by
    intro k; unfold drawAt; rw [Nat.add_comm n k, rngAfter_add]
  simp only [List.length_zip, List.length_range, hx, List.length_map, Nat.min_self, List.getElem_zip, List.getElem_range,
    mixSymbol_ok_iff, mixSymbol_error_iff, draws_values, draws_state, List.getElem_map, hd]
  constructor
  · rintro ⟨k, h, ⟨h1, h2⟩, h3⟩
    refine ⟨k, h, h1, h2, fun j hj => ?_⟩
    obtain ⟨b, rfl, hb⟩ := h3 j hj
    exact hb
  · rintro ⟨k, h, h1, h2, h3⟩
    exact ⟨k, h, ⟨h1, h2⟩, fun j hj => ⟨_, rfl, h3 j hj⟩⟩

/-- When AWGN succeeds, and with what (42_awgn.md R91). -/
theorem awgnCourse_ok_iff (c : Config) (s t : State) :
    awgnCourse c s = .ok t ↔
      s.flen.toNat ≤ s.maxFrame ∧ isFinite s.snrDb = true ∧ s.flen.toNat ≠ 0 ∧
      ∃ xs ys : List Point, xs.length = s.flen.toNat ∧ ys.length = s.flen.toNat ∧
        (∀ (k : Nat) (h : k < xs.length), s.symEntry k = some xs[k] ∧ xs[k].isFinite = true) ∧
        isFinite (power xs) = true ∧ isZero (power xs) = false ∧ isFinite (noiseLevel c (power xs) s.snrDb) = true ∧
        (∀ (k : Nat) (h : k < ys.length) (h' : k < xs.length),
          ys[k] = mixed (noiseSigma (noiseLevel c (power xs) s.snrDb)) xs[k] (drawAt c s.rng k)
            (drawAt c s.rng (s.flen.toNat + k)) ∧ ys[k].isFinite = true) ∧
        t = { s with mem := s.mem.writeSymFrame 0 ys, rng := rngAfter c (2 * s.flen.toNat) s.rng } := by
  unfold awgnCourse
  simp only [bind_eq_ok_iff, frameLength_ok_iff, snrOperand_ok_iff, symbolFrame_ok_iff, require_ok_iff]
  have hr : (draws c s.flen.toNat (draws c s.flen.toNat s.rng).2).2 = rngAfter c (2 * s.flen.toNat) s.rng := by
    rw [draws_state, draws_state, Nat.two_mul, rngAfter_add]
  constructor
  · rintro ⟨n, ⟨h1, rfl⟩, snr, ⟨h2, rfl⟩, xs, ⟨h3, h4⟩, _, h5, _, h6, _, h7, _, h8, ys, h9, h10⟩
    rw [mixFrame_ok_iff c _ _ xs h3] at h9
    cases h10
    refine ⟨h1, h2, by simpa using h5, xs, ys, h3, h9.1, h4, h6, by simpa using h7, h8, h9.2, ?_⟩
    rw [hr]
  · rintro ⟨h1, h2, h5, xs, ys, h3, h9, h4, h6, h7, h8, h10, rfl⟩
    refine ⟨_, ⟨h1, rfl⟩, _, ⟨h2, rfl⟩, xs, ⟨h3, h4⟩, (), by simpa using h5, (), h6, (), by simpa using h7, (), h8, ys,
      (mixFrame_ok_iff c _ _ xs h3 _ _).mpr ⟨h9, h10⟩, ?_⟩
    rw [hr]; rfl

/-- When AWGN stops, and how, in the order of 60_exceptions.md R114. -/
theorem awgnCourse_error_iff (c : Config) (s : State) (e : Stop) :
    awgnCourse c s = .error e ↔
      (s.maxFrame < s.flen.toNat ∧ e = .block .frameLength nopos) ∨
      (s.flen.toNat ≤ s.maxFrame ∧ isFinite s.snrDb = false ∧ e = .block .invalidParameter nopos) ∨
      (s.flen.toNat ≤ s.maxFrame ∧ isFinite s.snrDb = true ∧ ∃ k < s.flen.toNat, symbolOperand s k = .error e ∧
        ∀ j < k, ∃ x, s.symEntry j = some x ∧ x.isFinite = true) ∨
      (s.flen.toNat ≤ s.maxFrame ∧ isFinite s.snrDb = true ∧ ∃ xs : List Point, xs.length = s.flen.toNat ∧
        (∀ (k : Nat) (h : k < xs.length), s.symEntry k = some xs[k] ∧ xs[k].isFinite = true) ∧
        ((s.flen.toNat = 0 ∧ e = .block .degenerateSignal nopos) ∨
         (s.flen.toNat ≠ 0 ∧ isFinite (power xs) = false ∧ e = .block .numericOverflow nopos) ∨
         (s.flen.toNat ≠ 0 ∧ isFinite (power xs) = true ∧ isZero (power xs) = true ∧
          e = .block .degenerateSignal nopos) ∨
         (s.flen.toNat ≠ 0 ∧ isFinite (power xs) = true ∧ isZero (power xs) = false ∧
          isFinite (noiseLevel c (power xs) s.snrDb) = false ∧ e = .block .numericOverflow nopos) ∨
         (s.flen.toNat ≠ 0 ∧ isFinite (power xs) = true ∧ isZero (power xs) = false ∧
          isFinite (noiseLevel c (power xs) s.snrDb) = true ∧
          ∃ (k : Nat) (h : k < xs.length),
            (mixed (noiseSigma (noiseLevel c (power xs) s.snrDb)) xs[k] (drawAt c s.rng k)
              (drawAt c s.rng (s.flen.toNat + k))).isFinite = false ∧
            e = .block .numericOverflow (posWord k) ∧
            ∀ (j : Nat) (hj : j < k),
              (mixed (noiseSigma (noiseLevel c (power xs) s.snrDb)) (xs[j]'(Nat.lt_trans hj h)) (drawAt c s.rng j)
                (drawAt c s.rng (s.flen.toNat + j))).isFinite = true))) := by
  unfold awgnCourse
  simp only [bind_eq_error_iff, frameLength_ok_iff, frameLength_error_iff, snrOperand_ok_iff, snrOperand_error_iff,
    symbolFrame_ok_iff, symbolFrame_error_iff, require_ok_iff, require_error_iff]
  constructor
  · rintro (h | ⟨n, ⟨h1, rfl⟩, h | ⟨snr, ⟨h2, rfl⟩, h | ⟨xs, ⟨h3, h4⟩, h⟩⟩⟩)
    · exact .inl h
    · exact .inr (.inl ⟨h1, h⟩)
    · exact .inr (.inr (.inl ⟨h1, h2, h⟩))
    · refine .inr (.inr (.inr ⟨h1, h2, xs, h3, h4, ?_⟩))
      rcases h with ⟨h5, h⟩ | ⟨_, h5, h | ⟨_, h6, h | ⟨_, h7, h | ⟨_, h8, h | ⟨ys, _, h⟩⟩⟩⟩⟩
      · exact .inl ⟨by simpa using h5, h.symm⟩
      · exact .inr (.inl ⟨by simpa using h5, h.1, h.2.symm⟩)
      · exact .inr (.inr (.inl ⟨by simpa using h5, h6, by simpa using h.1, h.2.symm⟩))
      · exact .inr (.inr (.inr (.inl ⟨by simpa using h5, h6, by simpa using h7, h.1, h.2.symm⟩)))
      · exact .inr (.inr (.inr (.inr ⟨by simpa using h5, h6, by simpa using h7, h8,
          (mixFrame_error_iff c _ _ xs h3 _ e).mp h⟩)))
      · cases h
  · rintro (h | ⟨h1, h⟩ | ⟨h1, h2, h⟩ | ⟨h1, h2, xs, h3, h4, h⟩)
    · exact .inl h
    · exact .inr ⟨_, ⟨h1, rfl⟩, .inl h⟩
    · exact .inr ⟨_, ⟨h1, rfl⟩, .inr ⟨_, ⟨h2, rfl⟩, .inl h⟩⟩
    · refine .inr ⟨_, ⟨h1, rfl⟩, .inr ⟨_, ⟨h2, rfl⟩, .inr ⟨xs, ⟨h3, h4⟩, ?_⟩⟩⟩
      rcases h with ⟨h5, h⟩ | ⟨h5, h⟩ | ⟨h5, h6, h⟩ | ⟨h5, h6, h7, h⟩ | ⟨h5, h6, h7, h8, h⟩
      · exact .inl ⟨by simpa using h5, h.symm⟩
      · exact .inr ⟨(), by simpa using h5, .inl ⟨h.1, h.2.symm⟩⟩
      · exact .inr ⟨(), by simpa using h5, .inr ⟨(), h6, .inl ⟨by simpa using h.1, h.2.symm⟩⟩⟩
      · exact .inr ⟨(), by simpa using h5, .inr ⟨(), h6, .inr ⟨(), by simpa using h7, .inl ⟨h.1, h.2.symm⟩⟩⟩⟩
      · exact .inr ⟨(), by simpa using h5, .inr ⟨(), h6, .inr ⟨(), by simpa using h7, .inr ⟨(), h8,
          .inl ((mixFrame_error_iff c _ _ xs h3 _ e).mpr h)⟩⟩⟩⟩

/-! ### PNROT -/

theorem rotateSymbol_ok_iff (c : Config) (sphi theta : F64) (k : Nat) (x : Point) (g : F64) (y : Point) :
    rotateSymbol c sphi theta (k, x, g) = .ok y ↔
      y = rotated c (mul sphi g) theta x ∧ isFinite (mul sphi g) = true ∧ y.isFinite = true := by
  simp only [rotateSymbol]
  split
  · next h =>
    rw [Bool.and_eq_true] at h
    simp only [Except.ok.injEq]
    constructor
    · rintro rfl; exact ⟨rfl, h⟩
    · rintro ⟨rfl, _⟩; rfl
  · next h =>
    simp only [reduceCtorEq, false_iff]
    rintro ⟨rfl, h1, h2⟩
    exact h (by rw [h1, h2]; rfl)

theorem rotateSymbol_error_iff (c : Config) (sphi theta : F64) (k : Nat) (x : Point) (g : F64) (e : Stop) :
    rotateSymbol c sphi theta (k, x, g) = .error e ↔
      (isFinite (mul sphi g) = false ∨ (rotated c (mul sphi g) theta x).isFinite = false) ∧
        e = .block .numericOverflow (posWord k) := by
  simp only [rotateSymbol]
  split
  · next h =>
    rw [Bool.and_eq_true] at h
    simp [h.1, h.2]
  · next h =>
    rw [Bool.and_eq_true, not_and_or, Bool.not_eq_true, Bool.not_eq_true] at h
    simp only [Except.error.injEq, h, true_and]
    exact eq_comm

/-- The element loop over a frame and its n draws, by position. -/
theorem rotateFrame_ok_iff (c : Config) (sphi theta : F64) (n : Nat) (xs : List Point) (hx : xs.length = n)
    (r : RngState) (ys : List Point) :
    eachInOrder (rotateSymbol c sphi theta) ((List.range n).zip (xs.zip (draws c n r).1)) = .ok ys ↔
      ys.length = n ∧ ∀ (k : Nat) (h : k < ys.length) (h' : k < xs.length),
        ys[k] = rotated c (mul sphi (drawAt c r k)) theta xs[k] ∧ isFinite (mul sphi (drawAt c r k)) = true ∧
          ys[k].isFinite = true := by
  rw [eachInOrder_ok_iff_getElem]
  simp only [List.length_zip, List.length_range, hx, List.length_map, Nat.min_self, List.getElem_zip, List.getElem_range,
    rotateSymbol_ok_iff, draws_values, List.getElem_map]
  constructor
  · rintro ⟨h1, h2⟩; exact ⟨h1, fun k h h' => h2 k (by omega) h⟩
  · rintro ⟨h1, h2⟩; exact ⟨h1, fun k h h' => h2 k h' (by omega)⟩

theorem rotateFrame_error_iff (c : Config) (sphi theta : F64) (n : Nat) (xs : List Point) (hx : xs.length = n)
    (r : RngState) (e : Stop) :
    eachInOrder (rotateSymbol c sphi theta) ((List.range n).zip (xs.zip (draws c n r).1)) = .error e ↔
      ∃ (k : Nat) (h : k < xs.length),
        (isFinite (mul sphi (drawAt c r k)) = false ∨
          (rotated c (mul sphi (drawAt c r k)) theta xs[k]).isFinite = false) ∧
        e = .block .numericOverflow (posWord k) ∧
        ∀ (j : Nat) (hj : j < k), isFinite (mul sphi (drawAt c r j)) = true ∧
          (rotated c (mul sphi (drawAt c r j)) theta (xs[j]'(Nat.lt_trans hj h))).isFinite = true := by
  rw [eachInOrder_error_iff]
  simp only [List.length_zip, List.length_range, hx, List.length_map, Nat.min_self, List.getElem_zip, List.getElem_range,
    rotateSymbol_ok_iff, rotateSymbol_error_iff, draws_values, List.getElem_map]
  constructor
  · rintro ⟨k, h, ⟨h1, h2⟩, h3⟩
    refine ⟨k, h, h1, h2, fun j hj => ?_⟩
    obtain ⟨b, rfl, hb⟩ := h3 j hj
    exact hb
  · rintro ⟨k, h, h1, h2, h3⟩
    exact ⟨k, h, ⟨h1, h2⟩, fun j hj => ⟨_, rfl, h3 j hj⟩⟩

/-- When PNROT succeeds, and with what (43_phase_rotator.md R100). -/
theorem pnrotCourse_ok_iff (c : Config) (s t : State) :
    pnrotCourse c s = .ok t ↔
      s.flen.toNat ≤ s.maxFrame ∧ (isFinite s.pnParam && decide (0 ≤ units s.pnParam)) = true ∧
      isFinite s.rotDeg = true ∧
      isFinite (phaseScale s.pnParam) = true ∧ isFinite (rotationAngle s.rotDeg) = true ∧
      ∃ xs ys : List Point, xs.length = s.flen.toNat ∧ ys.length = s.flen.toNat ∧
        (∀ (k : Nat) (h : k < xs.length), s.symEntry k = some xs[k] ∧ xs[k].isFinite = true) ∧
        (∀ (k : Nat) (h : k < ys.length) (h' : k < xs.length),
          ys[k] = rotated c (mul (phaseScale s.pnParam) (drawAt c s.rng k)) (rotationAngle s.rotDeg) xs[k] ∧
          isFinite (mul (phaseScale s.pnParam) (drawAt c s.rng k)) = true ∧ ys[k].isFinite = true) ∧
        t = { s with mem := s.mem.writeSymFrame 0 ys, rng := rngAfter c s.flen.toNat s.rng } := by
  unfold pnrotCourse
  simp only [bind_eq_ok_iff, frameLength_ok_iff, phaseNoiseOperand_ok_iff, rotationOperand_ok_iff, symbolFrame_ok_iff,
    require_ok_iff]
  constructor
  · rintro ⟨n, ⟨h1, rfl⟩, pn, ⟨h2, rfl⟩, rot, ⟨h3, rfl⟩, xs, ⟨h4, h5⟩, _, h6, ys, h7, h8⟩
    rw [rotateFrame_ok_iff c _ _ _ xs h4] at h7
    rw [Bool.and_eq_true] at h6
    cases h8
    refine ⟨h1, h2, h3, h6.1, h6.2, xs, ys, h4, h7.1, h5, h7.2, ?_⟩
    rw [draws_state]
  · rintro ⟨h1, h2, h3, h6, h7, xs, ys, h4, h8, h5, h9, rfl⟩
    refine ⟨_, ⟨h1, rfl⟩, _, ⟨h2, rfl⟩, _, ⟨h3, rfl⟩, xs, ⟨h4, h5⟩, (), by rw [h6, h7]; rfl, ys,
      (rotateFrame_ok_iff c _ _ _ xs h4 _ _).mpr ⟨h8, h9⟩, ?_⟩
    rw [draws_state]; rfl

/-- When PNROT stops, and how, in the order of 60_exceptions.md R114. -/
theorem pnrotCourse_error_iff (c : Config) (s : State) (e : Stop) :
    pnrotCourse c s = .error e ↔
      (s.maxFrame < s.flen.toNat ∧ e = .block .frameLength nopos) ∨
      (s.flen.toNat ≤ s.maxFrame ∧
        ((isFinite s.pnParam && decide (0 ≤ units s.pnParam)) = false ∨ isFinite s.rotDeg = false) ∧
        e = .block .invalidParameter nopos) ∨
      (s.flen.toNat ≤ s.maxFrame ∧ (isFinite s.pnParam && decide (0 ≤ units s.pnParam)) = true ∧
        isFinite s.rotDeg = true ∧ ∃ k < s.flen.toNat, symbolOperand s k = .error e ∧
        ∀ j < k, ∃ x, s.symEntry j = some x ∧ x.isFinite = true) ∨
      (s.flen.toNat ≤ s.maxFrame ∧ (isFinite s.pnParam && decide (0 ≤ units s.pnParam)) = true ∧
        isFinite s.rotDeg = true ∧ ∃ xs : List Point, xs.length = s.flen.toNat ∧
        (∀ (k : Nat) (h : k < xs.length), s.symEntry k = some xs[k] ∧ xs[k].isFinite = true) ∧
        (((isFinite (phaseScale s.pnParam) && isFinite (rotationAngle s.rotDeg)) = false ∧
            e = .block .numericOverflow nopos) ∨
         ((isFinite (phaseScale s.pnParam) && isFinite (rotationAngle s.rotDeg)) = true ∧
          ∃ (k : Nat) (h : k < xs.length),
            (isFinite (mul (phaseScale s.pnParam) (drawAt c s.rng k)) = false ∨
              (rotated c (mul (phaseScale s.pnParam) (drawAt c s.rng k)) (rotationAngle s.rotDeg) xs[k]).isFinite
                = false) ∧
            e = .block .numericOverflow (posWord k) ∧
            ∀ (j : Nat) (hj : j < k), isFinite (mul (phaseScale s.pnParam) (drawAt c s.rng j)) = true ∧
              (rotated c (mul (phaseScale s.pnParam) (drawAt c s.rng j)) (rotationAngle s.rotDeg)
                (xs[j]'(Nat.lt_trans hj h))).isFinite = true))) := by
  unfold pnrotCourse
  simp only [bind_eq_error_iff, frameLength_ok_iff, frameLength_error_iff, phaseNoiseOperand_ok_iff,
    phaseNoiseOperand_error_iff, rotationOperand_ok_iff, rotationOperand_error_iff,
    symbolFrame_ok_iff, symbolFrame_error_iff, require_ok_iff, require_error_iff]
  constructor
  · rintro (h | ⟨n, ⟨h1, rfl⟩, h | ⟨pn, ⟨h2, rfl⟩, h | ⟨rot, ⟨h3, rfl⟩, h | ⟨xs, ⟨h4, h5⟩, h⟩⟩⟩⟩)
    · exact .inl h
    · exact .inr (.inl ⟨h1, .inl h.1, h.2⟩)
    · exact .inr (.inl ⟨h1, .inr h.1, h.2⟩)
    · exact .inr (.inr (.inl ⟨h1, h2, h3, h⟩))
    · refine .inr (.inr (.inr ⟨h1, h2, h3, xs, h4, h5, ?_⟩))
      rcases h with ⟨h6, h⟩ | ⟨_, h6, h | ⟨ys, _, h⟩⟩
      · exact .inl ⟨h6, h.symm⟩
      · exact .inr ⟨h6, (rotateFrame_error_iff c _ _ _ xs h4 _ e).mp h⟩
      · cases h
  · rintro (h | ⟨h1, h, h'⟩ | ⟨h1, h2, h3, h⟩ | ⟨h1, h2, h3, xs, h4, h5, h⟩)
    · exact .inl h
    · by_cases hp : (isFinite s.pnParam && decide (0 ≤ units s.pnParam)) = true
      · exact .inr ⟨_, ⟨h1, rfl⟩, .inr ⟨_, ⟨hp, rfl⟩, .inl ⟨h.resolve_left (by rw [hp]; decide), h'⟩⟩⟩
      · exact .inr ⟨_, ⟨h1, rfl⟩, .inl ⟨by simpa using hp, h'⟩⟩
    · exact .inr ⟨_, ⟨h1, rfl⟩, .inr ⟨_, ⟨h2, rfl⟩, .inr ⟨_, ⟨h3, rfl⟩, .inl h⟩⟩⟩
    · refine .inr ⟨_, ⟨h1, rfl⟩, .inr ⟨_, ⟨h2, rfl⟩, .inr ⟨_, ⟨h3, rfl⟩, .inr ⟨xs, ⟨h4, h5⟩, ?_⟩⟩⟩⟩
      rcases h with ⟨h6, h⟩ | ⟨h6, h⟩
      · exact .inl ⟨h6, h.symm⟩
      · exact .inr ⟨(), h6, .inl ((rotateFrame_error_iff c _ _ _ xs h4 _ e).mpr h)⟩

/-! ### SEED -/

theorem seedCourse_eq (c : Config) (s : State) : seedCourse c s = .ok { s with rng := c.seedFn s.seed } := rfl

end Sys2Proof.Machine
end

