-- ==== Sys2Proof/Laws/Exec.lean ====
section
/-! SUPPORT. What `exec` can do, said once for the six commands (10_state.md R44; 60_exceptions.md R112 to R117): when it
answers a next state, that state is one of a few shapes. Proofs about every command cite `exec_next`. -/

namespace Sys2Proof.Machine

/-- The state a command has reached when it succeeds, before its bookkeeping: its write set (R44) and no more. -/
inductive Effect (i : Instr) (s : State) : State → Prop where
  /-- MAP, AWGN, PNROT: the frame of SYM, with finite values or points of the ROM; RNG too for AWGN and PNROT. -/
  | sym (ys : List Point) (r : RngState) : s.flen.toNat ≤ s.maxFrame → ys.length = s.flen.toNat →
      (∀ y ∈ ys, y.isFinite = true ∨ ∃ p, y = s.cmap.point p) →
      (i = .map ∧ r = s.rng ∨ i = .awgn ∧ r = rngAfter Config.chip (2 * s.flen.toNat) s.rng ∨
        i = .pnrot ∧ r = rngAfter Config.chip s.flen.toNat s.rng) →
      Effect i s { s with mem := s.mem.writeSymFrame 0 ys, rng := r }
  /-- DEMAP, SLICE: the frame of IDX, with table positions. -/
  | idx (ps : List (Fin 16)) : s.flen.toNat ≤ s.maxFrame → ps.length = s.flen.toNat → (i = .demap ∨ i = .slice) →
      Effect i s { s with mem := s.mem.writeIdxFrame 0 ps }
  /-- SEED: RNG. -/
  | seed : i = .seed → Effect i s { s with rng := Config.chip.seedFn s.seed }

/-- The error codes a command can report beside 0 (R116). -/
def raisedBy : Instr → List BlockError
  | .map => [.frameLength, .invalidIndex]
  | .demap => [.frameLength, .nonFiniteInput, .notAConstellationPoint]
  | .slice => [.frameLength, .nonFiniteInput]
  | .awgn => [.frameLength, .invalidParameter, .nonFiniteInput, .degenerateSignal, .numericOverflow]
  | .pnrot => [.frameLength, .invalidParameter, .nonFiniteInput, .numericOverflow]
  | .seed => []

/-- The block errors a command can end in, with the ERRPOS each reports (R32, R111, R116). -/
inductive Raises (i : Instr) (s : State) : BlockError → Word → Prop where
  | frame (e : BlockError) : e ∈ raisedBy i →
      e ∈ [BlockError.degenerateSignal, .frameLength, .invalidParameter, .numericOverflow] → Raises i s e nopos
  | element (e : BlockError) (k : Nat) : e ∈ raisedBy i →
      e ∈ [BlockError.invalidIndex, .nonFiniteInput, .notAConstellationPoint, .numericOverflow] →
      k < s.flen.toNat → s.flen.toNat ≤ s.maxFrame → Raises i s e (posWord k)

theorem symbolOperand_block {s : State} {k : Nat} {e : BlockError} {pos : Word}
    (h : symbolOperand s k = .error (.block e pos)) : e = .nonFiniteInput ∧ pos = posWord k := by
  rw [symbolOperand_error_iff] at h
  rcases h with ⟨_, h⟩ | ⟨_, _, _, h⟩ <;> cases h
  exact ⟨rfl, rfl⟩

/-- Every command ends through `finish`. -/
theorem exec_eq_finish (i : Instr) (s : State) : ∃ r, exec i s = finish (opcodeOf i) s r := by
  cases i
  · exact ⟨mapCourse s, rfl⟩
  · exact ⟨demapCourse s, rfl⟩
  · exact ⟨sliceCourse s, rfl⟩
  · exact ⟨awgnCourse Config.chip s, rfl⟩
  · exact ⟨pnrotCourse Config.chip s, rfl⟩
  · exact ⟨seedCourse Config.chip s, rfl⟩

theorem mapCourse_effect {s t : State} (h : mapCourse s = .ok t) : Effect .map s t := by
  obtain ⟨h1, ps, h2, _, rfl⟩ := (mapCourse_ok_iff s t).mp h
  refine .sym (ps.map s.cmap.point) s.rng h1 (by simpa using h2) (fun y hy => ?_) (.inl ⟨rfl, rfl⟩)
  obtain ⟨p, _, rfl⟩ := List.mem_map.mp hy
  exact .inr ⟨p, rfl⟩

theorem mapCourse_raises {s : State} {e : BlockError} {pos : Word} (h : mapCourse s = .error (.block e pos)) :
    Raises .map s e pos := by
  rcases (mapCourse_error_iff s _).mp h with ⟨_, h⟩ | ⟨h1, k, hk, h, _⟩
  · cases h; exact .frame _ (by decide) (by decide)
  · rcases (indexOperand_error_iff s k _).mp h with ⟨_, h⟩ | ⟨_, _, _, h⟩ <;> cases h
    exact .element _ k (by decide) (by decide) hk h1

theorem demapCourse_effect {s t : State} (h : demapCourse s = .ok t) : Effect .demap s t := by
  obtain ⟨h1, ps, h2, _, rfl⟩ := (demapCourse_ok_iff s t).mp h
  exact .idx ps h1 h2 (.inl rfl)

theorem demapCourse_raises {s : State} {e : BlockError} {pos : Word} (h : demapCourse s = .error (.block e pos)) :
    Raises .demap s e pos := by
  rcases (demapCourse_error_iff s _).mp h with ⟨_, h⟩ | ⟨h1, k, hk, h, _⟩
  · cases h; exact .frame _ (by decide) (by decide)
  · rcases (pointOperand_error_iff s k _).mp h with h | ⟨_, _, _, _, h⟩
    · obtain ⟨rfl, rfl⟩ := symbolOperand_block h
      exact .element _ k (by decide) (by decide) hk h1
    · cases h; exact .element _ k (by decide) (by decide) hk h1

theorem sliceCourse_effect {s t : State} (h : sliceCourse s = .ok t) : Effect .slice s t := by
  obtain ⟨h1, xs, h2, _, rfl⟩ := (sliceCourse_ok_iff s t).mp h
  exact .idx _ h1 (by simpa using h2) (.inr rfl)

theorem sliceCourse_raises {s : State} {e : BlockError} {pos : Word} (h : sliceCourse s = .error (.block e pos)) :
    Raises .slice s e pos := by
  rcases (sliceCourse_error_iff s _).mp h with ⟨_, h⟩ | ⟨h1, k, hk, h, _⟩
  · cases h; exact .frame _ (by decide) (by decide)
  · obtain ⟨rfl, rfl⟩ := symbolOperand_block h
    exact .element _ k (by decide) (by decide) hk h1

theorem awgnCourse_effect {s t : State} (h : awgnCourse Config.chip s = .ok t) : Effect .awgn s t := by
  obtain ⟨h1, _, _, xs, ys, h2, h3, _, _, _, _, h4, rfl⟩ := (awgnCourse_ok_iff _ s t).mp h
  refine .sym ys _ h1 h3 (fun y hy => ?_) (.inr (.inl ⟨rfl, rfl⟩))
  obtain ⟨k, hk, rfl⟩ := List.mem_iff_getElem.mp hy
  exact .inl (h4 k hk (by omega)).2

theorem awgnCourse_raises {s : State} {e : BlockError} {pos : Word}
    (h : awgnCourse Config.chip s = .error (.block e pos)) : Raises .awgn s e pos := by
  rcases (awgnCourse_error_iff _ s _).mp h with ⟨_, h⟩ | ⟨_, _, h⟩ | ⟨h1, _, k, hk, h, _⟩ | ⟨h1, _, xs, hx, _, h⟩
  · cases h; exact .frame _ (by decide) (by decide)
  · cases h; exact .frame _ (by decide) (by decide)
  · obtain ⟨rfl, rfl⟩ := symbolOperand_block h
    exact .element _ k (by decide) (by decide) hk h1
  · rcases h with ⟨_, h⟩ | ⟨_, _, h⟩ | ⟨_, _, _, h⟩ | ⟨_, _, _, _, h⟩ | ⟨_, _, _, _, k, hk, _, h, _⟩ <;> cases h
    iterate 4 exact .frame _ (by decide) (by decide)
    exact .element _ k (by decide) (by decide) (by omega) h1

theorem pnrotCourse_effect {s t : State} (h : pnrotCourse Config.chip s = .ok t) : Effect .pnrot s t := by
  obtain ⟨h1, _, _, _, _, xs, ys, h2, h3, _, h4, rfl⟩ := (pnrotCourse_ok_iff _ s t).mp h
  refine .sym ys _ h1 h3 (fun y hy => ?_) (.inr (.inr ⟨rfl, rfl⟩))
  obtain ⟨k, hk, rfl⟩ := List.mem_iff_getElem.mp hy
  exact .inl (h4 k hk (by omega)).2.2

theorem pnrotCourse_raises {s : State} {e : BlockError} {pos : Word}
    (h : pnrotCourse Config.chip s = .error (.block e pos)) : Raises .pnrot s e pos := by
  rcases (pnrotCourse_error_iff _ s _).mp h with ⟨_, h⟩ | ⟨_, _, h⟩ | ⟨h1, _, _, k, hk, h, _⟩ | ⟨h1, _, _, xs, hx, _, h⟩
  · cases h; exact .frame _ (by decide) (by decide)
  · cases h; exact .frame _ (by decide) (by decide)
  · obtain ⟨rfl, rfl⟩ := symbolOperand_block h
    exact .element _ k (by decide) (by decide) hk h1
  · rcases h with ⟨_, h⟩ | ⟨_, k, hk, _, h, _⟩
    · cases h; exact .frame _ (by decide) (by decide)
    · cases h; exact .element _ k (by decide) (by decide) (by omega) h1

/-- Everything a command that answers a next state can have done. -/
theorem exec_next {i : Instr} {s t : State} (h : exec i s = .next t) :
    (∃ u, Effect i s u ∧ t = u.report (opcodeOf i) 0 nopos) ∨
    ∃ e pos, Raises i s e pos ∧ t = s.report (opcodeOf i) e.code pos := by
  cases i
  · exact (finish_next h).imp (fun ⟨u, hu, ht⟩ => ⟨u, mapCourse_effect hu, ht⟩)
      (fun ⟨e, pos, hu, ht⟩ => ⟨e, pos, mapCourse_raises hu, ht⟩)
  · exact (finish_next h).imp (fun ⟨u, hu, ht⟩ => ⟨u, demapCourse_effect hu, ht⟩)
      (fun ⟨e, pos, hu, ht⟩ => ⟨e, pos, demapCourse_raises hu, ht⟩)
  · exact (finish_next h).imp (fun ⟨u, hu, ht⟩ => ⟨u, sliceCourse_effect hu, ht⟩)
      (fun ⟨e, pos, hu, ht⟩ => ⟨e, pos, sliceCourse_raises hu, ht⟩)
  · exact (finish_next h).imp (fun ⟨u, hu, ht⟩ => ⟨u, awgnCourse_effect hu, ht⟩)
      (fun ⟨e, pos, hu, ht⟩ => ⟨e, pos, awgnCourse_raises hu, ht⟩)
  · exact (finish_next h).imp (fun ⟨u, hu, ht⟩ => ⟨u, pnrotCourse_effect hu, ht⟩)
      (fun ⟨e, pos, hu, ht⟩ => ⟨e, pos, pnrotCourse_raises hu, ht⟩)
  · cases h
    exact .inl ⟨_, .seed rfl, rfl⟩

end Sys2Proof.Machine
end

