-- ==== Sys2Proof/Laws/Params.lean ====
section
/-! SUPPORT. The parameters as `Machine/Params.lean` gives them, one lemma for each of their cases. -/

namespace Sys2Proof

open Binary64

theorem gauss_finite (c : Config) (r : RngState) : Binary64.isFinite (c.gauss r).1 = true := by
  unfold Config.gauss
  dsimp only
  split
  · assumption
  · exact isFinite_zero _

theorem Machine.drawAt_finite (c : Config) (r : RngState) (k : Nat) :
    Binary64.isFinite (Machine.drawAt c r k) = true := gauss_finite c _

theorem tame_of_range {x v : F64} (h : Binary64.isFinite v = true ∨ v = infinity false) : tame x v = v := by
  unfold tame
  rcases h with h | h <;> simp [h]

theorem tame_range {x : F64} (v : F64) (hx : Binary64.isFinite x = true) :
    Binary64.isFinite (tame x v) = true ∨ tame x v = infinity false := by
  unfold tame
  split
  · exact .inl (isFinite_zero _)
  · next h =>
    simp only [hx, Bool.true_and, Bool.not_eq_true', Bool.or_eq_false_iff, not_and, Bool.not_eq_false, beq_iff_eq] at h
    cases hv : Binary64.isFinite v
    · exact .inr (h hv)
    · exact .inl rfl

theorem cos_of_isZero (c : Config) {x : F64} (h : isZero x = true) : c.cos x = f1 := if_pos h

theorem sin_of_isZero (c : Config) {x : F64} (h : isZero x = true) : c.sin x = x := if_pos h

theorem cis_of_isZero (c : Config) {x : F64} (h : isZero x = true) : c.cis x = { i := f1, q := x } := by
  rw [Config.cis, cos_of_isZero c h, sin_of_isZero c h]

theorem pow10_of_exact (c : Config) {x v : F64} (h : pow10Exact x = some v) : c.pow10 x = v := by
  unfold Config.pow10; rw [h]

theorem pow10_of_not_exact (c : Config) {x : F64} (h : pow10Exact x = none) : c.pow10 x = tame x (c.pow10Raw x) := by
  unfold Config.pow10; rw [h]

theorem pow10Exact_eq_some {x v : F64} (h : pow10Exact x = some v) :
    ∃ k ≤ 22, x = Binary64.ofNat k ∧ v = Binary64.ofNat (10 ^ k) := by
  unfold pow10Exact at h
  rw [Option.map_eq_some_iff] at h
  obtain ⟨k, hk, rfl⟩ := h
  have h1 := List.find?_some hk
  have h2 := List.mem_range.mp (List.mem_of_find?_eq_some hk)
  exact ⟨k, by omega, beq_iff_eq.mp h1, rfl⟩

end Sys2Proof
end

