-- ==== Sys2Proof/WellFormed.lean ====
section
/-! DEFINITION. Well-formedness: of the fields of a command word (30_encoding.md R66 to R70), and of a command. A
command has no operands, so each of the six is well formed; what can be ill formed is the word. -/

namespace Sys2Proof

/-- RSVD is 0 (R66). -/
def CommandFields.reservedClear (f : CommandFields) : Bool := f.rsvd == 0

/-- The opcode is assigned (R68). -/
def CommandFields.opcodeAssigned (f : CommandFields) : Bool := (instrOfOpcode f.opc).isSome

/-- The fields are those of one of the six commands (R67). -/
def CommandFields.wellFormed (f : CommandFields) : Bool := f.reservedClear && f.opcodeAssigned

/-- A command is well formed when the fields of its word are. -/
def Instr.wellFormed (i : Instr) : Bool := (commandFields (encode i)).wellFormed

/-- A host access has the one legal shape of a bus access: 8 bytes wide at a multiple of 8 (20_memory.md R51, R52). -/
def HostAccess.wellFormed : HostAccess → Bool
  | .read width offset => width == 8 && offset % 8 == 0
  | .write width offset _ => width == 8 && offset % 8 == 0
  | .reset => true

end Sys2Proof
end

