-- ==== Sys2Proof/Laws/PerInstr.lean ====
section
/-! SUPPORT. Facts about each command as syntax: its word is its own, whole and legal (30_encoding.md R66 to R71). -/

namespace Sys2Proof.Laws

/-- A command's word is well formed, decodes to the command, and so do its bytes on the bus. -/
def RoundTrip.Statement (i : Instr) : Prop :=
  i.wellFormed = true ∧ decode (encode i) = .ok i ∧ decodeBytes (bytesOfWord (encode i)) = .ok i

theorem RoundTrip.map : RoundTrip.Statement .map := by unfold RoundTrip.Statement; decide +kernel
theorem RoundTrip.demap : RoundTrip.Statement .demap := by unfold RoundTrip.Statement; decide +kernel
theorem RoundTrip.slice : RoundTrip.Statement .slice := by unfold RoundTrip.Statement; decide +kernel
theorem RoundTrip.awgn : RoundTrip.Statement .awgn := by unfold RoundTrip.Statement; decide +kernel
theorem RoundTrip.pnrot : RoundTrip.Statement .pnrot := by unfold RoundTrip.Statement; decide +kernel
theorem RoundTrip.seed : RoundTrip.Statement .seed := by unfold RoundTrip.Statement; decide +kernel

end Sys2Proof.Laws
end

