-- ==== Sys2Proof/Laws/Step.lean ====
section
/-! SUPPORT. What one step can do, said once: the ways a host access can lead to a next state. -/

namespace Sys2Proof.Machine

/-- The next states of one access performed in state `s` (20_memory.md R55, R56; 70_reset_and_hazards.md R137). -/
inductive Accessed (s : State) : State → Prop where
  | read (v : Word) : Accessed s { s with returned := s.returned ++ [v] }
  | flen (v : Word) : Accessed s { s with flen := v }
  | snrDb (v : Word) : Accessed s { s with snrDb := v }
  | pnParam (v : Word) : Accessed s { s with pnParam := v }
  | rotDeg (v : Word) : Accessed s { s with rotDeg := v }
  | seed (v : Word) : Accessed s { s with seed := v }
  | half (offset : Nat) (v : Word) (tgt : Target) : targetOf s.maxFrame offset = some tgt → tgt.offset = offset →
      ((∃ k, tgt = .idx k) ∨ (∃ k, tgt = .symI k) ∨ ∃ k, tgt = .symQ k) →
      Accessed s { s with mem := s.mem.writeWord offset v }
  | command (i : Instr) (t : State) : exec i s = .next t → Accessed s t
  | illegal (w : Word) : Accessed s (s.illegalCommand w)
  | reset : Accessed s s.resetEvent

theorem targetOf_idx {maxFrame k : Nat} (hk : k < maxFrame) :
    targetOf maxFrame (idxOffset k) = some (.idx k) := by
  unfold targetOf idxOffset
  iterate 9 rw [if_neg (by omega)]
  rw [if_pos (by omega)]
  congr 2; omega

theorem targetOf_symI {maxFrame k : Nat} (hk : k < maxFrame) (hm : maxFrame ≤ 4096) :
    targetOf maxFrame (symIOffset k) = some (.symI k) := by
  unfold targetOf symIOffset
  iterate 10 rw [if_neg (by omega)]
  rw [if_pos (by omega)]
  congr 2; omega

theorem targetOf_symQ {maxFrame k : Nat} (hk : k < maxFrame) (hm : maxFrame ≤ 4096) :
    targetOf maxFrame (symQOffset k) = some (.symQ k) := by
  unfold targetOf symQOffset
  iterate 11 rw [if_neg (by omega)]
  rw [if_pos (by omega)]
  congr 2; omega

/-- A target's offset is the one it was found at. -/
theorem offset_targetOf {maxFrame offset : Nat} {tgt : Target} (h : targetOf maxFrame offset = some tgt) :
    tgt.offset = offset := by
  unfold targetOf at h
  by_cases h0 : offset = 0x00000
  · rw [if_pos h0] at h; cases h; exact h0.symm
  rw [if_neg h0] at h
  by_cases h1 : offset = 0x00008
  · rw [if_pos h1] at h; cases h; exact h1.symm
  rw [if_neg h1] at h
  by_cases h2 : offset = 0x00010
  · rw [if_pos h2] at h; cases h; exact h2.symm
  rw [if_neg h2] at h
  by_cases h3 : offset = 0x00018
  · rw [if_pos h3] at h; cases h; exact h3.symm
  rw [if_neg h3] at h
  by_cases h4 : offset = 0x00020
  · rw [if_pos h4] at h; cases h; exact h4.symm
  rw [if_neg h4] at h
  by_cases h5 : offset = 0x00028
  · rw [if_pos h5] at h; cases h; exact h5.symm
  rw [if_neg h5] at h
  by_cases h6 : offset = 0x00030
  · rw [if_pos h6] at h; cases h; exact h6.symm
  rw [if_neg h6] at h
  by_cases h7 : offset = 0x00038
  · rw [if_pos h7] at h; cases h; exact h7.symm
  rw [if_neg h7] at h
  by_cases h8 : offset = 0x00040
  · rw [if_pos h8] at h; cases h; exact h8.symm
  rw [if_neg h8] at h
  split at h
  · cases h; show idxOffset _ = _; unfold idxOffset; omega
  split at h
  · cases h; show symIOffset _ = _; unfold symIOffset; omega
  split at h
  · cases h; show symQOffset _ = _; unfold symQOffset; omega
  cases h

theorem performAccess_next {s t : State} {a : HostAccess} (h : performAccess s a = .next t) : Accessed s t := by
  unfold performAccess at h
  split at h
  · split at h <;> cases h
    exact .read _
  · next width offset v =>
    unfold busWrite at h
    split at h
    · cases h
    · next tgt htgt =>
      unfold busTarget at htgt
      split at htgt
      · cases htgt
      · split at htgt <;> cases htgt
        next htgt =>
        have ho := offset_targetOf htgt
        unfold writeTarget at h
        split at h <;> try (cases h; done)
        · unfold runCommandWord at h
          split at h
          · exact .command _ _ h
          · cases h; exact .illegal _
        · cases h; exact .flen _
        · cases h; exact .snrDb _
        · cases h; exact .pnParam _
        · cases h; exact .rotDeg _
        · cases h; exact .seed _
        · cases h; subst ho; exact .half _ _ _ htgt rfl (.inl ⟨_, rfl⟩)
        · cases h; subst ho; exact .half _ _ _ htgt rfl (.inr (.inl ⟨_, rfl⟩))
        · cases h; subst ho; exact .half _ _ _ htgt rfl (.inr (.inr ⟨_, rfl⟩))
  · cases h; exact .reset

/-- Everything a step that answers a next state can have done. -/
theorem step_next {s t : State} (h : step s = .next t) :
    (s.port = [] ∧ t = s) ∨ ∃ a rest, s.port = a :: rest ∧ Accessed { s with port := rest } t := by
  unfold step at h
  split at h
  · next hp => cases h; exact .inl ⟨hp, rfl⟩
  · next a rest hp => exact .inr ⟨a, rest, hp, performAccess_next h⟩

end Sys2Proof.Machine
end

