-- ==== Sys2Proof/Tests/Slice0.lean ====
section
/-! SUPPORT. Small tests, with expected values from spec/95_test_vectors.md and the rules; and for every statement of
Obligations.lean that has hypotheses, a witness that meets them all, clause by clause. -/

namespace Sys2Proof.Tests

open Sys2Proof.Machine Sys2Proof.Claims

set_option Elab.async false

/-! ### Small states -/

/-- CONST_REF in the ROM (40_mapper.md R75). -/
def refRom : Rom := Vector.ofFn constRef

/-- The reset state of a block with MAX_FRAME = 4096 and CONST_REF; the generator state is 0. -/
def base : State := { State.reset with caps := 4096, cmap := refRom, rng := 0 }

/-- `base` with these host accesses waiting. -/
def waiting (as : List HostAccess) : State := { base with port := as }

def idxMem (m : Memory) (k : Nat) : List Word → Memory
  | [] => m
  | v :: vs => idxMem (m.writeWord (idxOffset k) v) (k + 1) vs

/-- `base` with a frame of indices. -/
def withIdx (vs : List Word) : State := { base with flen := BitVec.ofNat 64 vs.length, mem := idxMem [] 0 vs }

/-- `base` with a frame of symbols. -/
def withSym (xs : List Point) : State :=
  { base with flen := BitVec.ofNat 64 xs.length, mem := Memory.writeSymFrame [] 0 xs }

/-- A configuration whose generator returns these draws, then zeros. -/
def drawing (ds : List F64) : Config := { (default : Config) with gaussRaw := fun r => (ds.getD r 0, r + 1) }

def answersNext : Host.Outcome State Fault Refusal → Bool
  | .next _ => true
  | _ => false

/-- STATUS after an access that led to a next state. -/
def statusOf : Host.Outcome State Fault Refusal → Option Word
  | .next t => some t.status
  | _ => none

def errposOf : Host.Outcome State Fault Refusal → Option Word
  | .next t => some t.errpos
  | _ => none

def symOf (k : Nat) : Host.Outcome State Fault Refusal → Option Point
  | .next t => t.symEntry k
  | _ => none

def idxOf (k : Nat) : Host.Outcome State Fault Refusal → Option Word
  | .next t => t.idxEntry k
  | _ => none

def faultOf : Host.Outcome State Fault Refusal → Option Fault
  | .fault f => some f
  | _ => none

theorem next_of_answersNext {o : Host.Outcome State Fault Refusal} (h : answersNext o = true) : ∃ t, o = .next t := by
  cases o with
  | next t => exact ⟨t, rfl⟩
  | fault => cases h
  | refused => cases h

/-- 1.0 - 1.0j and the like, in the order the source writes them. -/
def pt (i q : F64) : Point := { i := i, q := q }

def one' : F64 := 0x3FF0000000000000
def mone : F64 := 0xBFF0000000000000
def inf : F64 := 0x7FF0000000000000
def qnan : F64 := 0x7FF8000000000000

/-- The frame [(1,1), (-1,-1)] of 95_test_vectors.md 2.6. -/
def pair : List Point := [pt one' one', pt mone mone]

/-! ### Words and well-formedness -/

theorem test_decode_map : decode 0x0000000000000001#64 = .ok .map := by decide
theorem test_decode_demap : decode 0x0000000000000002#64 = .ok .demap := by decide
theorem test_decode_slice : decode 0x0000000000000003#64 = .ok .slice := by decide
theorem test_decode_awgn : decode 0x0000000000000004#64 = .ok .awgn := by decide
theorem test_decode_pnrot : decode 0x0000000000000005#64 = .ok .pnrot := by decide
theorem test_decode_seed : decode 0x0000000000000006#64 = .ok .seed := by decide
theorem test_decode_reserved : decode 0x0000000000000101#64 = .error (.reservedBits 1) := by decide
theorem test_decode_unassigned : decode 0x00000000000000FF#64 = .error (.unassignedOpcode 0xFF) := by decide
theorem test_decode_short : decodeBytes [3, 0, 0, 0] = .error (.notOneWord 4) := by decide
theorem test_table_word : decodeTableWord 64 4 = some .awgn := by decide +kernel

theorem test_wf_reserved_refused : CommandFields.reservedClear { opc := 1, rsvd := 1 } = false := by decide
theorem test_wf_opcode_refused : CommandFields.opcodeAssigned { opc := 7, rsvd := 0 } = false := by decide
theorem test_wf_fields_refused : CommandFields.wellFormed { opc := 0, rsvd := 0 } = false := by decide
theorem test_wf_width_refused : HostAccess.wellFormed (.read 4 0x18) = false := by decide
theorem test_wf_alignment_refused : HostAccess.wellFormed (.write 8 0x1C 0) = false := by decide
theorem test_wf_commands : ∀ i : Instr, i.wellFormed = true := by intro i; cases i <;> decide +kernel

/-! ### The commands (95_test_vectors.md 2.3 to 2.8) -/

theorem test_map_points : symOf 1 (exec .map (withIdx [0, 5, 15])) = some (pt mone mone) := by decide +kernel
theorem test_map_lowest_bad_index :
    statusOf (exec .map (withIdx [0xFFFFFFFFFFFFFFFF, 20, 2])) = some 0x0101 ∧
    errposOf (exec .map (withIdx [0xFFFFFFFFFFFFFFFF, 20, 2])) = some 0 := by decide +kernel

theorem test_demap_indices :
    idxOf 0 (exec .demap (withSym [pt 0x4008000000000000 0x4008000000000000, pt mone one'])) = some 15 := by decide +kernel
theorem test_demap_near_point :
    statusOf (exec .demap (withSym [pt one' one', pt one' 0x3FF0000000000001])) = some 0x0208 ∧
    errposOf (exec .demap (withSym [pt one' one', pt one' 0x3FF0000000000001])) = some 1 := by decide +kernel

/-- (2, 0.5) is a tie on I and goes to 10; (2.0000000000000004, 0) goes to 13. -/
theorem test_slice_tie :
    idxOf 0 (exec .slice (withSym [pt 0x4000000000000000 0x3FE0000000000000])) = some 10 := by decide +kernel
theorem test_slice_edges :
    idxOf 0 (exec .slice (withSym [pt 0x4000000000000001 0, pt 0x7E37E43C8800759C 0xFE37E43C8800759C])) = some 13 ∧
    idxOf 1 (exec .slice (withSym [pt 0x4000000000000001 0, pt 0x7E37E43C8800759C 0xFE37E43C8800759C])) = some 12 := by
  decide +kernel

/-- Vector A1: P = 2, N0 = 2, sigma = 1, draws 0.5, -0.25, 1.0, 0.0. -/
theorem test_awgn_a1 :
    symOf 0 (awgnWith (drawing [0x3FE0000000000000, 0xBFD0000000000000, one', 0]) (withSym pair))
      = some (pt 0x3FF8000000000000 0x4000000000000000) ∧
    symOf 1 (awgnWith (drawing [0x3FE0000000000000, 0xBFD0000000000000, one', 0]) (withSym pair))
      = some (pt 0xBFF4000000000000 mone) := by decide +kernel
/-- Vector A13: the second symbol is not finite. -/
theorem test_awgn_a13 :
    statusOf (exec .awgn (withSym [pt one' one', pt inf mone])) = some 0x0407 ∧
    errposOf (exec .awgn (withSym [pt one' one', pt inf mone])) = some 1 := by decide +kernel

/-- Vector P2, with the COS and SIN of PI64 that it names. -/
def rotatingHalf : Config :=
  { (default : Config) with cosRaw := fun _ => mone, sinRaw := fun _ => 0x3CA1A62633145C07 }
theorem test_pnrot_p2 :
    symOf 0 (pnrotWith rotatingHalf { withSym [pt one' one', pt 0x4008000000000000 mone] with rotDeg := Binary64.f180 })
      = some (pt 0xBFF0000000000001 0xBFEFFFFFFFFFFFFF) := by decide +kernel
/-- Vector P7: a negative PN_PARAM. -/
theorem test_pnrot_p7 : statusOf (exec .pnrot { withSym pair with pnParam := mone }) = some 0x0506 := by decide +kernel

theorem test_seed : exec .seed { base with seed := 42 } =
    .next { base with seed := 42, rng := Config.chip.seedFn 42, status := 0x0600 } := by rfl

/-! ### The bus (95_test_vectors.md 2.2) -/

theorem test_bus_faults :
    [faultOf (step (waiting [.read 8 0x00])), faultOf (step (waiting [.write 8 0x08 0])),
      faultOf (step (waiting [.read 4 0x18])), faultOf (step (waiting [.read 8 0x1C])),
      faultOf (step (waiting [.read 8 0x48])), faultOf (step (waiting [.read 8 0x18000])),
      faultOf (step (waiting [.read 8 0x10000]))]
      = [some .busError, some .busError, some .busError, some .busError, some .busError, some .busError,
        some .unwrittenRead] := by decide +kernel
/-- Program 1 to its first read of STATUS and of SYM[1]. -/
theorem test_bus_program1 :
    (runProgram base (frameScript 3 ++ [wr (.idx 0) 0, wr (.idx 1) 5, wr (.idx 2) 15, cmd .map, rd .status]
      ++ rdsym 1)).returned = [0x0100, mone, mone] := by decide +kernel

/-! ### Witnesses: decoding and the port -/

theorem witness_DecodeExactlyTheCommandWords : decode 6 = .ok .seed := by decide

theorem witness_StepRunsTheDecodedCommand :
    (waiting [.write 8 0x00000 1]).port = .write 8 0x00000 1 :: [] ∧ decode 1 = .ok .map := ⟨rfl, by decide⟩

/-- One word for each of the three ways to be illegal. -/
theorem witness_IllegalWordsReported :
    (waiting [.write 8 0x00000 0x101]).port = .write 8 0x00000 0x101 :: [] ∧ (0x101 : Word).extractLsb' 8 56 ≠ 0 ∧
    (0x000 : Word).extractLsb' 0 8 = 0x00#8 ∧ 0x07#8 ≤ (0x007 : Word).extractLsb' 0 8 := by
  refine ⟨rfl, ?_⟩; decide

theorem witness_BadWidthOrAlignmentFaults :
    ((4 ≠ 8 ∨ 0x18 % 8 ≠ 0) ∧ (waiting [.read 4 0x18]).port = .read 4 0x18 :: []) ∧
    ((8 ≠ 8 ∨ 0x1C % 8 ≠ 0) ∧ (waiting [.write 8 0x1C 0]).port = .write 8 0x1C 0 :: []) := by
  refine ⟨⟨?_, rfl⟩, ?_, rfl⟩ <;> decide

theorem base_maxFrame : base.maxFrame = 4096 := by decide +kernel

theorem base_capsLegal : base.capsLegal := by unfold State.capsLegal; decide +kernel

theorem refRom_legal : Rom.legal refRom := ⟨Equiv.refl _, by decide +kernel⟩

/-- The edges of the three unmapped ranges of a block of 4096 entries. -/
theorem witness_UnmappedOffsetsFault :
    ∀ offset ∈ [0x00048, 0x0FFF8, 0x18000, 0x1FFF8, 0x30000, 0x3FFF8],
      (waiting [.read 8 offset]).capsLegal ∧
      (0x00048 ≤ offset ∧ offset ≤ 0x0FFFF ∨
        0x10000 + 8 * (waiting [.read 8 offset]).maxFrame ≤ offset ∧ offset ≤ 0x1FFFF ∨
        0x20000 + 16 * (waiting [.read 8 offset]).maxFrame ≤ offset ∧ offset ≤ 0x3FFFF) ∧
      (waiting [.read 8 offset]).port = .read 8 offset :: [] := by
  intro offset h
  refine ⟨base_capsLegal, ?_, rfl⟩
  have hm : (waiting [.read 8 offset]).maxFrame = 4096 := base_maxFrame
  rw [hm]
  revert offset; decide

theorem witness_ReadOnlyAndWriteOnlyFault :
    (waiting [.write 8 0x00008 0]).port = .write 8 0x00008 0 :: [] ∧
    (waiting [.write 8 0x00010 0]).port = .write 8 0x00010 0 :: [] ∧
    (waiting [.write 8 0x00040 0]).port = .write 8 0x00040 0 :: [] ∧
    (waiting [.read 8 0x00000]).port = .read 8 0x00000 :: [] := ⟨rfl, rfl, rfl, rfl⟩

/-- A register; a written entry; the last half of SYM, unwritten. -/
theorem witness_HostReadReturns :
    base.capsLegal ∧ (waiting [.read 8 0x00040]).port = .read 8 0x00040 :: [] ∧
    (0 < (withIdx [5]).maxFrame ∧ (withIdx [5]).mem.readWord 0x10000 = some 5) ∧
    (4095 < base.maxFrame ∧ 0x2FFF8 = 0x20008 + 16 * 4095 ∧ base.mem.readWord 0x2FFF8 = none ∧
      (waiting [.read 8 0x2FFF8]).port = .read 8 0x2FFF8 :: []) := by
  refine ⟨base_capsLegal, rfl, ?_, ?_, rfl, rfl, rfl⟩
  all_goals decide +kernel

theorem witness_HostWriteStores :
    (waiting [.write 8 0x17FF8 7]).capsLegal ∧ 4095 < (waiting [.write 8 0x17FF8 7]).maxFrame ∧
    0x17FF8 = 0x10000 + 8 * 4095 ∧ (waiting [.write 8 0x17FF8 7]).port = .write 8 0x17FF8 7 :: [] ∧
    (waiting [.write 8 0x00018 7]).port = .write 8 0x00018 7 :: [] :=
  ⟨base_capsLegal, by decide +kernel, rfl, rfl, rfl⟩

/-- A window at 0x40000: its last offset, and the addresses just below and just above it. -/
theorem witness_WindowOfTheBus :
    0x3FFFF < 0x40000 ∧ 0x3FFFF < Config.base { (default : Config) with baseBlock := 1 } ∧
    Config.base { (default : Config) with baseBlock := 1 } + 0x40000 ≤ 0x80000 := by decide +kernel

theorem witness_WindowOfTheBus_base : 0x7FC0000 % 0x40000 = 0 := by decide

theorem witness_IdleHoldsState : (waiting []).port = [] := rfl

theorem witness_FaultRecordNeverCleared :
    step (waiting [.read 4 0x18]) = .fault .busError ∧ ({ base with faultRecord := [.busError] } : State).faultRecord ≠ [] :=
  ⟨rfl, by simp⟩

theorem witness_ResetEventFromAnyState : (waiting [.reset]).port = .reset :: [] := rfl

/-! ### Witnesses: invariants -/

theorem base_legal : base.Legal := by
  refine ⟨base_capsLegal, refRom_legal, rfl, fun a h => absurd rfl h, ⟨by decide, ?_, ?_⟩, .inl rfl⟩
  · show ((0 : Word).extractLsb' 0 8).toNat ≤ 9; decide
  · show ((0 : Word).extractLsb' 0 8) ≠ _; decide

/-- A legal state whose next step writes to SYM. -/
theorem witness_StepKeepsLegal :
    (waiting [.write 8 0x20000 7]).Legal ∧ ∃ t, step (waiting [.write 8 0x20000 7]) = .next t :=
  ⟨⟨base_legal.1, base_legal.2, base_legal.3, base_legal.4, base_legal.5, base_legal.6⟩,
    next_of_answersNext (by decide +kernel)⟩

theorem witness_ConstantsNeverChange : ∃ t, step (waiting [.reset]) = .next t := ⟨_, rfl⟩

/-! ### Witnesses: MAP, DEMAP, SLICE and the round trips -/

/-- An order of the points other than CONST_REF: its reverse. -/
theorem witness_ConstellationIsBijection : BijectionOntoPoints fun p => constRef p.rev := by
  unfold BijectionOntoPoints ExistsUnique; decide +kernel

theorem witness_ForwardAndInverse :
    Rom.legal refRom ∧ (pt 0 one').isFinite = true ∧ ∀ a b : Fin 4, pt 0 one' ≠ ⟨level a, level b⟩ :=
  ⟨refRom_legal, by decide +kernel, by decide +kernel⟩

/-- The table positions of the first MAP vector. -/
def positions : Nat → Fin 16
  | 0 => 0
  | 1 => 5
  | _ => 15

theorem withIdx_legal : (withIdx [0, 5, 15]).capsLegal ∧ Rom.legal (withIdx [0, 5, 15]).cmap := ⟨base_capsLegal, refRom_legal⟩

theorem witness_MapResult :
    (withIdx [0, 5, 15]).flen.toNat ≤ (withIdx [0, 5, 15]).maxFrame ∧
    ∀ k < (withIdx [0, 5, 15]).flen.toNat, (withIdx [0, 5, 15]).idxEntry k = some (BitVec.ofNat 64 (positions k).val) := by
  decide +kernel

theorem witness_MapThenSlice :
    (withIdx [0, 5, 15]).capsLegal ∧ Rom.legal (withIdx [0, 5, 15]).cmap ∧
    (withIdx [0, 5, 15]).flen.toNat ≤ (withIdx [0, 5, 15]).maxFrame ∧
    ∀ k < (withIdx [0, 5, 15]).flen.toNat, (withIdx [0, 5, 15]).idxEntry k = some (BitVec.ofNat 64 (positions k).val) :=
  ⟨withIdx_legal.1, withIdx_legal.2, witness_MapResult⟩

/-- A frame one too long; an unwritten entry after a legal one; the values -1 and 16 at the last place of a frame. -/
theorem witness_MapErrors :
    base.maxFrame < ({ base with flen := 4097 } : State).flen.toNat ∧
    (({ withIdx [15] with flen := 2 } : State).flen.toNat ≤ base.maxFrame ∧
      (∀ j < 1, ∃ v, ({ withIdx [15] with flen := 2 } : State).idxEntry j = some v ∧ 0 ≤ v.toInt ∧ v.toInt ≤ 15) ∧
      ({ withIdx [15] with flen := 2 } : State).idxEntry 1 = none) ∧
    ((withIdx [0xFFFFFFFFFFFFFFFF]).idxEntry 0 = some 0xFFFFFFFFFFFFFFFF ∧ (0xFFFFFFFFFFFFFFFF : Word).toInt < 0) ∧
    ((withIdx [16]).idxEntry 0 = some 16 ∧ 15 < (16 : Word).toInt) := by
  refine ⟨by decide +kernel, ⟨by decide +kernel, fun j hj => ?_, by decide +kernel⟩, by decide +kernel, by decide +kernel⟩
  obtain rfl : j = 0 := by omega
  exact ⟨15, by decide +kernel⟩

theorem witness_DemapResult :
    (withSym pair).flen.toNat ≤ (withSym pair).maxFrame ∧ Rom.legal (withSym pair).cmap ∧
    ∀ k < (withSym pair).flen.toNat, (withSym pair).symEntry k = some (pair.getD k default) ∧
      (pair.getD k default).isFinite = true ∧
      Binary64.units (pair.getD k default).i = Binary64.units ((withSym pair).cmap.point (if k = 0 then 10 else 5)).i ∧
      Binary64.units (pair.getD k default).q = Binary64.units ((withSym pair).cmap.point (if k = 0 then 10 else 5)).q :=
  ⟨by decide +kernel, refRom_legal, by decide +kernel⟩

/-- A frame one too long; then, after a first symbol that passes: unwritten, infinite, and the finite (1, 2). -/
theorem witness_DemapErrors :
    base.maxFrame < ({ base with flen := 4097 } : State).flen.toNat ∧
    (∀ s ∈ [({ withSym [pt one' one'] with flen := 2 } : State), withSym [pt one' one', pt inf one'],
        withSym [pt one' one', pt one' Binary64.f2]],
      s.flen.toNat = 2 ∧ s.flen.toNat ≤ s.maxFrame ∧
      ∀ j < 1, ∃ x p, s.symEntry j = some x ∧ x.isFinite = true ∧
        Binary64.units x.i = Binary64.units (s.cmap.point p).i ∧
        Binary64.units x.q = Binary64.units (s.cmap.point p).q) ∧
    ({ withSym [pt one' one'] with flen := 2 } : State).symEntry 1 = none ∧
    ((withSym [pt one' one', pt inf one']).symEntry 1 = some (pt inf one') ∧ (pt inf one').isFinite = false) ∧
    ((withSym [pt one' one', pt one' Binary64.f2]).symEntry 1 = some (pt one' Binary64.f2) ∧
      (pt one' Binary64.f2).isFinite = true ∧
      ∀ p : Fin 16, ¬(Binary64.units (pt one' Binary64.f2).i = Binary64.units (refRom.point p).i ∧
        Binary64.units (pt one' Binary64.f2).q = Binary64.units (refRom.point p).q)) := by
  refine ⟨by decide +kernel, fun s hs => ?_, by decide +kernel, by decide +kernel, by decide +kernel⟩
  simp only [List.mem_cons, List.not_mem_nil, or_false] at hs
  rcases hs with rfl | rfl | rfl
  all_goals
    refine ⟨by decide +kernel, by decide +kernel, fun j hj => ?_⟩
    obtain rfl : j = 0 := by omega
    exact ⟨pt one' one', 10, by decide +kernel⟩

/-- A frame that `withSym` wrote is a frame. -/
theorem hasFrame_pair : HasFrame (withSym pair) pair := by unfold HasFrame; decide +kernel

/-- Used for every statement that needs a written, finite frame. -/
theorem witness_SliceResult : (withSym pair).flen.toNat ≤ (withSym pair).maxFrame ∧ HasFrame (withSym pair) pair :=
  ⟨by decide +kernel, hasFrame_pair⟩

/-- SYM[1] unwritten, and SYM[1] not a number, after a first symbol that passes. -/
theorem witness_SliceErrors :
    (base.maxFrame < ({ base with flen := 4097 } : State).flen.toNat) ∧
    (1 < ({ withSym [pt one' one'] with flen := 2 } : State).flen.toNat ∧
      CleanBefore { withSym [pt one' one'] with flen := 2 } 1 ∧
      ({ withSym [pt one' one'] with flen := 2 } : State).symEntry 1 = none) ∧
    (CleanBefore (withSym [pt one' one', pt qnan 0]) 1 ∧
      (withSym [pt one' one', pt qnan 0]).symEntry 1 = some (pt qnan 0) ∧ (pt qnan 0).isFinite = false) := by
  refine ⟨by decide +kernel, ⟨by decide +kernel, fun j hj => ?_, by decide +kernel⟩, fun j hj => ?_, by decide +kernel,
    by decide +kernel⟩
  all_goals
    obtain rfl : j = 0 := by omega
    exact ⟨pt one' one', by decide +kernel⟩

theorem witness_NearestPerAxis : Rom.legal refRom := refRom_legal

theorem witness_TiesUnderConstRef : ∀ p, refRom.point p = constRef p := by decide +kernel

theorem witness_MapAndDemapRoundTrips :
    ((withIdx [0, 5, 15]).capsLegal ∧ Rom.legal (withIdx [0, 5, 15]).cmap ∧
      (withIdx [0, 5, 15]).flen.toNat ≤ (withIdx [0, 5, 15]).maxFrame ∧
      ∀ k < (withIdx [0, 5, 15]).flen.toNat,
        (withIdx [0, 5, 15]).idxEntry k = some (BitVec.ofNat 64 (positions k).val)) ∧
    ((withSym pair).capsLegal ∧ Rom.legal (withSym pair).cmap ∧ (withSym pair).flen.toNat ≤ (withSym pair).maxFrame ∧
      ∀ k < (withSym pair).flen.toNat,
        (withSym pair).symEntry k = some ((withSym pair).cmap.point (if k = 0 then 10 else 5))) :=
  ⟨witness_MapThenSlice, base_capsLegal, refRom_legal, by decide +kernel, by decide +kernel⟩

/-! ### Witnesses: AWGN -/

/-- The loops of R93 on the frame (1, 1), (-1, -1): the sums 0, 1, 0 and 0, 2, 4. -/
def pairSum : Nat → F64
  | 1 => one'
  | _ => 0

def pairAcc : Nat → F64
  | 0 => 0
  | 1 => Binary64.f2
  | _ => 0x4010000000000000

theorem witness_PowerFollowsTheLoops :
    pairSum 0 = 0x0000000000000000 ∧
    (∀ (k : Nat) (h : k < pair.length), pairSum (k + 1) = Binary64.add (pairSum k) pair[k].i ∧
      pairSum (k + 1) = Binary64.add (pairSum k) pair[k].q) ∧
    (0 : F64) = Binary64.div (pairSum pair.length) (Binary64.ofNat pair.length) ∧
    pairAcc 0 = 0x0000000000000000 ∧
    ∀ (k : Nat) (h : k < pair.length), pairAcc (k + 1) = Binary64.add (pairAcc k)
      (Binary64.add (Binary64.mul (Binary64.sub pair[k].i 0) (Binary64.sub pair[k].i 0))
        (Binary64.mul (Binary64.sub pair[k].q 0) (Binary64.sub pair[k].q 0))) := by
  decide +kernel

/-- The power of the statements, written out as R93 has it, is the model's. -/
theorem signalPower_eq (xs : List Point) : signalPower xs = power xs := rfl

/-- Vector A2: P = 2, SNR 20 dB, N0 = 0.02, sigma = 0.1, in the chip's own configuration. -/
def noisyPair : State := { withSym pair with snrDb := 0x4034000000000000 }

theorem chip_factor_at_20dB : snrFactor Config.chip noisyPair.snrDb = 0x4059000000000000 :=
  pow10_of_exact _ (by decide +kernel)

/-- A draw is below 2^1024, so a tenth of it is below 2^1021. -/
theorem tenth_of_draw {g : F64} (hg : Binary64.isFinite g = true) :
    Binary64.isFinite (Binary64.mul 0x3FB999999999999A g) = true ∧
    (Binary64.units (Binary64.mul 0x3FB999999999999A g)).natAbs
      ≤ (Binary64.units (0x7FC0000000000000 : F64)).natAbs := by
  refine Binary64.mul_le (by decide +kernel) hg (by decide +kernel) ?_
  have hk : Binary64.magBits g ≤ Binary64.infMag - 1 := by
    have := (Binary64.isFinite_iff g).mp hg
    omega
  rw [Binary64.natAbs_units g]
  refine le_trans (Nat.mul_le_mul_left _ (Binary64.magUnits_strictMono.monotone hk)) ?_
  decide +kernel

theorem add_tenth_of_draw {x g : F64} (hx : x = one' ∨ x = mone) (hg : Binary64.isFinite g = true) :
    Binary64.isFinite (Binary64.add x (Binary64.mul 0x3FB999999999999A g)) = true := by
  obtain ⟨h1, h2⟩ := tenth_of_draw hg
  have hxf : Binary64.isFinite x = true := by rcases hx with rfl | rfl <;> decide +kernel
  have hx1 : (Binary64.units x).natAbs + (Binary64.units (0x7FC0000000000000 : F64)).natAbs
      ≤ (Binary64.units (0x7FD0000000000000 : F64)).natAbs := by
    rcases hx with rfl | rfl <;> decide +kernel
  have hlo : Binary64.units (0xFFD0000000000000 : F64) = -Binary64.units (0x7FD0000000000000 : F64) := by decide +kernel
  have hpos : 0 ≤ Binary64.units (0x7FD0000000000000 : F64) := by decide +kernel
  exact (Binary64.add_between hxf h1 (lo := 0xFFD0000000000000) (hi := 0x7FD0000000000000) (by decide +kernel)
    (by decide +kernel) (by omega) (by omega)).1

theorem witness_AwgnResult :
    noisyPair.flen.toNat ≤ noisyPair.maxFrame ∧ noisyPair.flen.toNat ≠ 0 ∧ HasFrame noisyPair pair ∧
    Binary64.isFinite noisyPair.snrDb = true ∧ Binary64.isFinite (signalPower pair) = true ∧
    Binary64.isZero (signalPower pair) = false ∧
    Binary64.isFinite (noiseN0 Config.chip (signalPower pair) noisyPair.snrDb) = true ∧
    ∀ (k : Nat) (h : k < pair.length),
      (noisy (sigma Config.chip (signalPower pair) noisyPair.snrDb) pair[k] (drawAt Config.chip noisyPair.rng k)
        (drawAt Config.chip noisyPair.rng (noisyPair.flen.toNat + k))).isFinite = true := by
  refine ⟨by decide +kernel, by decide +kernel, hasFrame_pair, by decide +kernel, by decide +kernel, by decide +kernel,
    ?_, fun k h => ?_⟩
  · rw [noiseN0, chip_factor_at_20dB]; decide +kernel
  · have hs : sigma Config.chip (signalPower pair) noisyPair.snrDb = 0x3FB999999999999A := by
      rw [sigma, noiseN0, chip_factor_at_20dB]; decide +kernel
    have hp : pair[k] = pt one' one' ∨ pair[k] = pt mone mone := by
      have : k = 0 ∨ k = 1 := by simp only [pair, List.length_cons, List.length_nil] at h; omega
      rcases this with rfl | rfl
      · exact .inl rfl
      · exact .inr rfl
    rw [hs, Point.isFinite, Bool.and_eq_true]
    rcases hp with hp | hp <;> rw [hp]
    · exact ⟨add_tenth_of_draw (.inl rfl) (drawAt_finite _ _ _), add_tenth_of_draw (.inl rfl) (drawAt_finite _ _ _)⟩
    · exact ⟨add_tenth_of_draw (.inr rfl) (drawAt_finite _ _ _), add_tenth_of_draw (.inr rfl) (drawAt_finite _ _ _)⟩

/-- The frames of the clauses: too long; SNR_DB infinite; SYM[1] unwritten; SYM[1] infinite; empty; P overflows; P = 0. -/
theorem witness_AwgnErrors :
    base.maxFrame < ({ base with flen := 4097 } : State).flen.toNat ∧
    Binary64.isFinite ({ withSym pair with snrDb := inf } : State).snrDb = false ∧
    (CleanBefore { withSym [pt one' one'] with flen := 2 } 1 ∧
      ({ withSym [pt one' one'] with flen := 2 } : State).symEntry 1 = none) ∧
    (CleanBefore (withSym [pt one' one', pt inf mone]) 1 ∧
      (withSym [pt one' one', pt inf mone]).symEntry 1 = some (pt inf mone) ∧ (pt inf mone).isFinite = false) ∧
    (HasFrame base [] ∧ base.flen.toNat = 0) ∧
    (HasFrame (withSym [pt 0x7FE1CCF385EBC8A0 0, pt 0xFFE1CCF385EBC8A0 0])
        [pt 0x7FE1CCF385EBC8A0 0, pt 0xFFE1CCF385EBC8A0 0] ∧
      Binary64.isFinite (signalPower [pt 0x7FE1CCF385EBC8A0 0, pt 0xFFE1CCF385EBC8A0 0]) = false) ∧
    (HasFrame (withSym [pt one' one', pt one' one']) [pt one' one', pt one' one'] ∧
      Binary64.isZero (signalPower [pt one' one', pt one' one']) = true) := by
  refine ⟨by decide +kernel, by decide +kernel, ⟨fun j hj => ?_, by decide +kernel⟩, ⟨fun j hj => ?_, by decide +kernel⟩,
    ?_, ?_, ?_⟩
  · obtain rfl : j = 0 := by omega
    exact ⟨pt one' one', by decide +kernel⟩
  · obtain rfl : j = 0 := by omega
    exact ⟨pt one' one', by decide +kernel⟩
  all_goals unfold HasFrame; decide +kernel

/-- A configuration whose POW10 is `v` wherever R8 leaves it open. -/
def powering (v : F64) : Config := { drawing [] with pow10Raw := fun _ => v }

/-- Vector A7 (-4000 dB): a POW10 of +0 there, one of -0, and a subnormal one, by which N0 is not finite. -/
theorem witness_AwgnErrors_noise_level :
    HasFrame { withSym pair with snrDb := 0xC0AF400000000000 } pair ∧
    Binary64.isFinite (signalPower pair) = true ∧ Binary64.isZero (signalPower pair) = false ∧
    snrFactor (powering 0) 0xC0AF400000000000 = 0x0000000000000000 ∧
    snrFactor (powering 0x8000000000000000) 0xC0AF400000000000 = 0x8000000000000000 ∧
    Binary64.isFinite (noiseN0 (powering 1) (signalPower pair) 0xC0AF400000000000) = false := by
  unfold HasFrame; decide +kernel

/-- A POW10 of 0.01 and the draws 0, then the greatest finite value: sigma is 10 and the second output overflows. -/
def loud : Config :=
  { drawing [0, 0x7FEFFFFFFFFFFFFF] with pow10Raw := fun _ => 0x3F847AE147AE147B }

theorem witness_AwgnErrors_output :
    HasFrame { withSym pair with snrDb := 0xC034000000000000 } pair ∧
    Binary64.isFinite (noiseN0 loud (signalPower pair) 0xC034000000000000) = true ∧
    (noisy (sigma loud (signalPower pair) 0xC034000000000000) pair[0] (drawAt loud 0 0) (drawAt loud 0 2)).isFinite = true ∧
    (noisy (sigma loud (signalPower pair) 0xC034000000000000) pair[1] (drawAt loud 0 1) (drawAt loud 0 3)).isFinite = false := by
  unfold HasFrame; decide +kernel

/-- A run that succeeds and one that stops. -/
theorem witness_AwgnAtomic : (∃ t, exec .awgn noisyPair = .next t) ∧ ∃ t, exec .awgn base = .next t := by
  refine ⟨?_, next_of_answersNext (by decide +kernel)⟩
  have h := witness_AwgnResult
  simp only [signalPower_eq] at h
  obtain ⟨h1, h2, h3, h4, h5, h6, h7, h8⟩ := h
  have hlen : pair.length = noisyPair.flen.toNat := h3.1
  have hc := (awgnCourse_ok_iff Config.chip noisyPair _).mpr
    ⟨h1, h4, h2, pair, (List.range 2).map fun k => noisy (sigma Config.chip (power pair) noisyPair.snrDb)
        (pair.getD k default) (drawAt Config.chip noisyPair.rng k)
        (drawAt Config.chip noisyPair.rng (noisyPair.flen.toNat + k)),
      hlen, by simp [← hlen, pair], h3.2, h5, h6, h7, fun k hk hk' => ?_, rfl⟩
  · exact ⟨_, (congrArg (finish (opcodeOf .awgn) noisyPair) hc).trans (finish_ok _ _ _)⟩
  · rw [List.getElem_map, List.getElem_range, List.getD_eq_getElem _ _ hk']
    exact ⟨rfl, h8 k hk'⟩

theorem witness_AwgnOneSymbolDegenerate :
    (withSym [pt one' mone]).flen = 1 ∧ 1 ≤ (withSym [pt one' mone]).maxFrame ∧
    Binary64.isFinite (withSym [pt one' mone]).snrDb = true ∧
    (withSym [pt one' mone]).symEntry 0 = some (pt one' mone) ∧ (pt one' mone).isFinite = true := by decide +kernel

theorem witness_EqualEntriesPowerZero :
    (pt 0x3FB999999999999A 0).isFinite = true ∧ 1 ≤ 3 ∧ 3 ≤ 4096 := by decide +kernel

/-- P = 2^-1074 and SNR 220 dB: N0 underflows to 0 (in the chip's own configuration). -/
def faint : List Point := [pt 0x1E60000000000000 0, pt 0x9E60000000000000 0]
def faintState : State := { withSym faint with snrDb := 0x406B800000000000 }

theorem witness_AwgnZeroNoiseKeepsValues :
    faintState.flen.toNat ≤ faintState.maxFrame ∧ faintState.flen.toNat ≠ 0 ∧ HasFrame faintState faint ∧
    Binary64.isFinite faintState.snrDb = true ∧ Binary64.isFinite (signalPower faint) = true ∧
    Binary64.isZero (signalPower faint) = false ∧
    Binary64.isZero (noiseN0 Config.chip (signalPower faint) faintState.snrDb) = true := by
  refine ⟨by decide +kernel, by decide +kernel, by unfold HasFrame; decide +kernel, by decide +kernel, by decide +kernel,
    by decide +kernel, ?_⟩
  rw [noiseN0, snrFactor, pow10_of_exact (v := Binary64.ofNat (10 ^ 22)) _ (by decide +kernel)]
  decide +kernel

/-- 4000 dB, and a POW10 that is +infinity there. -/
theorem witness_AwgnZeroNoiseKeepsValues_infinite :
    HasFrame { withSym pair with snrDb := 0x40AF400000000000 } pair ∧
    Binary64.isFinite (0x40AF400000000000 : F64) = true ∧ Binary64.isFinite (signalPower pair) = true ∧
    Binary64.isZero (signalPower pair) = false ∧
    snrFactor (powering inf) 0x40AF400000000000 = 0x7FF0000000000000 := by
  unfold HasFrame; decide +kernel

/-- Every draw 1.0 at 20 dB: the noise terms are 0.1. -/
def ones : Config := { (default : Config) with gaussRaw := fun r => (one', r) }

theorem hasFrame_unique {s : State} {xs ys : List Point} (hx : HasFrame s xs) (hy : HasFrame s ys) : xs = ys := by
  apply List.ext_getElem (by rw [hx.1, hy.1])
  intro k h1 h2
  exact Option.some.inj ((hx.2 k h1).1.symm.trans (hy.2 k h2).1)

theorem witness_HighSnrStability :
    Rom.legal noisyPair.cmap ∧
    (∀ k < noisyPair.flen.toNat, noisyPair.symEntry k = some (noisyPair.cmap.point (if k = 0 then 10 else 5))) ∧
    (∃ t, awgnCourse ones noisyPair = .ok t) ∧
    ∀ xs, HasFrame noisyPair xs → ∀ k < noisyPair.flen.toNat,
      2 * |Binary64.units (Binary64.mul (sigma ones (signalPower xs) noisyPair.snrDb) (drawAt ones noisyPair.rng k))|
        ≤ Binary64.one ∧
      Binary64.isFinite (Binary64.mul (sigma ones (signalPower xs) noisyPair.snrDb) (drawAt ones noisyPair.rng k)) = true ∧
      2 * |Binary64.units (Binary64.mul (sigma ones (signalPower xs) noisyPair.snrDb)
        (drawAt ones noisyPair.rng (noisyPair.flen.toNat + k)))| ≤ Binary64.one ∧
      Binary64.isFinite (Binary64.mul (sigma ones (signalPower xs) noisyPair.snrDb)
        (drawAt ones noisyPair.rng (noisyPair.flen.toNat + k))) = true := by
  refine ⟨refRom_legal, by decide +kernel, ?_, fun xs hxs => ?_⟩
  · cases h : awgnCourse ones noisyPair with
    | ok t => exact ⟨t, rfl⟩
    | error e =>
      have : (awgnCourse ones noisyPair).isOk = true := by decide +kernel
      rw [h] at this; cases this
  · rw [hasFrame_unique hxs hasFrame_pair]; decide +kernel

/-! ### Witnesses: PNROT -/

theorem eq_of_isZero {z : F64} (h : Binary64.isZero z = true) : z = 0 ∨ z = 0x8000000000000000 := by
  rw [← Binary64.pack_sign_magBits z, (Binary64.isZero_iff z).mp h]
  cases Binary64.sign z
  · exact .inl (by decide)
  · exact .inr (by decide)

/-- PN_PARAM = ROT_DEG = 0: every phase offset is +0 or -0, whose cosine and sine R8 gives. -/
theorem witness_PnrotResult :
    (withSym pair).flen.toNat ≤ (withSym pair).maxFrame ∧ HasFrame (withSym pair) pair ∧
    Binary64.isFinite (withSym pair).pnParam = true ∧ 0 ≤ Binary64.units (withSym pair).pnParam ∧
    Binary64.isFinite (withSym pair).rotDeg = true ∧
    (0 : F64) = Binary64.mul (withSym pair).pnParam (Binary64.div 0x400921FB54442D18 0x4066800000000000) ∧
    (0 : F64) = Binary64.div (Binary64.mul (withSym pair).rotDeg 0x400921FB54442D18) 0x4066800000000000 ∧
    Binary64.isFinite 0 = true ∧
    ∀ (k : Nat) (h : k < pair.length),
      Binary64.isFinite (Binary64.mul 0 (drawAt Config.chip (withSym pair).rng k)) = true ∧
      (turned Config.chip (Binary64.mul 0 (drawAt Config.chip (withSym pair).rng k)) 0 pair[k]).isFinite = true := by
  refine ⟨by decide +kernel, hasFrame_pair, by decide +kernel, by decide +kernel, by decide +kernel, by decide +kernel,
    by decide +kernel, by decide +kernel, fun k h => ?_⟩
  obtain ⟨hf, hz⟩ := Binary64.mul_zero_left (x := 0) (by decide +kernel)
    (drawAt_finite Config.chip (withSym pair).rng k)
  refine ⟨hf, ?_⟩
  change (cmul (cmul pair[k] (Config.chip.cis _)) (Config.chip.cis 0)).isFinite = true
  rw [cis_of_isZero Config.chip hz, cis_of_isZero Config.chip (x := 0) (by decide +kernel)]
  have key : ∀ x ∈ pair, (cmul (cmul x { i := Binary64.f1, q := 0 }) { i := Binary64.f1, q := 0 }).isFinite = true ∧
      (cmul (cmul x { i := Binary64.f1, q := 0x8000000000000000 }) { i := Binary64.f1, q := 0 }).isFinite = true := by
    decide +kernel
  rcases eq_of_isZero hz with hz | hz <;> rw [hz]
  · exact (key _ (List.getElem_mem h)).1
  · exact (key _ (List.getElem_mem h)).2

theorem witness_PnrotIdentity :
    (withSym pair).flen.toNat ≤ (withSym pair).maxFrame ∧ HasFrame (withSym pair) pair ∧
    ((withSym pair).pnParam = 0x0000000000000000 ∧ (withSym pair).rotDeg = 0x0000000000000000) ∧
    ({ withSym pair with pnParam := 0x8000000000000000, rotDeg := 0x8000000000000000 } : State).pnParam
      = 0x8000000000000000 :=
  ⟨by decide +kernel, hasFrame_pair, ⟨rfl, rfl⟩, rfl⟩

/-- Too long a frame; PN_PARAM negative, PN_PARAM infinite, ROT_DEG infinite; SYM[1] unwritten, SYM[1] not a number. -/
theorem witness_PnrotErrors :
    base.maxFrame < ({ base with flen := 4097 } : State).flen.toNat ∧
    (withSym pair).flen.toNat ≤ (withSym pair).maxFrame ∧
    Binary64.units ({ withSym pair with pnParam := mone } : State).pnParam < 0 ∧
    Binary64.isFinite ({ withSym pair with pnParam := inf } : State).pnParam = false ∧
    Binary64.isFinite ({ withSym pair with rotDeg := inf } : State).rotDeg = false ∧
    (CleanBefore { withSym [pt one' one'] with flen := 2 } 1 ∧
      ({ withSym [pt one' one'] with flen := 2 } : State).symEntry 1 = none) ∧
    (CleanBefore (withSym [pt one' one', pt qnan 0]) 1 ∧
      (withSym [pt one' one', pt qnan 0]).symEntry 1 = some (pt qnan 0) ∧ (pt qnan 0).isFinite = false) :=
  ⟨by decide +kernel, by decide +kernel, by decide +kernel, by decide +kernel, by decide +kernel,
    witness_SliceErrors.2.1.2, witness_SliceErrors.2.2⟩

/-- The greatest ROT_DEG: theta overflows. The greatest PN_PARAM and a great second draw: the second phase offset
overflows. A cosine of +infinity: the second output does. -/
theorem witness_PnrotErrors_overflow :
    HasFrame { withSym pair with rotDeg := 0x7FEFFFFFFFFFFFFF } pair ∧
    Binary64.isFinite (Binary64.div (Binary64.mul 0x7FEFFFFFFFFFFFFF 0x400921FB54442D18) 0x4066800000000000) = false ∧
    (Binary64.isFinite (Binary64.mul 0x7FEFFFFFFFFFFFFF (Binary64.div 0x400921FB54442D18 0x4066800000000000)) = true ∧
      Binary64.isFinite (Binary64.mul (Binary64.mul 0x7FEFFFFFFFFFFFFF (Binary64.div 0x400921FB54442D18 0x4066800000000000))
        (drawAt (drawing [0, 0x7FEFFFFFFFFFFFFF]) 0 1)) = false) ∧
    (turned { drawing [0, one'] with cosRaw := fun _ => inf } 1 0 pair[1]).isFinite = false := by
  unfold HasFrame; decide +kernel

theorem witness_PnrotAtomic :
    (∃ t, exec .pnrot base = .next t) ∧ ∃ t, exec .pnrot { withSym pair with rotDeg := inf } = .next t :=
  ⟨next_of_answersNext (by decide +kernel), next_of_answersNext (by decide +kernel)⟩

/-! ### Witnesses: all commands -/

/-- A command that succeeds, one that stops, and a word that is none. -/
theorem witness_Bookkeeping :
    (∃ t, runCommandWord (withIdx [0, 5, 15]) 1 = .next t) ∧ (∃ t, runCommandWord (withIdx [16]) 1 = .next t) ∧
    ∃ t, runCommandWord base 7 = .next t :=
  ⟨next_of_answersNext (by decide +kernel), next_of_answersNext (by decide +kernel),
    next_of_answersNext (by decide +kernel)⟩

theorem witness_ErrorTable :
    (∃ t, exec .demap (withSym pair) = .next t) ∧ 8 ∈ codesOf .demap ∧ ∀ i, (7 : Word) ≠ encode i :=
  ⟨next_of_answersNext (by decide +kernel), by decide, fun i => by cases i <;> decide⟩

/-- Codes 1, 7, 8; code 9 without an element; code 0. -/
theorem witness_ErrorPosition :
    statusOf (exec .map (withIdx [16])) = some 0x0101 ∧
    statusOf (exec .slice (withSym [pt one' one', pt qnan 0])) = some 0x0307 ∧
    statusOf (exec .demap (withSym [pt one' Binary64.f2])) = some 0x0208 ∧
    statusOf (exec .pnrot { withSym pair with rotDeg := 0x7FEFFFFFFFFFFFFF }) = some 0x0509 ∧
    statusOf (exec .slice (withSym pair)) = some 0x0300 := by decide +kernel

theorem witness_OnlyFiniteValuesWritten :
    (Rom.legal (withIdx [0, 5, 15]).cmap ∧ statusOf (exec .map (withIdx [0, 5, 15])) = some 0x0100) ∧
    (Rom.legal (withSym pair).cmap ∧ statusOf (exec .slice (withSym pair)) = some 0x0300) :=
  ⟨⟨refRom_legal, by decide +kernel⟩, refRom_legal, by decide +kernel⟩

theorem witness_WriteSets :
    (∃ t, exec .map (withIdx [0, 5, 15]) = .next t) ∧ (∃ t, exec .slice (withSym pair) = .next t) ∧
    ∃ t, exec .seed base = .next t :=
  ⟨next_of_answersNext (by decide +kernel), next_of_answersNext (by decide +kernel),
    next_of_answersNext (by decide +kernel)⟩

/-- Two states that differ in everything a command does not read. -/
theorem witness_CommandsDependOnOperandsOnly :
    ∀ i, SameOperands i (withSym pair) { withSym pair with status := 0x0304, errpos := 0, returned := [1] } := by
  intro i
  cases i <;> simp only [SameOperands] <;> repeat' constructor
  all_goals first | rfl | exact fun _ _ => rfl

/-! ### Witnesses: arithmetic and parameters -/

theorem witness_ToF64Exact : (4096 : Nat) ≤ 4096 := le_refl _

theorem witness_ArithmeticRoundsToNearest :
    Binary64.isFinite one' = true ∧ Binary64.isFinite Binary64.f10 = true ∧ Binary64.isZero Binary64.f10 = false := by
  decide +kernel

/-- Sums that overflow: to +infinity, to -infinity, and exactly at 2^1024 - 2^970; and one just below it. -/
theorem witness_ArithmeticRoundsToNearest_overflow :
    Binary64.add 0x7FEFFFFFFFFFFFFF 0x7FEFFFFFFFFFFFFF = 0x7FF0000000000000 ∧
    Binary64.add 0xFFEFFFFFFFFFFFFF 0xFFEFFFFFFFFFFFFF = 0xFFF0000000000000 ∧
    Binary64.add 0x7FEFFFFFFFFFFFFF 0x7C90000000000000 = 0x7FF0000000000000 ∧
    Binary64.add 0x7FEFFFFFFFFFFFFF 0x7C8FFFFFFFFFFFFF = 0x7FEFFFFFFFFFFFFF := by decide +kernel

/-- The parts of the greatest finite value, of 2^-1074, of an infinity and of a NaN. -/
theorem witness_PatternsAndValues :
    ((0x7FEFFFFFFFFFFFFF : F64).extractLsb' 52 11).toNat = 2046 ∧ ((1 : F64).extractLsb' 52 11).toNat = 0 ∧
    ((inf : F64).extractLsb' 52 11).toNat = 2047 ∧ ((qnan : F64).extractLsb' 0 52).toNat ≠ 0 := by decide +kernel

/-- A NaN; an infinity with a value, a zero, an infinity of its own and of the other sign; a value over a zero; a zero
sum, product and quotient; the square roots of a NaN, a zero and a negative value. -/
theorem witness_SpecialOperands :
    Binary64.isNaN qnan = true ∧ Binary64.isInf inf = true ∧ Binary64.isInf 0xFFF0000000000000 = true ∧
    Binary64.isFinite mone = true ∧ Binary64.isZero mone = false ∧ Binary64.isZero 0x8000000000000000 = true ∧
    Binary64.units one' + Binary64.units mone = 0 ∧ Binary64.isZero (Binary64.mul 1 mone) = false ∧
    Binary64.isZero (Binary64.mul 1 1) = true ∧ Binary64.isZero (Binary64.div 1 Binary64.f10) = true ∧
    Binary64.sign mone = true := by decide +kernel

theorem witness_SqrtRoundsToNearest :
    Binary64.isFinite Binary64.f2 = true ∧ 0 ≤ Binary64.units Binary64.f2 ∧ Binary64.isFinite one' = true := by
  decide +kernel

/-- Three functions with the properties of R8. -/
theorem witness_TranscendentalProperties :
    InRange (Config.cos default) ∧ InRange (Config.sin default) ∧ InRange (Config.pow10 default) ∧
    Config.cos default 0x0000000000000000 = 0x3FF0000000000000 ∧
    Config.cos default 0x8000000000000000 = 0x3FF0000000000000 ∧
    Config.sin default 0x0000000000000000 = 0x0000000000000000 ∧
    Config.sin default 0x8000000000000000 = 0x8000000000000000 ∧
    ∀ k ≤ 22, Config.pow10 default (Binary64.ofNat k) = Binary64.ofNat (10 ^ k) := by
  have range : ∀ x v : F64, Binary64.isFinite x = true →
      Binary64.isFinite (tame x v) = true ∨ tame x v = 0x7FF0000000000000 := fun x v hx => tame_range v hx
  refine ⟨fun x hx => ?_, fun x hx => ?_, fun x hx => ?_, by decide +kernel, by decide +kernel, by decide +kernel,
    by decide +kernel, by decide +kernel⟩
  · unfold Config.cos
    split
    · exact .inl Binary64.isFinite_f1
    · exact range _ _ hx
  · unfold Config.sin
    split
    · exact .inl hx
    · exact range _ _ hx
  · unfold Config.pow10
    split
    · next v hv =>
      obtain ⟨k, hk, _, rfl⟩ := pow10Exact_eq_some hv
      have : ∀ k ≤ 22, Binary64.isFinite (Binary64.ofNat (10 ^ k)) = true := by decide +kernel
      exact .inl (this k hk)
    · exact range _ _ hx

/-- The smallest and the greatest MAX_FRAME, and a generator that counts. -/
theorem witness_CapacityAndGeneratorProperties :
    (1 ≤ 1 ∧ 1 ≤ 4096) ∧ (1 ≤ 4096 ∧ 4096 ≤ 4096) ∧
    ∀ r : RngState, Binary64.isFinite ((fun r => (one', r + 1) : RngState → F64 × RngState) r).1 = true :=
  ⟨by decide, by decide, fun _ => Binary64.isFinite_f1⟩

end Sys2Proof.Tests
end

section
/-! PROOFS. More of the binary64 operators: patterns written as literals, values that are exact, and the rounding of a
signed quotient. -/

namespace Sys2Proof.Binary64

/-! ### Patterns as literals -/

theorem pack_eq_pack_iff {a b : Bool} {k j : Nat} (hk : k < 2 ^ 63) (hj : j < 2 ^ 63) :
    pack a k = pack b j ↔ a = b ∧ k = j := by
  constructor
  · intro h
    have hs := congrArg sign h
    have hm := congrArg magBits h
    rw [sign_pack a hk, sign_pack b hj] at hs
    rw [magBits_pack a hk, magBits_pack b hj] at hm
    exact ⟨hs, hm⟩
  · rintro ⟨rfl, rfl⟩; rfl

theorem infMag_lt : infMag < 2 ^ 63 := by unfold infMag; omega

theorem infinity_eq (b : Bool) : infinity b = if b = true then 0xFFF0000000000000 else 0x7FF0000000000000 := by
  cases b <;> rfl

theorem zero_eq (b : Bool) : zero b = if b = true then 0x8000000000000000 else 0x0000000000000000 := by
  cases b <;> rfl

theorem eq_zero_of_isZero {x : F64} (h : isZero x = true) : x = zero (sign x) := by
  rw [zero, ← (isZero_iff x).mp h, pack_sign_magBits]

theorem eq_infinity_of_isInf {x : F64} (h : isInf x = true) : x = infinity (sign x) := by
  have hm : magBits x = infMag := by simpa [isInf] using h
  rw [infinity, ← hm, pack_sign_magBits]

theorem isNaN_nan : isNaN nan = true := by decide

theorem isNaN_of_isInf {x : F64} (h : isInf x = true) : isNaN x = false := by
  simp only [isInf, isNaN, decide_eq_true_eq, decide_eq_false_iff_not] at *; omega

theorem isZero_of_isInf {x : F64} (h : isInf x = true) : isZero x = false := by
  have hm : magBits x = infMag := by simpa [isInf] using h
  simp [isZero, hm, infMag]

@[simp] theorem sign_neg (x : F64) : sign (neg x) = !sign x := (neg_toNat x).1

@[simp] theorem isNaN_neg (x : F64) : isNaN (neg x) = isNaN x := by unfold isNaN; rw [(neg_toNat x).2]

@[simp] theorem isInf_neg (x : F64) : isInf (neg x) = isInf x := by unfold isInf; rw [(neg_toNat x).2]

/-! ### Values that are exact -/

theorem one_eq : one = 2 ^ 1074 := by unfold one; rfl

/-- Every whole number of at most 53 significant bits is the value of a magnitude pattern. -/
theorem exists_magUnits_eq (p : Nat) {m : Nat} (hm : m < 2 ^ 53) :
    ∃ k < p * 2 ^ 52 + 2 ^ 53, magUnits k = m * 2 ^ p := by
  induction p generalizing m with
  | zero => exact ⟨m, by omega, by simpa using magUnits_shift (s := 0) hm.le (.inl rfl)⟩
  | succ p ih =>
    rcases Nat.lt_or_ge m (2 ^ 52) with h | h
    · have hb : p * 2 ^ 52 + 2 ^ 53 ≤ (p + 1) * 2 ^ 52 + 2 ^ 53 := by omega
      obtain ⟨k, hk, e⟩ := ih (m := 2 * m) (by omega)
      exact ⟨k, hk.trans_le hb, by rw [e]; ring⟩
    · exact ⟨(p + 1) * 2 ^ 52 + m, by omega, magUnits_shift hm.le (.inr h)⟩

/-- toF64 of R17, where it is exact: at most 53 significant bits and no overflow. -/
theorem ofNat_exact {m p : Nat} (hm : m < 2 ^ 53) (hp : p ≤ 900) :
    isFinite (ofNat (m * 2 ^ p)) = true ∧ units (ofNat (m * 2 ^ p)) = ((m * 2 ^ p : Nat) : Int) * one := by
  have hb : (p + 1074) * 2 ^ 52 + 2 ^ 53 ≤ infMag := by unfold infMag; omega
  obtain ⟨k, hk, e⟩ := exists_magUnits_eq (p + 1074) hm
  rw [pow_add, ← mul_assoc, ← one_eq] at e
  have hfin : k < infMag := hk.trans_le hb
  have heq : ofNat (m * 2 ^ p) = pack false k := by
    rw [ofNat, ofRatio, ← e, ← Nat.one_mul (magUnits k), roundMag_exact Nat.one_pos hfin.le]
  rw [heq]
  refine ⟨isFinite_pack false hfin, ?_⟩
  rw [units_pack false (hfin.trans infMag_lt), if_neg (by decide)]
  exact_mod_cast e

theorem ofNat_exact_of_lt {n : Nat} (hn : n < 2 ^ 53) :
    isFinite (ofNat n) = true ∧ units (ofNat n) = (n : Int) * one := by
  simpa using ofNat_exact (p := 0) hn (by omega)

theorem ofNat_injOn {m n : Nat} (hm : m < 2 ^ 53) (hn : n < 2 ^ 53) (h : ofNat m = ofNat n) : m = n := by
  have hu := congrArg units h
  rw [(ofNat_exact_of_lt hm).2, (ofNat_exact_of_lt hn).2] at hu
  have ho : (one : Int) ≠ 0 := by exact_mod_cast one_pos.ne'
  exact_mod_cast Int.eq_of_mul_eq_mul_right ho hu

/-- The powers of ten of POW10_INT (R8) are binary64 values: 10^k is 5^k times a power of two. -/
theorem ofNat_pow10_exact {k : Nat} (hk : k ≤ 22) :
    isFinite (ofNat (10 ^ k)) = true ∧ units (ofNat (10 ^ k)) = 10 ^ k * (one : Int) := by
  have h5 : 5 ^ k < 2 ^ 53 := (Nat.pow_le_pow_right (by omega) hk).trans_lt (by norm_num)
  have h := ofNat_exact h5 (p := k) (by omega)
  rw [← Nat.mul_pow] at h
  exact_mod_cast h

/-! ### The rounded quotient of two signed values -/

/-- Of two values of one sign, the distance is that of the magnitudes. -/
theorem abs_sub_of_mul_nonneg {a b : Int} (h : 0 ≤ a * b) : |a - b| = |(|a| - |b|)| := by
  rcases mul_nonneg_iff.mp h with ⟨ha, hb⟩ | ⟨ha, hb⟩
  · rw [abs_of_nonneg ha, abs_of_nonneg hb]
  · rw [abs_of_nonpos ha, abs_of_nonpos hb, abs_sub_comm a b]; congr 1; ring

end Sys2Proof.Binary64

namespace Sys2Proof.Claims

open Sys2Proof.Binary64

/-- The exact quotient overflows exactly when its magnitude is rounded to infinity. -/
theorem overflows_iff (num : Int) {den : Int} (hden : den ≠ 0) :
    Overflows num den ↔ roundMag num.natAbs den.natAbs = infMag := by
  have key : ∀ limit : Nat, (limit : Int) * one * |den| ≤ |num| ↔ limit * one * den.natAbs ≤ num.natAbs := by
    intro limit
    rw [← Int.natCast_natAbs, ← Int.natCast_natAbs]
    exact_mod_cast Iff.rfl
  have hlimit : ((2 ^ 1024 - 2 ^ 970 : Nat) : Int) = 2 ^ 1024 - 2 ^ 970 := by
    rw [Nat.cast_sub (Nat.pow_le_pow_right (by omega) (by omega))]
    simp only [Nat.cast_pow, Nat.cast_ofNat]
  rw [roundMag_eq_infMag_iff _ (Int.natAbs_pos.mpr hden), ← key, hlimit, Overflows]

theorem ne_zero_of_overflows {num den : Int} (hden : den ≠ 0) (h : Overflows num den) : num ≠ 0 := by
  rintro rfl
  rw [overflows_iff 0 hden, Int.natAbs_zero, roundMag_zero (Int.natAbs_pos.mpr hden)] at h
  exact absurd h (by decide)

/-- The magnitude of a scaled value. -/
theorem abs_units_mul (x : F64) (den : Int) : |units x * den| = (den.natAbs : Int) * magUnits (magBits x) := by
  rw [abs_mul, ← Int.natCast_natAbs, ← Int.natCast_natAbs, natAbs_units, mul_comm]

/-- The distance of a value from a quotient is no less than that of the magnitudes. -/
theorem abs_sub_magUnits_le (x : F64) (num den : Int) :
    |(num.natAbs : Int) - den.natAbs * magUnits (magBits x)| ≤ |units x * den - num| := by
  rw [← abs_units_mul, Int.natCast_natAbs, abs_sub_comm]
  exact abs_abs_sub_abs_le _ _

/-- Only zero has two values of one magnitude at the same distance. -/
theorem eq_zero_or_eq_zero_of_abs_sub_eq {a b : Int} (h : |a - b| = |-a - b|) : a = 0 ∨ b = 0 := by
  rcases abs_eq_abs.mp h with h | h <;> omega

/-- A magnitude with the sign of `num / den` is on the same side of zero as that quotient. -/
theorem sameSign_pack {s : Bool} {num den : Int} {k : Nat} (hk : k < 2 ^ 63) (hneg : num * den < 0 → s = true)
    (hpos : 0 < num * den → s = false) : 0 ≤ units (pack s k) * den * num := by
  rw [mul_assoc, mul_comm den, units_pack s hk]
  have hm : (0 : Int) ≤ magUnits k := Int.natCast_nonneg _
  rcases lt_trichotomy (num * den) 0 with h | h | h
  · rw [if_pos (hneg h)]; exact mul_nonneg_of_nonpos_of_nonpos (by omega) h.le
  · rw [h, mul_zero]
  · rw [if_neg (by simp [hpos h])]; exact mul_nonneg hm h.le

/-- No value is nearer to the quotient than its rounded magnitude with its sign, and one of another value that is as
near leaves an even pattern (R15: ties to even). -/
theorem pack_roundMag_nearest {s : Bool} {num den : Int} (hden : den ≠ 0) (hneg : num * den < 0 → s = true)
    (hpos : 0 < num * den → s = false) {w : F64} (hw : isFinite w = true) :
    |units (pack s (roundMag num.natAbs den.natAbs)) * den - num| ≤ |units w * den - num| ∧
    (|units (pack s (roundMag num.natAbs den.natAbs)) * den - num| = |units w * den - num| →
      units w ≠ units (pack s (roundMag num.natAbs den.natAbs)) →
      (pack s (roundMag num.natAbs den.natAbs)).toNat % 2 = 0) := by
  have hd : 0 < den.natAbs := Int.natAbs_pos.mpr hden
  have hk := roundMag_lt_pow num.natAbs den.natAbs
  obtain ⟨hle, htie⟩ := roundMag_nearest num.natAbs hd (magBits w) ((isFinite_iff w).mp hw).le
  have hwle := abs_sub_magUnits_le w num den
  have hr : |units (pack s (roundMag num.natAbs den.natAbs)) * den - num| =
      |(num.natAbs : Int) - den.natAbs * magUnits (roundMag num.natAbs den.natAbs)| := by
    rw [abs_sub_of_mul_nonneg (sameSign_pack hk hneg hpos), abs_units_mul, magBits_pack s hk,
      ← Int.natCast_natAbs num, abs_sub_comm]
  refine ⟨hr ▸ hle.trans hwle, fun heq hne => ?_⟩
  have heven : roundMag num.natAbs den.natAbs % 2 = 0 := by
    by_cases hj : magBits w = roundMag num.natAbs den.natAbs
    · have hflip : units w = -units (pack s (roundMag num.natAbs den.natAbs)) := by
        refine (Int.natAbs_eq_natAbs_iff.mp ?_).resolve_left hne
        rw [natAbs_units, natAbs_units, magBits_pack s hk, hj]
      rw [hflip, neg_mul] at heq
      rcases eq_zero_or_eq_zero_of_abs_sub_eq heq with h0 | h0
      · rw [(mul_eq_zero.mp h0).resolve_right hden] at hflip hne
        exact absurd hflip hne
      · rw [h0, Int.natAbs_zero, roundMag_zero hd]
    · exact htie (le_antisymm hle (hwle.trans (heq.ge.trans hr.le))) hj
  rw [pack_toNat s hk]
  split <;> omega

/-- The rounded magnitude with the quotient's sign is what R15 asks for (a zero may have either sign). -/
theorem roundsTo_pack {s : Bool} {num den : Int} {n d : Nat} (hn : num.natAbs = n) (hd : den.natAbs = d)
    (hden : den ≠ 0) (hneg : num * den < 0 → s = true) (hpos : 0 < num * den → s = false) :
    RoundsTo (pack s (roundMag n d)) num den := by
  subst hn hd
  have hover := overflows_iff num hden
  have hinf : ∀ b, pack s (roundMag num.natAbs den.natAbs) = infinity b ↔ Overflows num den ∧ s = b := by
    intro b
    rw [infinity, pack_eq_pack_iff (roundMag_lt_pow _ _) infMag_lt, hover, and_comm]
  have hsign : Overflows num den → (s = false ↔ 0 < num * den) ∧ (s = true ↔ num * den < 0) := by
    intro ho
    rcases lt_or_gt_of_ne (mul_ne_zero (ne_zero_of_overflows hden ho) hden) with h | h
    · simp [hneg h, h, h.le]
    · simp [hpos h, h, h.le]
  refine ⟨?_, ?_, ?_, fun _ w hw => pack_roundMag_nearest hden hneg hpos hw⟩
  · exact (hinf false).trans (and_congr_right fun ho => (hsign ho).1)
  · exact (hinf true).trans (and_congr_right fun ho => (hsign ho).2)
  · rw [isFinite_pack_le s (roundMag_le _ _), hover]
    exact ⟨Nat.ne_of_lt, Nat.lt_of_le_of_ne (roundMag_le _ _)⟩

/-! ### The four operators -/

/-- The sign of an exact product that is not zero is the one `mul` and `div` give their results. -/
theorem sign_bne_of_mul (x y : F64) :
    (units x * units y < 0 → (sign x != sign y) = true) ∧ (0 < units x * units y → (sign x != sign y) = false) := by
  constructor
  · intro h
    rcases mul_neg_iff.mp h with ⟨hx, hy⟩ | ⟨hx, hy⟩
    · rw [sign_eq_false_of_pos hx, sign_eq_true_of_neg hy]; rfl
    · rw [sign_eq_true_of_neg hx, sign_eq_false_of_pos hy]; rfl
  · intro h
    rcases mul_pos_iff.mp h with ⟨hx, hy⟩ | ⟨hx, hy⟩
    · rw [sign_eq_false_of_pos hx, sign_eq_false_of_pos hy]; rfl
    · rw [sign_eq_true_of_neg hx, sign_eq_true_of_neg hy]; rfl

theorem roundsTo_add {x y : F64} (hx : isFinite x = true) (hy : isFinite y = true) :
    RoundsTo (add x y) (units x + units y) 1 := by
  rw [add_eq hx hy]
  split
  · next h0 =>
    rw [h0, zero, ← roundMag_zero Nat.one_pos]
    exact roundsTo_pack rfl rfl one_ne_zero (by simp) (by simp)
  · exact roundsTo_pack rfl rfl one_ne_zero (fun h => decide_eq_true (by omega)) (fun h => decide_eq_false (by omega))

theorem roundsTo_sub {x y : F64} (hx : isFinite x = true) (hy : isFinite y = true) :
    RoundsTo (sub x y) (units x - units y) 1 := by
  have h := roundsTo_add hx (y := neg y) (by rwa [isFinite_neg])
  rwa [units_neg, ← sub_eq_add_neg] at h

theorem roundsTo_mul {x y : F64} (hx : isFinite x = true) (hy : isFinite y = true) :
    RoundsTo (mul x y) (units x * units y) one := by
  have ho : (0 : Int) < one := by exact_mod_cast one_pos
  rw [mul_eq hx hy]
  exact roundsTo_pack (Int.natAbs_mul _ _) (Int.natAbs_natCast one) ho.ne'
    (fun h => (sign_bne_of_mul x y).1 (neg_of_mul_neg_left h ho.le))
    (fun h => (sign_bne_of_mul x y).2 (pos_of_mul_pos_left h ho.le))

theorem roundsTo_div {x y : F64} (hx : isFinite x = true) (hy : isFinite y = true) (hz : isZero y = false) :
    RoundsTo (div x y) (units x * one) (units y) := by
  have ho : (0 : Int) < one := by exact_mod_cast one_pos
  have hy0 : units y ≠ 0 := by rw [Ne, units_eq_zero_iff, hz]; decide
  have hn : (units x * one).natAbs = (units x).natAbs * one := by rw [Int.natAbs_mul, Int.natAbs_natCast]
  rw [div_eq hx hy hz]
  refine roundsTo_pack hn rfl hy0 (fun h => (sign_bne_of_mul x y).1 ?_) (fun h => (sign_bne_of_mul x y).2 ?_)
  all_goals rw [mul_right_comm] at h
  · exact neg_of_mul_neg_left h ho.le
  · exact pos_of_mul_pos_left h ho.le

end Sys2Proof.Claims

namespace Sys2Proof.Proofs

open Sys2Proof.Claims

/-- Settles O51: each operator is one rounding of its exact result. -/
theorem arithmeticRoundsToNearest : Obligations.ArithmeticRoundsToNearest := fun _ _ hx hy =>
  ⟨roundsTo_add hx hy, roundsTo_sub hx hy, roundsTo_mul hx hy, roundsTo_div hx hy⟩

end Sys2Proof.Proofs
end

section
/-! PROOFS. The special operands: what each operator answers for a NaN, an infinity or a zero, and the signs of zero
results (IEEE 754's special cases, log entry 10). -/

namespace Sys2Proof.Binary64

open Sys2Proof.Claims

/-! ### NaN operands -/

section NaN
variable {x y : F64} (h : isNaN x = true ∨ isNaN y = true)
include h

theorem add_of_isNaN : add x y = nan := by rcases h with h | h <;> simp [add, h]

theorem sub_of_isNaN : sub x y = nan := add_of_isNaN (by rwa [isNaN_neg])

theorem mul_of_isNaN : mul x y = nan := by rcases h with h | h <;> simp [mul, h]

theorem div_of_isNaN : div x y = nan := by rcases h with h | h <;> simp [div, h]

end NaN

/-! ### Infinite operands -/

theorem signedInfinity_eq (x y : F64) : signedInfinity x y = infinity (sign x != sign y) := (infinity_eq _).symm

theorem signedInfinity_comm (x y : F64) : signedInfinity x y = signedInfinity y x := by
  rw [signedInfinity, signedInfinity, bne_comm]

theorem signedZero_eq (x y : F64) : signedZero x y = zero (sign x != sign y) := (zero_eq _).symm

theorem signedZero_comm (x y : F64) : signedZero x y = signedZero y x := by
  rw [signedZero, signedZero, bne_comm]

/-- An infinity is known by its sign. -/
theorem eq_iff_sign_eq_of_isInf {x y : F64} (hx : isInf x = true) (hy : isInf y = true) : x = y ↔ sign x = sign y := by
  refine ⟨congrArg sign, fun h => ?_⟩
  rw [eq_infinity_of_isInf hx, eq_infinity_of_isInf hy, h]

section InfFinite
variable {x y : F64} (hx : isInf x = true) (hy : isFinite y = true)
include hx hy

theorem add_inf_finite : add x y = x := by
  simp [add, isNaN_of_isInf hx, not_isNaN_of_isFinite hy, hx, not_isInf_of_isFinite hy]

theorem add_finite_inf : add y x = x := by
  simp [add, isNaN_of_isInf hx, not_isNaN_of_isFinite hy, hx, not_isInf_of_isFinite hy]

theorem sub_inf_finite : sub x y = x := add_inf_finite hx (by rwa [isFinite_neg])

theorem sub_finite_inf : sub y x = neg x := add_finite_inf (by rwa [isInf_neg]) hy

theorem mul_inf_finite : mul x y = if isZero y = true then nan else signedInfinity x y := by
  simp [mul, isNaN_of_isInf hx, not_isNaN_of_isFinite hy, hx, isZero_of_isInf hx, signedInfinity_eq]

theorem mul_finite_inf : mul y x = if isZero y = true then nan else signedInfinity x y := by
  simp [mul, isNaN_of_isInf hx, not_isNaN_of_isFinite hy, hx, isZero_of_isInf hx, signedInfinity_comm x,
    signedInfinity_eq]

theorem div_inf_finite : div x y = signedInfinity x y := by
  simp [div, isNaN_of_isInf hx, not_isNaN_of_isFinite hy, hx, not_isInf_of_isFinite hy, signedInfinity_eq]

theorem div_finite_inf : div y x = signedZero x y := by
  simp [div, isNaN_of_isInf hx, not_isNaN_of_isFinite hy, hx, not_isInf_of_isFinite hy, signedZero_comm x,
    signedZero_eq]

end InfFinite

section InfInf
variable {x y : F64} (hx : isInf x = true) (hy : isInf y = true)
include hx hy

theorem add_inf_inf : add x y = if sign x = sign y then x else nan := by
  by_cases h : sign x = sign y <;> simp [add, isNaN_of_isInf hx, isNaN_of_isInf hy, hx, hy, h]

theorem sub_inf_inf : sub x y = if sign x = sign y then nan else x := by
  rw [sub, add_inf_inf hx (by rwa [isInf_neg]), sign_neg]
  cases sign x <;> cases sign y <;> rfl

theorem mul_inf_inf : mul x y = signedInfinity x y := by
  simp [mul, isNaN_of_isInf hx, isNaN_of_isInf hy, hx, isZero_of_isInf hx, isZero_of_isInf hy, signedInfinity_eq]

theorem div_inf_inf : div x y = nan := by
  simp [div, isNaN_of_isInf hx, isNaN_of_isInf hy, hx, hy]

end InfInf

/-! ### Zero operands and zero results -/

theorem div_finite_zero {x y : F64} (hx : isFinite x = true) (hy : isZero y = true) :
    div x y = if isZero x = true then nan else signedInfinity x y := by
  have hy' := isFinite_of_isZero hy
  simp [div, not_isNaN_of_isFinite hx, not_isNaN_of_isFinite hy', not_isInf_of_isFinite hx,
    not_isInf_of_isFinite hy', hy, signedInfinity_eq]

/-- A rounded magnitude that is a zero keeps the sign it is given. -/
theorem pack_eq_zero_of_isZero {s : Bool} {n d : Nat} (h : isZero (pack s (roundMag n d)) = true) :
    pack s (roundMag n d) = zero s := by
  rw [eq_zero_of_isZero h, sign_pack s (roundMag_lt_pow n d)]

theorem mul_eq_signedZero {x y : F64} (hx : isFinite x = true) (hy : isFinite y = true)
    (h : isZero (mul x y) = true) : mul x y = signedZero x y := by
  rw [mul_eq hx hy] at h ⊢
  rw [pack_eq_zero_of_isZero h, signedZero_eq]

theorem div_eq_signedZero {x y : F64} (hx : isFinite x = true) (hy : isFinite y = true) (hz : isZero y = false)
    (h : isZero (div x y) = true) : div x y = signedZero x y := by
  rw [div_eq hx hy hz] at h ⊢
  rw [pack_eq_zero_of_isZero h, signedZero_eq]

theorem add_eq_zero_of_sum {x y : F64} (hx : isFinite x = true) (hy : isFinite y = true)
    (h : units x + units y = 0) : add x y = zero (sign x && sign y) := by rw [add_eq hx hy, if_pos h]

/-! ### The square root's special cases -/

theorem sqrt_of_isNaN {x : F64} (h : isNaN x = true) : sqrt x = x := by simp [sqrt, h]

theorem sqrt_of_isZero {x : F64} (h : isZero x = true) : sqrt x = x := by simp [sqrt, h]

theorem sqrt_of_sign {x : F64} (hn : isNaN x = false) (hz : isZero x = false) (hs : sign x = true) : sqrt x = nan := by
  simp [sqrt, hn, hz, hs]

theorem sqrt_infinity : sqrt (infinity false) = infinity false := by decide

end Sys2Proof.Binary64

namespace Sys2Proof.Proofs

open Sys2Proof.Binary64 Sys2Proof.Claims

theorem specialOperands_nan (x y : F64) (h : isNaN x = true ∨ isNaN y = true) :
    isNaN (add x y) = true ∧ isNaN (sub x y) = true ∧ isNaN (mul x y) = true ∧ isNaN (div x y) = true := by
  rw [add_of_isNaN h, sub_of_isNaN h, mul_of_isNaN h, div_of_isNaN h]
  exact ⟨isNaN_nan, isNaN_nan, isNaN_nan, isNaN_nan⟩

/-- Settles O58: each clause is the operator's own special case. -/
theorem specialOperands : Obligations.SpecialOperands := by
  refine ⟨specialOperands_nan, fun x y hx hy => ?_, fun x y hx hy => ?_, fun x y hx hy => ?_, fun x y hx hy => ?_,
    fun x => ?_⟩
  · rw [mul_inf_finite hx hy, mul_finite_inf hx hy]
    refine ⟨add_inf_finite hx hy, add_finite_inf hx hy, sub_inf_finite hx hy, sub_finite_inf hx hy, fun hz => ?_,
      fun hz => ?_, div_inf_finite hx hy, div_finite_inf hx hy⟩
    · simp [hz]
    · simp [hz, isNaN_nan]
  · rw [add_inf_inf hx hy, sub_inf_inf hx hy, div_inf_inf hx hy, ne_eq, eq_iff_sign_eq_of_isInf hx hy]
    refine ⟨fun hs => ?_, fun hs => ?_, mul_inf_inf hx hy, isNaN_nan⟩
    all_goals simp [hs, isNaN_nan]
  · rw [div_finite_zero hx hy]
    refine ⟨fun hz => ?_, fun hz => ?_⟩
    all_goals simp [hz, isNaN_nan]
  · exact ⟨fun h => (add_eq_zero_of_sum hx hy h).trans (zero_eq _), mul_eq_signedZero hx hy, div_eq_signedZero hx hy⟩
  · refine ⟨fun h => ?_, sqrt_of_isZero, fun hn hz hs => ?_, ?_⟩
    · rwa [sqrt_of_isNaN h]
    · rw [sqrt_of_sign hn hz hs]; exact isNaN_nan
    · rintro rfl; exact sqrt_infinity

end Sys2Proof.Proofs
end

section
/-! PROOFS. The open parameters: the named properties of R5, R7 and R8 hold of every configuration, and a configuration
can be built from any parameters that have them. -/

namespace Sys2Proof

open Binary64 Claims

theorem isZero_iff_eq (x : F64) : isZero x = true ↔ x = 0x0000000000000000 ∨ x = 0x8000000000000000 := by
  constructor
  · intro h
    rw [eq_zero_of_isZero h, zero_eq]
    cases sign x <;> simp
  · rintro (rfl | rfl) <;> decide

/-- R8 says nothing of an argument that is not finite, and `tame` leaves its value as it is. -/
theorem tame_of_not_finite {x : F64} (v : F64) (hx : Binary64.isFinite x = false) : tame x v = v := by
  simp [tame, hx]

theorem tame_eq_of_inRange {f : F64 → F64} (hf : InRange f) (x : F64) : tame x (f x) = f x := by
  cases hx : Binary64.isFinite x
  · exact tame_of_not_finite _ hx
  · exact tame_of_range (hf x hx)

theorem cos_of_not_isZero (c : Config) {x : F64} (h : isZero x = false) : c.cos x = tame x (c.cosRaw x) :=
  if_neg (by simp [h])

theorem sin_of_not_isZero (c : Config) {x : F64} (h : isZero x = false) : c.sin x = tame x (c.sinRaw x) :=
  if_neg (by simp [h])

theorem pow10Exact_ofNat {k : Nat} (hk : k ≤ 22) :
    pow10Exact (Binary64.ofNat k) = some (Binary64.ofNat (10 ^ k)) := by
  unfold pow10Exact
  rw [Option.map_eq_some_iff]
  refine ⟨k, ?_, rfl⟩
  rw [List.find?_range_eq_some]
  refine ⟨beq_self_eq_true _, List.mem_range.mpr (by omega), fun j hj => ?_⟩
  have hne : Binary64.ofNat k ≠ Binary64.ofNat j := fun h => by
    have := ofNat_injOn (by omega) (by omega) h
    omega
  simpa using hne

theorem pow10_ofNat (c : Config) {k : Nat} (hk : k ≤ 22) :
    c.pow10 (Binary64.ofNat k) = Binary64.ofNat (10 ^ k) := pow10_of_exact c (pow10Exact_ofNat hk)

/-! ### The range of R8 -/

theorem inRange_cos (c : Config) : InRange c.cos := by
  intro x hx
  cases hz : isZero x
  · rw [cos_of_not_isZero c hz]; exact tame_range _ hx
  · rw [cos_of_isZero c hz]; exact .inl isFinite_f1

theorem inRange_sin (c : Config) : InRange c.sin := by
  intro x hx
  cases hz : isZero x
  · rw [sin_of_not_isZero c hz]; exact tame_range _ hx
  · rw [sin_of_isZero c hz]; exact .inl hx

theorem inRange_pow10 (c : Config) : InRange c.pow10 := by
  intro x hx
  cases h : pow10Exact x with
  | none => rw [pow10_of_not_exact c h]; exact tame_range _ hx
  | some v =>
    obtain ⟨k, hk, _, rfl⟩ := pow10Exact_eq_some h
    rw [pow10_of_exact c h]
    exact .inl (ofNat_pow10_exact hk).1

/-! ### Configurations from given parameters -/

/-- The configuration with the given COS, SIN and POW10. -/
def Config.ofFunctions (f g h : F64 → F64) : Config :=
  { (default : Config) with cosRaw := f, sinRaw := g, pow10Raw := h }

theorem cos_ofFunctions {f : F64 → F64} (g h : F64 → F64) (hf : InRange f)
    (hp : f 0x0000000000000000 = 0x3FF0000000000000) (hm : f 0x8000000000000000 = 0x3FF0000000000000) :
    (Config.ofFunctions f g h).cos = f := by
  funext x
  cases hz : isZero x
  · rw [cos_of_not_isZero _ hz]; exact tame_eq_of_inRange hf x
  · rw [cos_of_isZero _ hz]
    rcases (isZero_iff_eq x).mp hz with rfl | rfl
    · exact hp.symm
    · exact hm.symm

theorem sin_ofFunctions {g : F64 → F64} (f h : F64 → F64) (hg : InRange g)
    (hp : g 0x0000000000000000 = 0x0000000000000000) (hm : g 0x8000000000000000 = 0x8000000000000000) :
    (Config.ofFunctions f g h).sin = g := by
  funext x
  cases hz : isZero x
  · rw [sin_of_not_isZero _ hz]; exact tame_eq_of_inRange hg x
  · rw [sin_of_isZero _ hz]
    rcases (isZero_iff_eq x).mp hz with rfl | rfl
    · exact hp.symm
    · exact hm.symm

theorem pow10_ofFunctions {h : F64 → F64} (f g : F64 → F64) (hh : InRange h)
    (hint : ∀ k ≤ 22, h (Binary64.ofNat k) = Binary64.ofNat (10 ^ k)) : (Config.ofFunctions f g h).pow10 = h := by
  funext x
  cases hx : pow10Exact x with
  | none => rw [pow10_of_not_exact _ hx]; exact tame_eq_of_inRange hh x
  | some v =>
    obtain ⟨k, hk, rfl, rfl⟩ := pow10Exact_eq_some hx
    rw [pow10_of_exact _ hx, hint k hk]

/-- The configuration with the given MAX_FRAME, SEEDFN and GAUSS. -/
def Config.ofGenerator (maxFramePred : Fin 4096) (seedFn : Word → RngState) (gauss : RngState → F64 × RngState) :
    Config := { (default : Config) with maxFramePred := maxFramePred, seedFn := seedFn, gaussRaw := gauss }

theorem gauss_ofGenerator (m : Fin 4096) (seedFn : Word → RngState) {gauss : RngState → F64 × RngState}
    (h : ∀ r, Binary64.isFinite (gauss r).1 = true) : (Config.ofGenerator m seedFn gauss).gauss = gauss := by
  funext r
  exact Prod.ext (if_pos (h r)) rfl

theorem maxFrame_bounds (c : Config) : 1 ≤ c.maxFrame ∧ c.maxFrame ≤ 4096 :=
  ⟨Nat.le_add_left 1 _, c.maxFramePred.isLt⟩

end Sys2Proof

namespace Sys2Proof.Proofs

open Sys2Proof.Binary64 Sys2Proof.Claims

/-- Settles O50: every whole number below 2^53 is a binary64 value. -/
theorem toF64Exact : Obligations.ToF64Exact := fun _ hn => ofNat_exact_of_lt (by omega)

/-- Settles O53: a given COS, SIN and POW10 are those of the configuration that has them as its raw functions. -/
theorem transcendentalProperties : Obligations.TranscendentalProperties := by
  refine ⟨fun c => ⟨cos_of_isZero c (by decide), cos_of_isZero c (by decide), sin_of_isZero c (by decide),
    sin_of_isZero c (by decide), fun k hk => pow10_ofNat c hk, inRange_cos c, inRange_sin c, inRange_pow10 c⟩,
    fun k hk => ⟨(ofNat_exact_of_lt (by omega)).2, ofNat_pow10_exact hk⟩, ?_⟩
  intro f g h hf hg hh hcp hcm hsp hsm hint
  exact ⟨Config.ofFunctions f g h, cos_ofFunctions g h hf hcp hcm, sin_ofFunctions f h hg hsp hsm,
    pow10_ofFunctions f g hh hint⟩

/-- Settles O54: a given MAX_FRAME, SEEDFN and GAUSS are those of the configuration that has them as its raw
parameters. -/
theorem capacityAndGeneratorProperties : Obligations.CapacityAndGeneratorProperties := by
  refine ⟨fun c => ⟨(maxFrame_bounds c).1, (maxFrame_bounds c).2, gauss_finite c⟩, ?_⟩
  intro n seedFn gauss h1 h2 hg
  exact ⟨Config.ofGenerator ⟨n - 1, by omega⟩ seedFn gauss, Nat.sub_add_cancel h1, rfl, gauss_ofGenerator _ seedFn hg⟩

end Sys2Proof.Proofs
end

section
/-! PROOFS. sqrt64 is a binary64 value nearest to the real root. The root is known to 56 bits and a sticky bit; every
point half way between two binary64 values near it has no more than 55 significant bits, so the values on either side of
the root are those on either side of what `sqrtMag` rounds. -/

namespace Sys2Proof.Binary64

/-! ### Where the values and the half-way points stand -/

/-- From 2^(e+52) on, magnitudes are multiples of 2^e. -/
theorem dvd_magUnits {e k : Nat} (h : 2 ^ (e + 52) ≤ magUnits k) : 2 ^ e ∣ magUnits k := by
  obtain ⟨s, g, rfl, hg, hs⟩ := mag_split k
  rw [magUnits_shift hg.le hs] at h ⊢
  have hlt : 2 ^ (e + 52) < 2 ^ (53 + s) :=
    h.trans_lt (by rw [pow_add 2 53]; exact Nat.mul_lt_mul_of_pos_right hg (Nat.two_pow_pos s))
  have hes : e + 52 < 53 + s := (Nat.pow_lt_pow_iff_right (by omega)).mp hlt
  exact Dvd.dvd.mul_left (Nat.pow_dvd_pow 2 (by omega)) g

theorem magUnits_succ_le {k : Nat} (hk : 0 < k) : magUnits (k + 1) ≤ 2 * magUnits k := by
  obtain ⟨s, g, rfl, hg, hs⟩ := mag_split k
  rw [add_assoc, magUnits_shift (by omega) (by omega), magUnits_shift hg.le hs, ← mul_assoc]
  exact Nat.mul_le_mul_right _ (by omega)

/-- Rounding something that is at least a power of two gives at least that power. -/
theorem pow_le_magUnits_roundMag {n d e : Nat} (hd : 0 < d) (he : e ≤ 2000) (h : 2 ^ e * d ≤ n) :
    2 ^ e ≤ magUnits (roundMag n d) := by
  have hb : e * 2 ^ 52 + 2 ^ 53 ≤ infMag := by unfold infMag; omega
  obtain ⟨k, hk, hv⟩ := exists_magUnits_eq e (m := 1) (by omega)
  have hle : roundMag (d * magUnits k) d ≤ roundMag n d :=
    roundMag_mono hd hd (Nat.mul_le_mul_right d (by rw [hv, one_mul, mul_comm]; exact h))
  rw [roundMag_exact hd (hk.trans_le hb).le] at hle
  calc 2 ^ e = magUnits k := by rw [hv, one_mul]
    _ ≤ _ := magUnits_strictMono.monotone hle

/-! ### Rounding with a sticky bit -/

/-- An even multiple of `c` does not stand strictly between an odd multiple of `c` and its neighbours. -/
theorem odd_mul_le_of_dvd {t c z : Nat} (hc : 0 < c) (hdvd : 2 * c ∣ z) (h : (2 * t + 1) * c ≤ z) :
    (2 * t + 2) * c ≤ z := by
  obtain ⟨q, rfl⟩ := hdvd
  rw [show 2 * c * q = 2 * q * c by ring] at h ⊢
  have hq := Nat.le_of_mul_le_mul_right h hc
  exact Nat.mul_le_mul_right c (by omega)

theorem le_even_mul_of_dvd {t c z : Nat} (hc : 0 < c) (hdvd : 2 * c ∣ z) (h : z ≤ (2 * t + 1) * c) :
    z ≤ 2 * t * c := by
  obtain ⟨q, rfl⟩ := hdvd
  rw [show 2 * c * q = 2 * q * c by ring] at h ⊢
  have hq := Nat.le_of_mul_le_mul_right h hc
  exact Nat.mul_le_mul_right c (by omega)

/-- What is nearer to `n / 2` than a greater value has it at or below half way. -/
theorem le_add_of_nearer {n a b : Nat} (hlt : a < b) (h : |(n : Int) - (2 : Nat) * a| ≤ |(n : Int) - (2 : Nat) * b|) :
    n ≤ a + b := by
  by_contra hgt
  rw [abs_of_pos (show (0 : Int) < n - (2 : Nat) * a by omega)] at h
  exact h.not_gt (abs_lt.mpr ⟨by omega, by omega⟩)

/-- What is nearer to `n / 2` than a smaller value has it at or above half way. -/
theorem add_le_of_nearer {n a b : Nat} (hlt : b < a) (h : |(n : Int) - (2 : Nat) * a| ≤ |(n : Int) - (2 : Nat) * b|) :
    a + b ≤ n := by
  by_contra hgt
  rw [abs_of_neg (show (n : Int) - (2 : Nat) * a < 0 by omega)] at h
  exact h.not_gt (abs_lt.mpr ⟨by omega, by omega⟩)

section Sticky
variable {t h : Nat} (ht : 2 ^ 56 ≤ t) (hh : h + 56 ≤ 2000)
include ht hh

/-- What is rounded, `t` and a half times 2^h, has at least 57 bits above 2^h, and so has its rounding. -/
theorem pow_le_magUnits_sticky : 2 ^ (h + 56) ≤ magUnits (roundMag ((2 * t + 1) * 2 ^ h) 2) := by
  refine pow_le_magUnits_roundMag (by omega) hh ?_
  rw [pow_add, mul_comm (2 ^ h), mul_right_comm]
  exact Nat.mul_le_mul_right _ (by omega)

/-- Half way to any pattern above the rounded one stands at or above the upper end of the bracket. -/
theorem bracket_le_of_roundMag_lt {j : Nat} (hj : j ≤ infMag) (hlt : roundMag ((2 * t + 1) * 2 ^ h) 2 < j) :
    (2 * t + 2) * 2 ^ h ≤ magUnits (roundMag ((2 * t + 1) * 2 ^ h) 2) + magUnits j := by
  have hm := magUnits_strictMono hlt
  have hbig := pow_le_magUnits_sticky ht hh
  have hdvd : ∀ {i}, 2 ^ (h + 56) ≤ magUnits i → 2 * 2 ^ h ∣ magUnits i := fun hi => by
    rw [← pow_succ']
    exact (Nat.pow_dvd_pow 2 (by omega : h + 1 ≤ h + 4)).trans (dvd_magUnits hi)
  exact odd_mul_le_of_dvd (Nat.two_pow_pos h) ((hdvd hbig).add (hdvd (hbig.trans hm.le)))
    (le_add_of_nearer hm (roundMag_nearest _ (by omega) j hj).1)

/-- Half way to any pattern below the rounded one stands at or below the lower end of the bracket. -/
theorem le_bracket_of_lt_roundMag {j : Nat} (hlt : j < roundMag ((2 * t + 1) * 2 ^ h) 2) :
    magUnits (roundMag ((2 * t + 1) * 2 ^ h) 2) + magUnits j ≤ 2 * t * 2 ^ h := by
  have hk := roundMag_le ((2 * t + 1) * 2 ^ h) 2
  have hbig := pow_le_magUnits_sticky ht hh
  have hnear := fun i hi => (roundMag_nearest ((2 * t + 1) * 2 ^ h) (d := 2) (by omega) i hi).1
  generalize roundMag ((2 * t + 1) * 2 ^ h) 2 = k at *
  obtain ⟨p, rfl⟩ : ∃ p, k = p + 1 := ⟨k - 1, by omega⟩
  have hm := magUnits_lt_succ p
  have hp : 0 < p := by
    rcases Nat.eq_zero_or_pos p with rfl | hp
    · exact absurd (hbig.trans_eq (by decide : magUnits (0 + 1) = 1)) (Nat.one_lt_two_pow (by omega)).not_ge
    · exact hp
  have hdbl := magUnits_succ_le hp
  have hdvd : ∀ {i}, 2 ^ (h + 55) ≤ magUnits i → 2 * 2 ^ h ∣ magUnits i := fun hi => by
    rw [← pow_succ']
    exact (Nat.pow_dvd_pow 2 (by omega : h + 1 ≤ h + 3)).trans (dvd_magUnits hi)
  have hbig' : 2 ^ (h + 55) ≤ magUnits p := by
    rw [pow_succ] at hbig; omega
  have hle := le_even_mul_of_dvd (Nat.two_pow_pos h) ((hdvd (hbig'.trans hm.le)).add (hdvd hbig'))
    (add_le_of_nearer hm (hnear p (by omega)))
  exact (Nat.add_le_add_left (magUnits_strictMono.monotone (by omega)) _).trans hle

/-- A number between `t` and `t + 1` times 2^h has a nearest value in the rounding of the point half way between. -/
theorem sticky_nearest {r : ℝ} (h1 : (t * 2 ^ h : ℕ) ≤ r) (h2 : r ≤ ((t + 1) * 2 ^ h : ℕ)) {j : Nat}
    (hj : j ≤ infMag) :
    |(magUnits (roundMag ((2 * t + 1) * 2 ^ h) 2) : ℝ) - r| ≤ |(magUnits j : ℝ) - r| := by
  rcases lt_trichotomy (roundMag ((2 * t + 1) * 2 ^ h) 2) j with hlt | rfl | hlt
  · have hm : (magUnits (roundMag ((2 * t + 1) * 2 ^ h) 2) : ℝ) ≤ magUnits j :=
      Nat.cast_le.mpr (magUnits_strictMono hlt).le
    have hb : (((2 * t + 2) * 2 ^ h : ℕ) : ℝ) ≤ (magUnits (roundMag ((2 * t + 1) * 2 ^ h) 2) + magUnits j : ℕ) :=
      Nat.cast_le.mpr (bracket_le_of_roundMag_lt ht hh hj hlt)
    push_cast at hb h2
    exact (abs_le.mpr ⟨by linarith, by linarith⟩).trans (le_abs_self _)
  · exact le_rfl
  · have hm : (magUnits j : ℝ) ≤ magUnits (roundMag ((2 * t + 1) * 2 ^ h) 2) :=
      Nat.cast_le.mpr (magUnits_strictMono hlt).le
    have hb : ((magUnits (roundMag ((2 * t + 1) * 2 ^ h) 2) + magUnits j : ℕ) : ℝ) ≤ (2 * t * 2 ^ h : ℕ) :=
      Nat.cast_le.mpr (le_bracket_of_lt_roundMag ht hh hlt)
    push_cast at hb h1
    exact (abs_le.mpr ⟨by linarith, by linarith⟩).trans (neg_le_abs _)

end Sticky

/-- A root that is known exactly is rounded as it stands. -/
theorem exact_nearest (m : Nat) {j : Nat} (hj : j ≤ infMag) :
    |(magUnits (roundMag (2 * m) 2) : ℝ) - m| ≤ |(magUnits j : ℝ) - m| := by
  have h := (roundMag_nearest (2 * m) (d := 2) (by omega) j hj).1
  have e : ∀ a : Nat, |((2 * m : Nat) : Int) - (2 : Nat) * a| = 2 * |(a : Int) - m| := fun a => by
    rw [abs_sub_comm, Nat.cast_mul, ← mul_sub, abs_mul]; rfl
  rw [e, e] at h
  exact_mod_cast le_of_mul_le_mul_left h (by omega)

/-! ### The root -/

/-- How far the radicand is cut: the exponent `h` of the power of 4. -/
def sqrtShift (a : Nat) : Nat := (Nat.log2 (a * one) - 112) / 2

/-- The leading bits of the root. -/
def sqrtLead (a : Nat) : Nat := isqrt (a * one / 4 ^ sqrtShift a)

theorem sqrtMag_of_exact {a : Nat} (h : sqrtLead a * sqrtLead a * 4 ^ sqrtShift a = a * one) :
    sqrtMag a = roundMag (2 * (sqrtLead a * 2 ^ sqrtShift a)) 2 := by
  unfold sqrtMag
  dsimp only
  rw [← sqrtShift, ← sqrtLead, if_pos h, Nat.add_zero, mul_assoc]

theorem sqrtMag_of_inexact {a : Nat} (h : sqrtLead a * sqrtLead a * 4 ^ sqrtShift a ≠ a * one) :
    sqrtMag a = roundMag ((2 * sqrtLead a + 1) * 2 ^ sqrtShift a) 2 := by
  unfold sqrtMag
  dsimp only
  rw [← sqrtShift, ← sqrtLead, if_neg h]

/-- The square of a multiple of 2^h. -/
theorem sq_mul_pow (t h : Nat) : (t * 2 ^ h) ^ 2 = t * t * 4 ^ h := by
  rw [mul_pow, pow_right_comm, sq t, show 2 ^ 2 = 4 by rfl]

/-- 1.0 is no more than the greatest finite value. -/
theorem one_le_magUnits_top : one ≤ magUnits (infMag - 1) := by
  have hf1 : magUnits (magBits f1) = one := by rw [← natAbs_units, units_f1, Int.natAbs_natCast]
  rw [← hf1]
  exact magUnits_strictMono.monotone (by decide)

theorem log2_mul_two_pow {a : Nat} (e : Nat) (ha : 0 < a) : Nat.log2 (a * 2 ^ e) = Nat.log2 a + e := by
  rw [Nat.log2_eq_log_two, Nat.log2_eq_log_two]
  induction e with
  | zero => simp
  | succ e ih =>
    rw [pow_succ, ← mul_assoc, Nat.log_mul_base (by omega) (Nat.mul_pos ha (Nat.two_pow_pos e)).ne', ih]; rfl

theorem log2_mul_one {a : Nat} (ha : 0 < a) : Nat.log2 (a * one) = Nat.log2 a + 1074 := by
  rw [one_eq, log2_mul_two_pow 1074 ha]

section Root
variable {a : Nat} (ha : 0 < a) (htop : a ≤ magUnits (infMag - 1))

include ha in
/-- The cut radicand has 113 or 114 bits. -/
theorem sqrtShift_bounds : 2 ^ 112 * 4 ^ sqrtShift a ≤ a * one ∧ a * one < 2 ^ 114 * 4 ^ sqrtShift a := by
  have hx : a * one ≠ 0 := (Nat.mul_pos ha one_pos).ne'
  have hlog := (log2_mul_one ha).symm
  rw [show 4 = 2 ^ 2 by rfl, ← pow_mul, ← pow_add, ← pow_add, ← Nat.le_log2 hx, ← Nat.log2_lt hx, sqrtShift]
  omega

include ha htop in
theorem sqrtShift_le : sqrtShift a + 56 ≤ 2000 := by
  have hlog : Nat.log2 a ≤ 52 + 2045 :=
    calc Nat.log2 a ≤ Nat.log2 (magUnits (infMag - 1)) := by
          rw [Nat.log2_eq_log_two, Nat.log2_eq_log_two]; exact Nat.log_mono_right htop
      _ = Nat.log2 (2 ^ 53 - 1) + 2045 := by rw [magUnits_top.1, log2_mul_two_pow 2045 (by omega)]
      _ = 52 + 2045 := by rw [show Nat.log2 (2 ^ 53 - 1) = 52 by decide]
  have hadd := log2_mul_one ha
  unfold sqrtShift
  omega

include ha in
theorem sqrtLead_spec : sqrtLead a * sqrtLead a ≤ a * one / 4 ^ sqrtShift a ∧
    a * one / 4 ^ sqrtShift a < (sqrtLead a + 1) * (sqrtLead a + 1) := by
  have hcut : a * one / 4 ^ sqrtShift a < 2 ^ 114 :=
    (Nat.div_lt_iff_lt_mul (Nat.pow_pos (by omega))).mpr (sqrtShift_bounds ha).2
  exact isqrt_spec (hcut.trans (by norm_num))

include ha in
theorem pow_le_sqrtLead : 2 ^ 56 ≤ sqrtLead a := by
  have hcut : 2 ^ 112 ≤ a * one / 4 ^ sqrtShift a :=
    (Nat.le_div_iff_mul_le (Nat.pow_pos (by omega))).mpr (sqrtShift_bounds ha).1
  have hsq : 2 ^ 56 * 2 ^ 56 < (sqrtLead a + 1) * (sqrtLead a + 1) :=
    lt_of_le_of_lt (by rwa [← pow_add]) (sqrtLead_spec ha).2
  exact Nat.lt_succ_iff.mp (Nat.mul_self_lt_mul_self_iff.mp hsq)

include ha in
/-- The leading bits bracket the root. -/
theorem sqrtLead_bracket : ((sqrtLead a * 2 ^ sqrtShift a : ℕ) : ℝ) ≤ √((a * one : ℕ) : ℝ) ∧
    √((a * one : ℕ) : ℝ) ≤ ((sqrtLead a + 1) * 2 ^ sqrtShift a : ℕ) := by
  have h4 : 0 < 4 ^ sqrtShift a := Nat.pow_pos (by omega)
  obtain ⟨hlo, hhi⟩ := sqrtLead_spec ha
  rw [Nat.le_div_iff_mul_le h4, ← sq_mul_pow] at hlo
  rw [Nat.div_lt_iff_lt_mul h4, ← sq_mul_pow] at hhi
  exact ⟨Real.le_sqrt_of_sq_le (by exact_mod_cast hlo),
    Real.sqrt_le_iff.mpr ⟨Nat.cast_nonneg _, by exact_mod_cast hhi.le⟩⟩

include ha htop in
/-- No magnitude pattern is nearer to the real root than the one `sqrtMag` gives. -/
theorem sqrtMag_nearest {j : Nat} (hj : j ≤ infMag) :
    |(magUnits (sqrtMag a) : ℝ) - √((a * one : ℕ) : ℝ)| ≤ |(magUnits j : ℝ) - √((a * one : ℕ) : ℝ)| := by
  by_cases hex : sqrtLead a * sqrtLead a * 4 ^ sqrtShift a = a * one
  · rw [sqrtMag_of_exact hex, ← hex, ← sq_mul_pow, Nat.cast_pow, Real.sqrt_sq (Nat.cast_nonneg _)]
    exact exact_nearest _ hj
  · rw [sqrtMag_of_inexact hex]
    obtain ⟨hlo, hhi⟩ := sqrtLead_bracket ha
    exact sticky_nearest (pow_le_sqrtLead ha) (sqrtShift_le ha htop) hlo hhi hj

theorem sqrtMag_le (a : Nat) : sqrtMag a ≤ infMag := by
  unfold sqrtMag
  exact roundMag_le _ _

include ha htop in
/-- The root is no more than the greatest finite value, which is nearer to it than infinity's pattern. -/
theorem sqrtMag_lt_infMag : sqrtMag a < infMag := by
  refine lt_of_le_of_ne (sqrtMag_le a) fun hinf => ?_
  have hroot : √((a * one : ℕ) : ℝ) ≤ magUnits (infMag - 1) :=
    Real.sqrt_le_iff.mpr ⟨Nat.cast_nonneg _, by
      rw [sq]; exact_mod_cast Nat.mul_le_mul htop one_le_magUnits_top⟩
  have hstep : (magUnits (infMag - 1) : ℝ) < magUnits infMag :=
    Nat.cast_lt.mpr (magUnits_strictMono (by decide))
  have hnear := sqrtMag_nearest ha htop (j := infMag - 1) (Nat.sub_le _ _)
  rw [hinf, abs_of_nonneg (by linarith), abs_of_nonneg (by linarith)] at hnear
  linarith

end Root

theorem sqrt_of_pos {x : F64} (hx : isFinite x = true) (hpos : 0 < units x) :
    sqrt x = pack false (sqrtMag (units x).natAbs) := by
  have hz : isZero x = false := by
    rw [Bool.eq_false_iff, Ne, ← units_eq_zero_iff]; exact hpos.ne'
  simp [sqrt, not_isNaN_of_isFinite hx, hz, sign_eq_false_of_pos hpos, not_isInf_of_isFinite hx]

/-- The distance of a value from a number that is not negative is no less than that of its magnitude. -/
theorem abs_magUnits_sub_le (w : F64) {r : ℝ} (hr : 0 ≤ r) :
    |(magUnits (magBits w) : ℝ) - r| ≤ |(units w : ℝ) - r| := by
  have hw : (magUnits (magBits w) : ℝ) = |(units w : ℝ)| := by
    rw [← natAbs_units, Nat.cast_natAbs, Int.cast_abs]
  rw [hw]
  simpa [abs_of_nonneg hr] using abs_abs_sub_abs_le (units w : ℝ) r

theorem sqrt_nearest_of_pos {x w : F64} (hx : isFinite x = true) (hpos : 0 < units x) (hw : isFinite w = true) :
    isFinite (sqrt x) = true ∧
    |(units (sqrt x) : ℝ) - √((units x : ℝ) * one)| ≤ |(units w : ℝ) - √((units x : ℝ) * one)| := by
  have ha : 0 < (units x).natAbs := Int.natAbs_pos.mpr hpos.ne'
  have htop : (units x).natAbs ≤ magUnits (infMag - 1) := by
    rw [natAbs_units]
    exact magUnits_strictMono.monotone (Nat.le_sub_one_of_lt ((isFinite_iff x).mp hx))
  have hcast : (units x : ℝ) * one = (((units x).natAbs * one : ℕ) : ℝ) := by
    rw [Nat.cast_mul, Nat.cast_natAbs, abs_of_pos hpos]
  have hlt := sqrtMag_lt_infMag ha htop
  rw [sqrt_of_pos hx hpos, hcast]
  refine ⟨isFinite_pack false hlt, ?_⟩
  rw [units_pack false (hlt.trans infMag_lt), if_neg (by decide), Int.cast_natCast]
  exact (sqrtMag_nearest ha htop ((isFinite_iff w).mp hw).le).trans (abs_magUnits_sub_le w (Real.sqrt_nonneg _))

end Sys2Proof.Binary64

namespace Sys2Proof.Proofs

open Sys2Proof.Binary64

/-- Settles O52: a zero is its own root, and the root of a greater value is rounded with a sticky bit. -/
theorem sqrtRoundsToNearest : Obligations.SqrtRoundsToNearest := by
  intro x w hx hnonneg hw
  rcases hnonneg.eq_or_lt with h0 | hpos
  · rw [sqrt_of_isZero ((units_eq_zero_iff x).mp h0.symm), ← h0]
    exact ⟨hx, by simp⟩
  · exact sqrt_nearest_of_pos hx hpos hw

end Sys2Proof.Proofs
end

section
/-! PROOFS. What a command that answers a next state has written and reported: its write set (10_state.md R44) and the
position in ERRPOS (10_state.md R32). -/

namespace Sys2Proof.Machine

open Claims

/-! ### What a command leaves unchanged -/

section Writes
variable {i : Instr} {s t : State}

/-- Parameters, CAPS, CMAP, the fault record and the host's side of the port are in no command's write set. -/
theorem exec_frame (h : exec i s = .next t) :
    t = { s with status := t.status, errpos := t.errpos, mem := t.mem, rng := t.rng } := by
  rcases exec_next h with ⟨u, hu, rfl⟩ | ⟨e, pos, _, rfl⟩
  · cases hu <;> rfl
  · rfl

/-- IDX and the bytes of SYM beyond FLEN are in the write set of no command that fills SYM. -/
theorem exec_sameOutsideSym (hi : i = .map ∨ i = .awgn ∨ i = .pnrot) (h : exec i s = .next t) :
    SameOutsideSym s t := by
  rcases exec_next h with ⟨u, hu, rfl⟩ | ⟨e, pos, _, rfl⟩
  · intro a ha
    cases hu with
    | sym ys r _ hlen =>
      rw [report_mem, readByte_writeSymFrame]
      unfold symIOffset
      omega
    | idx ps _ _ hidx => rcases hidx with rfl | rfl <;> simp at hi
    | seed hseed => subst hseed; simp at hi
  · exact fun _ _ => rfl

/-- SYM and the bytes of IDX beyond FLEN are in the write set of no command that fills IDX. -/
theorem exec_sameOutsideIdx (hi : i = .demap ∨ i = .slice) (h : exec i s = .next t) : SameOutsideIdx s t := by
  rcases exec_next h with ⟨u, hu, rfl⟩ | ⟨e, pos, _, rfl⟩
  · intro a ha
    cases hu with
    | sym ys r _ _ _ hsym => rcases hsym with ⟨rfl, _⟩ | ⟨rfl, _⟩ | ⟨rfl, _⟩ <;> simp at hi
    | idx ps _ hlen =>
      rw [report_mem, readByte_writeIdxFrame]
      unfold idxOffset
      omega
    | seed hseed => subst hseed; simp at hi
  · exact fun _ _ => rfl

theorem exec_seed_mem (h : exec .seed s = .next t) : t.mem = s.mem := by
  cases h; rfl

/-- Only AWGN, PNROT and SEED have RNG in their write sets. -/
theorem exec_rng (hi : i = .map ∨ i = .demap ∨ i = .slice) (h : exec i s = .next t) : t.rng = s.rng := by
  rcases exec_next h with ⟨u, hu, rfl⟩ | ⟨e, pos, _, rfl⟩
  · cases hu with
    | sym ys r _ _ _ hsym =>
      rcases hsym with ⟨_, hr⟩ | ⟨rfl, _⟩ | ⟨rfl, _⟩
      · exact hr
      all_goals simp at hi
    | idx => rfl
    | seed hseed => subst hseed; simp at hi
  · rfl

end Writes

/-! ### What a command reports -/

theorem posWord_toNat {k : Nat} {n : Word} (h : k < n.toNat) : (posWord k).toNat = k := by
  rw [posWord, BitVec.toNat_ofNat, Nat.mod_eq_of_lt (h.trans n.isLt)]

/-- An error tied to no element has code 3, 5, 6 or 9 (60_exceptions.md R111). -/
theorem code_of_mem_frameErrors :
    ∀ e ∈ [BlockError.degenerateSignal, .frameLength, .invalidParameter, .numericOverflow],
      e.code ∈ [3, 5, 6, 9] := by decide

/-- An error tied to an element has code 1, 7, 8 or 9 (60_exceptions.md R111). -/
theorem code_of_mem_elementErrors :
    ∀ e ∈ [BlockError.invalidIndex, .nonFiniteInput, .notAConstellationPoint, .numericOverflow],
      e.code ∈ [1, 7, 8, 9] := by decide

/-- What ERRPOS holds beside each error code of a command that answered a next state. -/
theorem exec_errpos {i : Instr} {s t : State} (h : exec i s = .next t) :
    (t.errField ∈ [0, 3, 5, 6, 9] ∧ t.errpos = nopos) ∨
    (t.errField ∈ [1, 7, 8, 9] ∧ t.errpos.toNat < s.flen.toNat ∧ s.flen.toNat ≤ s.maxFrame) := by
  rcases exec_next h with ⟨u, _, rfl⟩ | ⟨e, pos, he, rfl⟩
  · exact .inl ⟨by simp, rfl⟩
  · rw [report_errField, report_errpos]
    cases he with
    | frame _ he => exact .inl ⟨List.mem_cons_of_mem _ (code_of_mem_frameErrors e he), rfl⟩
    | element k _ he hk hn =>
      rw [posWord_toNat hk]
      exact .inr ⟨code_of_mem_elementErrors e he, hk, hn⟩

end Sys2Proof.Machine

namespace Sys2Proof.Proofs

open Sys2Proof.Machine Sys2Proof.Claims

/-- Settles O48: one lemma about `exec` for each part of R44's table. -/
theorem writeSets : Obligations.WriteSets := fun _ _ _ h =>
  ⟨exec_frame h, fun hi => exec_sameOutsideSym hi h, fun hi => exec_sameOutsideIdx hi h,
    fun hi => exec_seed_mem (hi ▸ h), fun hi => exec_rng hi h⟩

/-- Settles O46: code 9 alone stands beside both kinds of ERRPOS. -/
theorem errorPosition : Obligations.ErrorPosition := by
  intro i s t h
  have hframe : ∀ c ∈ ([0, 3, 5, 6, 9] : List Byte), c ∉ ([1, 7, 8] : List Byte) := by decide
  have helement : ∀ c ∈ ([1, 7, 8, 9] : List Byte), c ∉ ([0, 3, 4, 5, 6] : List Byte) := by decide
  rcases exec_errpos h with ⟨hcode, hpos⟩ | ⟨hcode, hpos, _⟩
  · exact ⟨fun hc => absurd hc (hframe _ hcode), fun _ => .inr hpos, fun _ => hpos⟩
  · exact ⟨fun _ => hpos, fun _ => .inl hpos, fun hc => absurd hc (helement _ hcode)⟩

end Sys2Proof.Proofs
end

section
/-! PROOFS. The invariant of every run (`State.Legal`): it holds at reset, and every step keeps it; and the constants
CAPS and CMAP no step changes. -/

namespace Sys2Proof.Machine

/-! ### Offsets of buffer entries -/

theorem bufferHalf_iff (maxFrame a : Nat) :
    bufferHalf maxFrame a = true ↔
      (0x10000 ≤ a ∧ a < 0x10000 + 8 * maxFrame ∨ 0x20000 ≤ a ∧ a < 0x20000 + 16 * maxFrame) ∧ a % 8 = 0 := by
  simp only [bufferHalf, Bool.and_eq_true, Bool.or_eq_true, decide_eq_true_eq, beq_iff_eq]

section Offsets
variable {maxFrame k : Nat} (hk : k < maxFrame)
include hk

theorem bufferHalf_idxOffset : bufferHalf maxFrame (idxOffset k) = true := by
  rw [bufferHalf_iff, idxOffset]; omega

theorem bufferHalf_symIOffset : bufferHalf maxFrame (symIOffset k) = true := by
  rw [bufferHalf_iff, symIOffset]; omega

theorem bufferHalf_symQOffset : bufferHalf maxFrame (symQOffset k) = true := by
  rw [bufferHalf_iff, symQOffset]; omega

end Offsets

/-- Above the registers the register map (20_memory.md R48) names buffer entries and halves only. -/
theorem bufferHalf_of_targetOf {maxFrame offset : Nat} {tgt : Target} (h : targetOf maxFrame offset = some tgt)
    (ho : 0x00040 < offset) : bufferHalf maxFrame offset = true := by
  unfold targetOf at h
  iterate 9 rw [if_neg (by omega)] at h
  rw [bufferHalf_iff]
  split at h
  · omega
  split at h
  · omega
  split at h
  · omega
  · cases h

/-- The offset of an IDX entry or SYM half lies above the registers. -/
theorem registers_lt_offset {tgt : Target}
    (h : (∃ k, tgt = .idx k) ∨ (∃ k, tgt = .symI k) ∨ ∃ k, tgt = .symQ k) : 0x00040 < tgt.offset := by
  rcases h with ⟨k, rfl⟩ | ⟨k, rfl⟩ | ⟨k, rfl⟩
  · simp only [Target.offset, idxOffset]; omega
  · simp only [Target.offset, symIOffset]; omega
  · simp only [Target.offset, symQOffset]; omega

/-! ### Whole entries -/

theorem readByte_writeWord_ne_none (m : Memory) (a b : Nat) (w : Word) :
    (m.writeWord a w).readByte b ≠ none ↔ (a ≤ b ∧ b < a + 8) ∨ m.readByte b ≠ none := by
  rw [readByte_writeWord]
  split <;> simp [*]

theorem whole_nil (maxFrame : Nat) : Memory.whole maxFrame [] := fun _ h => absurd rfl h

section Whole
variable {maxFrame : Nat} {m : Memory}

/-- A write of a whole half marks its eight bytes and no others, so written marks stay per half (10_state.md R38). -/
theorem whole_writeWord (hm : Memory.whole maxFrame m) {a : Nat} (ha : bufferHalf maxFrame a = true) (w : Word) :
    Memory.whole maxFrame (m.writeWord a w) := by
  have haligned := ((bufferHalf_iff _ _).mp ha).2
  intro b hb
  simp only [readByte_writeWord_ne_none] at hb ⊢
  rcases hb with hin | hb
  · rw [show b / 8 * 8 = a by omega]
    exact ⟨ha, fun j hj => .inl (by omega)⟩
  · obtain ⟨hhalf, hbytes⟩ := hm b hb
    exact ⟨hhalf, fun j hj => .inr (hbytes j hj)⟩

theorem whole_writeSymFrame (hm : Memory.whole maxFrame m) (k : Nat) (ps : List Point) (h : k + ps.length ≤ maxFrame) :
    Memory.whole maxFrame (m.writeSymFrame k ps) := by
  induction ps generalizing m k with
  | nil => exact hm
  | cons p ps ih =>
    rw [List.length_cons] at h
    have hk : k < maxFrame := by omega
    exact ih (whole_writeWord (whole_writeWord hm (bufferHalf_symIOffset hk) _) (bufferHalf_symQOffset hk) _) _
      (by omega)

theorem whole_writeIdxFrame (hm : Memory.whole maxFrame m) (k : Nat) (ps : List (Fin 16))
    (h : k + ps.length ≤ maxFrame) : Memory.whole maxFrame (m.writeIdxFrame k ps) := by
  induction ps generalizing m k with
  | nil => exact hm
  | cons p ps ih =>
    rw [List.length_cons] at h
    exact ih (whole_writeWord hm (bufferHalf_idxOffset (by omega)) _) _ (by omega)

end Whole

/-! ### STATUS and ERRPOS -/

theorem statusLegal_of_mem {t : State} (hlt : t.status.toNat < 2 ^ 16)
    (h : t.errField ∈ [0, 1, 3, 4, 5, 6, 7, 8, 9]) : t.statusLegal := by
  have hcode : ∀ c ∈ ([0, 1, 3, 4, 5, 6, 7, 8, 9] : List Byte), c.toNat ≤ 9 ∧ c ≠ BlockError.lengthMismatch.code := by
    decide
  exact ⟨hlt, hcode _ h⟩

theorem errposLegal_of_mem {t : State} (hlt : t.errpos.toNat < t.maxFrame) (h : t.errField ∈ [1, 7, 8, 9]) :
    t.errposLegal := by
  have hcode : ∀ c ∈ ([1, 7, 8, 9] : List Byte),
      c = BlockError.invalidIndex.code ∨ c = BlockError.nonFiniteInput.code ∨
        c = BlockError.notAConstellationPoint.code ∨ c = BlockError.numericOverflow.code := by decide
  exact .inr ⟨hlt, hcode _ h⟩

/-! ### Commands keep the invariant -/

section Command
variable {i : Instr} {s t : State} (h : exec i s = .next t)
include h

theorem exec_maxFrame : t.maxFrame = s.maxFrame := by rw [exec_frame h]; rfl

theorem exec_status_lt : t.status.toNat < 2 ^ 16 := by
  rcases exec_next h with ⟨u, _, rfl⟩ | ⟨e, pos, _, rfl⟩
  all_goals exact statusWord_lt _ _

theorem exec_statusLegal : t.statusLegal := by
  have hframe : ([0, 3, 5, 6, 9] : List Byte) ⊆ [0, 1, 3, 4, 5, 6, 7, 8, 9] := by decide
  have helement : ([1, 7, 8, 9] : List Byte) ⊆ [0, 1, 3, 4, 5, 6, 7, 8, 9] := by decide
  refine statusLegal_of_mem (exec_status_lt h) ?_
  rcases exec_errpos h with ⟨hcode, _⟩ | ⟨hcode, _⟩
  · exact hframe hcode
  · exact helement hcode

theorem exec_errposLegal : t.errposLegal := by
  rcases exec_errpos h with ⟨_, hpos⟩ | ⟨hcode, hpos, hn⟩
  · exact .inl hpos
  · exact errposLegal_of_mem (by rw [exec_maxFrame h]; omega) hcode

theorem exec_mem_wf (hm : Memory.wf s.mem = true) : Memory.wf t.mem = true := by
  rcases exec_next h with ⟨u, hu, rfl⟩ | ⟨e, pos, _, rfl⟩
  · cases hu with
    | sym ys => exact writeSymFrame_wf hm 0 ys
    | idx ps => exact writeIdxFrame_wf hm 0 ps
    | seed => exact hm
  · exact hm

/-- A command that succeeds has passed the check FLEN ≤ MAX_FRAME, so it writes entries of the buffers only. -/
theorem exec_mem_whole (hm : Memory.whole s.maxFrame s.mem) : Memory.whole s.maxFrame t.mem := by
  rcases exec_next h with ⟨u, hu, rfl⟩ | ⟨e, pos, _, rfl⟩
  · cases hu with
    | sym ys r hn hlen => exact whole_writeSymFrame hm 0 ys (by omega)
    | idx ps hn hlen => exact whole_writeIdxFrame hm 0 ps (by omega)
    | seed => exact hm
  · exact hm

theorem exec_constants : t.caps = s.caps ∧ t.cmap = s.cmap := by rw [exec_frame h]; exact ⟨rfl, rfl⟩

end Command

/-! ### Every access keeps the invariant -/

/-- Legality reads CAPS, CMAP, the memory, STATUS and ERRPOS; where the constants stay, the other three are to show. -/
theorem State.Legal.of_constants {s t : State} (hs : s.Legal) (hconst : t.caps = s.caps ∧ t.cmap = s.cmap)
    (hwf : Memory.wf t.mem = true) (hwhole : Memory.whole s.maxFrame t.mem) (hstatus : t.statusLegal)
    (herrpos : t.errposLegal) : t.Legal := by
  obtain ⟨hcaps, hcmap⟩ := hconst
  have hmax : t.maxFrame = s.maxFrame := by rw [State.maxFrame, hcaps, State.maxFrame]
  refine ⟨?_, hcmap ▸ hs.rom, hwf, hmax ▸ hwhole, hstatus, herrpos⟩
  rw [State.capsLegal, hmax, hcaps]
  exact hs.caps

theorem statusLegal_of_status_eq_zero {s : State} (h : s.status = 0) : s.statusLegal := by
  refine statusLegal_of_mem ?_ ?_
  · rw [h]; decide
  · rw [State.errField, h]; decide

theorem accessed_constants {s t : State} (h : Accessed s t) : t.caps = s.caps ∧ t.cmap = s.cmap := by
  cases h with
  | command i _ h => exact exec_constants h
  | read | flen | snrDb | pnParam | rotDeg | seed | half | illegal | reset => exact ⟨rfl, rfl⟩

section Legal
variable {s : State} (hs : s.Legal)
include hs

theorem exec_legal {i : Instr} {t : State} (h : exec i s = .next t) : t.Legal :=
  hs.of_constants (exec_constants h) (exec_mem_wf h hs.memSorted) (exec_mem_whole h hs.memWhole) (exec_statusLegal h)
    (exec_errposLegal h)

theorem illegalCommand_legal (w : Word) : (s.illegalCommand w).Legal := by
  refine hs.of_constants ⟨rfl, rfl⟩ hs.memSorted hs.memWhole (statusLegal_of_mem (statusWord_lt _ _) ?_) (.inl rfl)
  rw [State.illegalCommand, raise_eq_report, report_errField]
  decide

theorem resetEvent_legal : s.resetEvent.Legal :=
  hs.of_constants ⟨rfl, rfl⟩ rfl (whole_nil _) (statusLegal_of_status_eq_zero rfl) (.inl rfl)

theorem writeHalf_legal {offset : Nat} (ho : bufferHalf s.maxFrame offset = true) (v : Word) :
    State.Legal { s with mem := s.mem.writeWord offset v } :=
  hs.of_constants ⟨rfl, rfl⟩ (writeWord_wf hs.memSorted _ _) (whole_writeWord hs.memWhole ho v) hs.status hs.errpos

theorem accessed_legal {t : State} (h : Accessed s t) : t.Legal := by
  cases h with
  | read | flen | snrDb | pnParam | rotDeg | seed =>
    exact hs.of_constants ⟨rfl, rfl⟩ hs.memSorted hs.memWhole hs.status hs.errpos
  | half offset v tgt htgt hoffset hhalf =>
    exact writeHalf_legal hs (bufferHalf_of_targetOf htgt (hoffset ▸ registers_lt_offset hhalf)) v
  | command i _ h => exact exec_legal hs h
  | illegal w => exact illegalCommand_legal hs w
  | reset => exact resetEvent_legal hs

/-- The host's port is no part of what legality reads. -/
theorem withPort_legal (rest : List HostAccess) : State.Legal { s with port := rest } :=
  hs.of_constants ⟨rfl, rfl⟩ hs.memSorted hs.memWhole hs.status hs.errpos

end Legal

/-! ### The reset state -/

theorem reset_caps_toNat : State.reset.caps.toNat = Config.chip.maxFrame := by
  have hmax := (maxFrame_bounds Config.chip).2
  exact (BitVec.toNat_ofNat _ _).trans (Nat.mod_eq_of_lt (by omega))

theorem reset_maxFrame : State.reset.maxFrame = Config.chip.maxFrame := by
  have hmax := (maxFrame_bounds Config.chip).2
  rw [State.maxFrame, BitVec.extractLsb'_toNat, reset_caps_toNat, Nat.shiftRight_zero, Nat.mod_eq_of_lt (by omega)]

theorem reset_capsLegal : State.reset.capsLegal := by
  rw [State.capsLegal, reset_maxFrame]
  obtain ⟨hmin, hmax⟩ := maxFrame_bounds Config.chip
  exact ⟨hmin, hmax, reset_caps_toNat⟩

end Sys2Proof.Machine

namespace Sys2Proof.Proofs

open Sys2Proof.Machine Sys2Proof.Claims

/-- Settles O16: one lemma for each kind of access `step_next` lists. -/
theorem stepKeepsLegal : Obligations.StepKeepsLegal := by
  intro s t hs h
  rcases step_next h with ⟨_, rfl⟩ | ⟨_, rest, _, haccess⟩
  · exact hs
  · exact accessed_legal (withPort_legal hs rest) haccess

/-- Settles O17: no access has CAPS or CMAP in what it writes, and the reset event keeps both. -/
theorem constantsNeverChange : Obligations.ConstantsNeverChange := by
  intro s t h
  rcases step_next h with ⟨_, rfl⟩ | ⟨_, _, _, haccess⟩
  · exact ⟨rfl, rfl⟩
  · have hconst := accessed_constants haccess
    exact hconst

/-- Settles O15: MAX_FRAME fits CAPS bits 15:0, and CONST_ORDER is a permutation of CONST_REF. -/
theorem resetIsLegal : Obligations.ResetIsLegal :=
  ⟨reset_capsLegal, ⟨Config.chip.constPerm, rom_point Config.chip⟩, reset_mem_wf, whole_nil _,
    statusLegal_of_status_eq_zero rfl, .inl rfl⟩

/-- Settles O13: beside the fields that are literals, CAPS holds MAX_FRAME and the ROM holds CONST_ORDER. -/
theorem resetValues : Obligations.ResetValues :=
  ⟨rfl, rfl, rfl, rfl, rfl, rfl, rfl, reset_caps_toNat, rom_point Config.chip, rfl, fun _ => rfl⟩

end Sys2Proof.Proofs
end

section
/-! PROOFS. The fields of a binary64 pattern (10_state.md R34), and what they say of its class and its value. -/

namespace Sys2Proof.Binary64

section Fields
variable (x : F64)

/-- The biased exponent, bits 62:52. -/
theorem exponent_toNat : (x.extractLsb' 52 11).toNat = magBits x / 2 ^ 52 := by
  rw [magBits, BitVec.extractLsb'_toNat, BitVec.extractLsb'_toNat, Nat.shiftRight_eq_div_pow, Nat.shiftRight_zero]
  omega

/-- The fraction, bits 51:0. -/
theorem fraction_toNat : (x.extractLsb' 0 52).toNat = magBits x % 2 ^ 52 := by
  rw [magBits, BitVec.extractLsb'_toNat, BitVec.extractLsb'_toNat, Nat.shiftRight_zero]
  omega

theorem sign_iff_extract : sign x = true ↔ x.extractLsb' 63 1 = 1#1 := by
  rw [← BitVec.toNat_inj, BitVec.extractLsb'_toNat, Nat.shiftRight_eq_div_pow, sign, BitVec.msb_eq_decide,
    decide_eq_true_iff]
  have := x.isLt
  norm_num
  omega

theorem abs_units : |units x| = magUnits (magBits x) := by
  rw [Int.abs_eq_natAbs, natAbs_units]

theorem units_nonpos_of_sign (h : sign x = true) : units x ≤ 0 := by simp [units, h]

theorem units_nonneg_of_sign (h : sign x = false) : 0 ≤ units x := by simp [units, h]

end Fields

theorem magUnits_of_subnormal {k : Nat} (h : k / 2 ^ 52 = 0) : magUnits k = k % 2 ^ 52 := by
  rw [magUnits, if_pos h]; omega

theorem magUnits_of_normal {k : Nat} (h : k / 2 ^ 52 ≠ 0) :
    magUnits k = (2 ^ 52 + k % 2 ^ 52) * 2 ^ (k / 2 ^ 52 - 1) := if_neg h

end Sys2Proof.Binary64

namespace Sys2Proof.Proofs

open Sys2Proof.Binary64 Sys2Proof.Claims

/-- Settles O57: with biased exponent and fraction as quotient and remainder of the magnitude pattern by 2^52, each
class is a range of that pattern. -/
theorem patternsAndValues : Obligations.PatternsAndValues := by
  intro x
  simp only [exponent_toNat, fraction_toNat, abs_units]
  have hlt := magBits_lt x
  refine ⟨sign_iff_extract x, ?_, ?_, ?_, ?_, fun h => ?_, fun h _ => ?_, units_nonpos_of_sign x,
    units_nonneg_of_sign x⟩
  · rw [isFinite_iff, infMag]; omega
  · rw [isInf, decide_eq_true_iff, infMag]; omega
  · rw [isNaN, decide_eq_true_iff, infMag]; omega
  · rw [isZero_iff]; omega
  · rw [magUnits_of_subnormal h]
  · rw [magUnits_of_normal h]; push_cast; rfl

end Sys2Proof.Proofs
end

section
/-! PROOFS. The host port (20_memory.md R47 to R56): what an access answers, by the outcome of the checks of its width,
its alignment and its offset. -/

namespace Sys2Proof.Machine

/-! ### The access that waits -/

section Waiting
variable {s : State} {rest : List HostAccess} {f : Fault}

theorem step_of_port {a : HostAccess} (hp : s.port = a :: rest) : step s = performAccess { s with port := rest } a := by
  rw [step, hp]

theorem afterAccess_of_fault (h : step s = .fault f) :
    afterAccess s = { s with port := s.port.tail, faultRecord := s.faultRecord ++ [f] } := by
  rw [afterAccess, h]; rfl

/-- A model fault takes the access from the port and records the fault (60_exceptions.md R119; log entries 1 and 7). -/
theorem fault_recorded {a : HostAccess} (hp : s.port = a :: rest) (h : step s = .fault f) :
    step s = .fault f ∧ afterAccess s = { s with port := rest, faultRecord := s.faultRecord ++ [f] } := by
  rw [afterAccess_of_fault h, hp]
  exact ⟨h, rfl⟩

/-! ### Reads and writes by what their checks answer -/

variable {width offset : Nat} {v : Word} {tgt : Target}

theorem busTarget_withPort (s : State) (rest : List HostAccess) (width offset : Nat) :
    busTarget { s with port := rest } width offset = busTarget s width offset := rfl

theorem busRead_withPort (s : State) (rest : List HostAccess) (width offset : Nat) :
    busRead { s with port := rest } width offset = busRead s width offset := rfl

theorem busRead_of_target (h : busTarget s width offset = .ok tgt) : busRead s width offset = readTarget s tgt := by
  rw [busRead, h]

theorem step_read_value (hp : s.port = .read width offset :: rest) (h : busRead s width offset = .ok v) :
    step s = .next { s with port := rest, returned := s.returned ++ [v] } := by
  rw [step_of_port hp, performAccess, busRead_withPort, h]

theorem step_read_fault (hp : s.port = .read width offset :: rest) (h : busRead s width offset = .error f) :
    step s = .fault f := by
  rw [step_of_port hp, performAccess, busRead_withPort, h]

theorem step_write (hp : s.port = .write width offset v :: rest) (h : busTarget s width offset = .ok tgt) :
    step s = writeTarget { s with port := rest } v tgt := by
  rw [step_of_port hp, performAccess, busWrite, busTarget_withPort, h]

theorem step_write_fault (hp : s.port = .write width offset v :: rest) (h : busTarget s width offset = .error f) :
    step s = .fault f := by
  rw [step_of_port hp, performAccess, busWrite, busTarget_withPort, h]

/-- A read and a write whose checks fail are the same model fault, and it is recorded. -/
theorem fault_of_busTarget (h : busTarget s width offset = .error f)
    (hp : s.port = .read width offset :: rest ∨ s.port = .write width offset v :: rest) :
    step s = .fault f ∧ afterAccess s = { s with port := rest, faultRecord := s.faultRecord ++ [f] } := by
  rcases hp with hp | hp
  · have hread : busRead s width offset = .error f := by rw [busRead, h]
    exact fault_recorded hp (step_read_fault hp hread)
  · exact fault_recorded hp (step_write_fault hp h)

end Waiting

/-! ### The checks of an access -/

section Checks
variable {s : State} {width offset : Nat} {tgt : Target}

/-- R51, R52. -/
theorem busTarget_of_malformed (h : width ≠ 8 ∨ offset % 8 ≠ 0) :
    busTarget s width offset = .error .busError := if_pos h

theorem busTarget_of_unmapped (h : targetOf s.maxFrame offset = none) :
    busTarget s width offset = .error .busError := by
  rw [busTarget, h]
  exact ite_self _

theorem busTarget_of_mapped (h : targetOf s.maxFrame offset = some tgt) (ha : offset % 8 = 0) :
    busTarget s 8 offset = .ok tgt := by
  rw [busTarget, h, if_neg (by omega)]

/-- Above the registers an offset that lies in neither buffer is unmapped (R49). -/
theorem targetOf_eq_none {maxFrame : Nat} (ho : 0x00040 < offset) (h : bufferHalf maxFrame offset = false) :
    targetOf maxFrame offset = none := by
  cases ht : targetOf maxFrame offset with
  | none => rfl
  | some tgt => exact absurd (bufferHalf_of_targetOf ht ho) (by rw [h]; decide)

/-- The offset of a register names that register in a block of any size (R48). -/
theorem busTarget_register (tgt : Target) (h : tgt.offset ≤ 0x00040) : busTarget s 8 tgt.offset = .ok tgt := by
  cases tgt with
  | cmd | status | errpos | flen | snrDb | pnParam | rotDeg | seed | caps => exact busTarget_of_mapped rfl rfl
  | idx k => exact absurd h (registers_lt_offset (.inl ⟨k, rfl⟩)).not_ge
  | symI k => exact absurd h (registers_lt_offset (.inr (.inl ⟨k, rfl⟩))).not_ge
  | symQ k => exact absurd h (registers_lt_offset (.inr (.inr ⟨k, rfl⟩))).not_ge

/-- The offset of an entry of IDX or of a half of SYM, below MAX_FRAME, names that half (R48). -/
theorem busTarget_half {k : Nat} (hm : s.maxFrame ≤ 4096) (hk : k < s.maxFrame)
    (ho : offset = 0x10000 + 8 * k ∨ offset = 0x20000 + 16 * k ∨ offset = 0x20008 + 16 * k) :
    ∃ tgt : Target, busTarget s 8 offset = .ok tgt ∧ tgt.offset = offset ∧ 0x00040 < offset := by
  rcases ho with rfl | rfl | rfl
  · exact ⟨.idx k, busTarget_of_mapped (targetOf_idx hk) (by omega), rfl, by omega⟩
  · exact ⟨.symI k, busTarget_of_mapped (targetOf_symI hk hm) (by omega), rfl, by omega⟩
  · exact ⟨.symQ k, busTarget_of_mapped (targetOf_symQ hk hm) (by omega), rfl, by omega⟩

end Checks

/-! ### Registers -/

/-- The register behind each readable offset of R48. -/
theorem busRead_register (s : State) :
    ∀ p ∈ [(0x00008, s.status), (0x00010, s.errpos), (0x00018, s.flen), (0x00020, s.snrDb), (0x00028, s.pnParam),
      (0x00030, s.rotDeg), (0x00038, s.seed), (0x00040, s.caps)], busRead s 8 p.1 = .ok p.2 := by
  have read (tgt : Target) (h : tgt.offset ≤ 0x00040) : busRead s 8 tgt.offset = readTarget s tgt :=
    busRead_of_target (busTarget_register tgt h)
  simp only [List.forall_mem_cons]
  exact ⟨read .status (by decide), read .errpos (by decide), read .flen (by decide), read .snrDb (by decide),
    read .pnParam (by decide), read .rotDeg (by decide), read .seed (by decide), read .caps (by decide),
    List.forall_mem_nil _⟩

/-! ### Buffer halves -/

/-- A target above the registers is a buffer half, which the memory holds. -/
theorem readTarget_half (s : State) {tgt : Target} (h : 0x00040 < tgt.offset) :
    readTarget s tgt = bufferRead s tgt.offset := by
  cases tgt with
  | cmd | status | errpos | flen | snrDb | pnParam | rotDeg | seed | caps => exact absurd h (by decide)
  | idx | symI | symQ => rfl

theorem writeTarget_half (s : State) (v : Word) {tgt : Target} (h : 0x00040 < tgt.offset) :
    writeTarget s v tgt = .next { s with mem := s.mem.writeWord tgt.offset v } := by
  cases tgt with
  | cmd | status | errpos | flen | snrDb | pnParam | rotDeg | seed | caps => exact absurd h (by decide)
  | idx | symI | symQ => rfl

section Half
variable {s : State} {k offset : Nat} (hm : s.maxFrame ≤ 4096) (hk : k < s.maxFrame)
  (ho : offset = 0x10000 + 8 * k ∨ offset = 0x20000 + 16 * k ∨ offset = 0x20008 + 16 * k)
include hm hk ho

theorem busRead_half : busRead s 8 offset = bufferRead s offset := by
  obtain ⟨tgt, htgt, rfl, habove⟩ := busTarget_half hm hk ho
  rw [busRead_of_target htgt, readTarget_half s habove]

theorem step_write_half {v : Word} {rest : List HostAccess} (hp : s.port = .write 8 offset v :: rest) :
    step s = .next { s with port := rest, mem := s.mem.writeWord offset v } := by
  obtain ⟨tgt, htgt, rfl, habove⟩ := busTarget_half hm hk ho
  rw [step_write hp htgt, writeTarget_half _ v habove]

end Half

end Sys2Proof.Machine

/-! ### The window on the platform's bus -/

namespace Sys2Proof

/-- The configuration whose window stands at the multiple `n` of the window's size (R47). -/
def Config.ofBaseBlock (n : Nat) : Config := { (default : Config) with baseBlock := n }

theorem Machine.windowOffset_inside (c : Config) {o : Nat} (h : o < 0x40000) :
    windowOffset c (c.base + o) = some o := by
  rw [windowOffset, if_pos (by omega), Nat.add_sub_cancel_left]

theorem Machine.windowOffset_outside (c : Config) {address : Nat} (h : address < c.base ∨ c.base + 0x40000 ≤ address) :
    windowOffset c address = none := if_neg (by omega)

end Sys2Proof

namespace Sys2Proof.Proofs

open Sys2Proof.Machine

/-- Settles O5: width and alignment are checked before anything else. -/
theorem badWidthOrAlignmentFaults : Obligations.BadWidthOrAlignmentFaults :=
  fun _ _ _ _ _ hbad hp => fault_of_busTarget (busTarget_of_malformed hbad) hp

/-- Settles O6: each of the three ranges lies above the registers and outside both buffers. -/
theorem unmappedOffsetsFault : Obligations.UnmappedOffsetsFault := by
  intro s offset v rest ⟨_, hmax, _⟩ hrange hp
  have houtside : bufferHalf s.maxFrame offset = false := by
    rw [← Bool.not_eq_true, bufferHalf_iff]; omega
  exact fault_of_busTarget (busTarget_of_unmapped (targetOf_eq_none (by omega) houtside)) hp

/-- Settles O7: all four offsets are mapped, and the register refuses the direction of the access. -/
theorem readOnlyAndWriteOnlyFault : Obligations.ReadOnlyAndWriteOnlyFault := by
  intro s v rest hp
  rcases hp with hp | hp | hp | hp
  · exact fault_recorded hp (step_write hp (busTarget_register .status (by decide)))
  · exact fault_recorded hp (step_write hp (busTarget_register .errpos (by decide)))
  · exact fault_recorded hp (step_write hp (busTarget_register .caps (by decide)))
  · exact fault_recorded hp (step_read_fault hp (busRead_of_target (busTarget_register .cmd (by decide))))

/-- Settles O8: a register always answers; a half answers when the memory lists its eight bytes. -/
theorem hostReadReturns : Obligations.HostReadReturns := by
  intro s rest ⟨_, hmax, _⟩
  refine ⟨fun offset v hmem hp => step_read_value hp (busRead_register s _ hmem), fun k offset hk ho hp => ?_⟩
  have hread := busRead_half hmax hk ho
  refine ⟨fun v hv => step_read_value hp ?_, fun hnone => step_read_fault hp ?_⟩
  · rw [hread, bufferRead, hv]
  · rw [hread, bufferRead, hnone]

/-- Settles O9: a register write is one field's update, a write of a half one `Memory.writeWord`. -/
theorem hostWriteStores : Obligations.HostWriteStores := by
  intro s v rest ⟨_, hmax, _⟩
  refine ⟨fun hp => step_write hp (busTarget_register .flen (by decide)),
    fun hp => step_write hp (busTarget_register .snrDb (by decide)),
    fun hp => step_write hp (busTarget_register .pnParam (by decide)),
    fun hp => step_write hp (busTarget_register .rotDeg (by decide)),
    fun hp => step_write hp (busTarget_register .seed (by decide)), fun k offset hk ho hp => ?_⟩
  refine ⟨_, step_write_half hmax hk ho hp, rfl, readWord_writeWord_same _ _ _, fun i hi => ?_, fun a ha => ?_⟩
  · rw [readByte_writeWord, if_pos (by omega), Nat.add_sub_cancel_left, byteOfWord]
  · rw [readByte_writeWord, if_neg (by omega)]

/-- Settles O10: `windowOffset` on the two sides of the window's edges; `Config.ofBaseBlock` has any given BASE. -/
theorem windowOfTheBus : Obligations.WindowOfTheBus := by
  refine ⟨fun c => ⟨Nat.mul_mod_right _ _, fun width o v ho => ?_, fun width address v hout => ?_⟩, fun b hb => ?_⟩
  · rw [readAt, writeAt, windowOffset_inside c ho]; exact ⟨rfl, rfl⟩
  · rw [readAt, writeAt, windowOffset_outside c hout]; exact ⟨rfl, rfl⟩
  · exact ⟨Config.ofBaseBlock (b / 0x40000), Nat.mul_div_cancel' (Nat.dvd_of_mod_eq_zero hb)⟩

end Sys2Proof.Proofs
end

section
/-! PROOFS. The decoder and the encoder of command words (30_encoding.md R66 to R70), and what a write of CMD does. -/

namespace Sys2Proof

/-! ### A word and its two fields -/

section Words
variable (w : Word) (f : CommandFields)

theorem commandWord_commandFields : commandWord (commandFields w) = w := by
  apply BitVec.eq_of_getLsbD_eq
  intro i hi
  simp only [commandWord, commandFields, BitVec.getLsbD_append, BitVec.getLsbD_extractLsb']
  split
  · next hlow => rw [decide_eq_true hlow, Bool.true_and, Nat.zero_add]
  · next hhigh => rw [decide_eq_true (by omega), Bool.true_and, Nat.add_sub_cancel' (by omega)]

theorem commandFields_commandWord : commandFields (commandWord f) = f := by
  have hopc : (f.rsvd ++ f.opc).extractLsb' 0 8 = f.opc := Machine.low_byte 56 f.rsvd f.opc
  have hrsvd : (f.rsvd ++ f.opc).extractLsb' 8 56 = f.rsvd := BitVec.extractLsb'_append_eq_left
  rw [commandFields, commandWord, hopc, hrsvd]

end Words

/-! ### Opcodes and commands -/

section Codes
variable {w : Word} {i : Instr}

theorem instrOfOpcode_eq_some_iff {opc : BitVec 8} : instrOfOpcode opc = some i ↔ opc = opcodeOf i := by
  constructor
  · intro h
    unfold instrOfOpcode at h
    split_ifs at h with hopc hopc hopc hopc hopc hopc <;> cases h <;> exact hopc
  · rintro rfl
    cases i <;> rfl

/-- The six opcodes lie strictly between the two ranges of unassigned ones (R68, R70). -/
theorem opcodeOf_assigned (i : Instr) : opcodeOf i ≠ 0x00#8 ∧ ¬ 0x07#8 ≤ opcodeOf i := by
  cases i <;> decide

theorem decode_eq_ok_iff_fields :
    decode w = .ok i ↔ (commandFields w).rsvd = 0 ∧ (commandFields w).opc = opcodeOf i := by
  rw [← instrOfOpcode_eq_some_iff, decode]
  by_cases hrsvd : (commandFields w).rsvd = 0#56
  · cases instrOfOpcode (commandFields w).opc <;> simp [hrsvd]
  · simp [hrsvd]

/-- A word decodes to a command exactly when it is zero-extended from the command's opcode (R67, R68). -/
theorem decode_eq_ok_iff : decode w = .ok i ↔ w = encode i := by
  rw [decode_eq_ok_iff_fields]
  constructor
  · rintro ⟨hrsvd, hopc⟩
    rw [← commandWord_commandFields w, encode, ← hrsvd, ← hopc]
  · rintro rfl
    rw [encode, commandFields_commandWord]
    exact ⟨rfl, rfl⟩

/-- None of the three ways R70 names for a word to be illegal lets it decode. -/
theorem decode_ne_ok_of_illegal
    (h : w.extractLsb' 8 56 ≠ 0 ∨ w.extractLsb' 0 8 = 0x00#8 ∨ 0x07#8 ≤ w.extractLsb' 0 8) : decode w ≠ .ok i := by
  intro hok
  obtain ⟨hrsvd, hopc⟩ : w.extractLsb' 8 56 = 0 ∧ w.extractLsb' 0 8 = opcodeOf i := decode_eq_ok_iff_fields.mp hok
  obtain ⟨hzero, hlarge⟩ := opcodeOf_assigned i
  rw [hopc] at h
  exact h.elim (· hrsvd) (·.elim hzero hlarge)

end Codes

end Sys2Proof

namespace Sys2Proof.Machine

/-! ### A write of CMD -/

section Command
variable {s : State} {w : Word} {i : Instr} {rest : List HostAccess}

theorem runCommandWord_of_ok (h : decode w = .ok i) : runCommandWord s w = exec i s := by rw [runCommandWord, h]

theorem runCommandWord_of_not_ok (h : ∀ i, decode w ≠ .ok i) : runCommandWord s w = .next (s.illegalCommand w) := by
  cases hd : decode w with
  | ok i => exact absurd hd (h i)
  | error e => rw [runCommandWord, hd]

theorem step_write_cmd (hp : s.port = .write 8 0x00000 w :: rest) :
    step s = runCommandWord { s with port := rest } w :=
  step_write hp (busTarget_register .cmd (by decide))

end Command

end Sys2Proof.Machine

namespace Sys2Proof.Proofs

open Sys2Proof.Machine

/-- Settles O1: a word is its two fields, and a word that decodes has RSVD 0 and the command's opcode. -/
theorem decodeExactlyTheCommandWords : Obligations.DecodeExactlyTheCommandWords :=
  ⟨fun _ => decode_eq_ok_iff.mpr rfl, fun _ _ => decode_eq_ok_iff.mp⟩

/-- Settles O4: no command has such a word, so the write reports it. -/
theorem illegalWordsReported : Obligations.IllegalWordsReported := by
  intro s w rest hp hillegal
  have hstep : step s = .next (State.illegalCommand { s with port := rest } w) := by
    rw [step_write_cmd hp, runCommandWord_of_not_ok fun _ => decode_ne_ok_of_illegal hillegal]
  exact ⟨_, hstep, report_errField _ _ _ _, report_lastOpField _ _ _ _, statusWord_lt _ _, rfl⟩

/-- Settles O2: the first six words are the commands' own, the others fail R67's checks. -/
theorem tableWordsDecode : Obligations.TableWordsDecode :=
  ⟨decode_eq_ok_iff.mpr (by decide), decode_eq_ok_iff.mpr (by decide), decode_eq_ok_iff.mpr (by decide),
    decode_eq_ok_iff.mpr (by decide), decode_eq_ok_iff.mpr (by decide), decode_eq_ok_iff.mpr (by decide),
    by decide, by decide, by decide⟩

/-- Settles O3: offset 0 is CMD in a block of any size, and a write of CMD runs the decoded command. -/
theorem stepRunsTheDecodedCommand : Obligations.StepRunsTheDecodedCommand := by
  intro s w i rest hp hdecode
  rw [step_write_cmd hp, runCommandWord_of_ok hdecode]

end Sys2Proof.Proofs
end

section
/-! PROOFS. The constellation (40_mapper.md R74 to R77): a ROM is legal exactly when it is a bijection onto the sixteen
points, and on a legal ROM `inverse` is the inverse of `point`. -/

namespace Sys2Proof

open Binary64 Claims

/-! ### The reference order -/

/-- The place of (L[a], L[b]) in CONST_REF, 4a + b (R75). -/
def refPosition : Fin 4 × Fin 4 ≃ Fin 16 := finProdFinEquiv

theorem constRef_refPosition (a b : Fin 4) : constRef (refPosition (a, b)) = ⟨level a, level b⟩ := by
  revert a b; decide

theorem exists_levels_constRef (p : Fin 16) : ∃ a b : Fin 4, constRef p = ⟨level a, level b⟩ := ⟨_, _, rfl⟩

/-- A table is a bijection onto the sixteen points exactly when it is a reordering of CONST_REF (00_scope.md R6). -/
theorem bijectionOntoPoints_iff (f : Fin 16 → Point) :
    BijectionOntoPoints f ↔ ∃ e : Equiv.Perm (Fin 16), ∀ p, f p = constRef (e p) := by
  constructor
  · rintro ⟨hunique, hpoint⟩
    choose a b hab using hpoint
    have hf : ∀ p, f p = constRef (refPosition (a p, b p)) := fun p => by rw [constRef_refPosition, hab]
    have hinj : Function.Injective fun p => refPosition (a p, b p) := fun p q h =>
      (hunique (a q) (b q)).unique ((hf p).trans ((congrArg constRef h).trans (constRef_refPosition _ _))) (hab q)
    exact ⟨.ofBijective _ (Finite.injective_iff_bijective.mp hinj), hf⟩
  · rintro ⟨e, he⟩
    refine ⟨fun a b => ⟨e.symm (refPosition (a, b)), ?_, fun q (hq : f q = _) => ?_⟩,
      fun p => he p ▸ exists_levels_constRef _⟩
    · exact (he _).trans (by rw [e.apply_symm_apply, constRef_refPosition])
    · rw [he, ← constRef_refPosition] at hq
      rw [← constRef_injective hq, e.symm_apply_apply]

/-- The configuration with the given order of CONST_REF. -/
def Config.ofOrder (e : Equiv.Perm (Fin 16)) : Config := { (default : Config) with constPerm := e }

/-- A sum over the positions is a sum over the pairs of levels, whatever the order (R76). -/
theorem sum_rom_point (c : Config) (g : Point → Int) :
    ∑ p, g (c.rom.point p) = ∑ a : Fin 4, ∑ b : Fin 4, g ⟨level a, level b⟩ := by
  calc ∑ p, g (c.rom.point p)
      = ∑ p, g (constRef (c.constPerm p)) := by simp only [rom_point]
    _ = ∑ p, g (constRef p) := Equiv.sum_comp c.constPerm fun p => g (constRef p)
    _ = ∑ ab : Fin 4 × Fin 4, g (constRef (refPosition ab)) :=
      (refPosition.sum_comp fun p => g (constRef p)).symm
    _ = ∑ a : Fin 4, ∑ b : Fin 4, g ⟨level a, level b⟩ := by
      simp only [Fintype.sum_prod_type, constRef_refPosition]

theorem sum_rom_point_i (c : Config) (g : F64 → Int) : ∑ p, g (c.rom.point p).i = 4 * ∑ a, g (level a) := by
  rw [sum_rom_point c fun x => g x.i, Finset.mul_sum]
  simp

theorem sum_rom_point_q (c : Config) (g : F64 → Int) : ∑ p, g (c.rom.point p).q = 4 * ∑ b, g (level b) := by
  rw [sum_rom_point c fun x => g x.q]
  simp

theorem sum_units_level : ∑ a, units (level a) = 0 := by
  simp [units_level, Fin.sum_univ_four]

/-- The mean of the squares of -3, -1, 1, 3 is 5 (R76). -/
theorem sum_units_level_sq : ∑ a, units (level a) ^ 2 = 20 * (one : Int) ^ 2 := by
  simp only [Fin.sum_univ_four, units_level, Fin.coe_ofNat_eq_mod, Nat.reduceMod]
  push_cast
  ring

/-! ### The inverse by value -/

theorem exists_inverse {r : Rom} {x : Point} {p : Fin 16} (hi : units x.i = units (r.point p).i)
    (hq : units x.q = units (r.point p).q) : ∃ j, r.inverse x = some j :=
  Option.ne_none_iff_exists'.mp fun h => (inverse_eq_none_iff r x).mp h p ⟨hi.symm, hq.symm⟩

section Legal
variable {r : Rom} (hr : Machine.Rom.legal r)
include hr

theorem point_injective : Function.Injective r.point := by
  obtain ⟨e, he⟩ := hr
  exact fun p q h => e.injective (constRef_injective (by rw [← he, h, he]))

theorem point_levels (p : Fin 16) : ∃ a b : Fin 4, r.point p = ⟨level a, level b⟩ := by
  obtain ⟨e, he⟩ := hr
  exact he p ▸ exists_levels_constRef _

theorem isFinite_point (p : Fin 16) : (r.point p).isFinite = true := by
  obtain ⟨a, b, h⟩ := point_levels hr p
  simp [h, Point.isFinite, isFinite_level]

/-- No level is zero, so a value of a ROM point has one pattern. -/
theorem eq_point_of_units {x : Point} {p : Fin 16} (hi : units x.i = units (r.point p).i)
    (hq : units x.q = units (r.point p).q) : x = r.point p := by
  obtain ⟨a, b, h⟩ := point_levels hr p
  rw [h] at hi hq ⊢
  rw [← eq_level_of_units hi, ← eq_level_of_units hq]

theorem inverse_eq_some_iff {x : Point} {p : Fin 16} : r.inverse x = some p ↔ x = r.point p := by
  constructor
  · intro h
    obtain ⟨hi, hq⟩ := inverse_sound h
    exact eq_point_of_units hr hi.symm hq.symm
  · rintro rfl
    obtain ⟨j, hj⟩ := exists_inverse (r := r) (x := r.point p) rfl rfl
    obtain ⟨hi, hq⟩ := inverse_sound hj
    rw [hj, point_injective hr (eq_point_of_units hr hi hq)]

end Legal

end Sys2Proof

namespace Sys2Proof.Proofs

open Sys2Proof.Binary64 Sys2Proof.Claims

/-- Settles O18: both halves are about reorderings of CONST_REF. -/
theorem constellationIsBijection : Obligations.ConstellationIsBijection := by
  refine ⟨fun c => (bijectionOntoPoints_iff _).mpr ⟨c.constPerm, rom_point c⟩, fun f hf => ?_⟩
  obtain ⟨e, he⟩ := (bijectionOntoPoints_iff f).mp hf
  exact ⟨Config.ofOrder e, funext fun p => (he p).symm, funext fun p => (rom_point _ p).trans (he p).symm⟩

/-- Settles O19: each level stands four times on each axis. -/
theorem constellationMeans : Obligations.ConstellationMeans := by
  intro c
  have hi := sum_rom_point_i c fun x => units x ^ 2
  have hq := sum_rom_point_q c fun x => units x ^ 2
  rw [sum_units_level_sq] at hi hq
  refine ⟨hi.trans (by ring), hq.trans (by ring), ?_, (sum_rom_point_i c units).trans ?_,
    (sum_rom_point_q c units).trans ?_⟩
  · rw [Finset.sum_add_distrib, hi, hq]
    ring
  all_goals rw [sum_units_level, mul_zero]

/-- Settles O20: `inverse` answers a position exactly for that position's point. -/
theorem forwardAndInverse : Obligations.ForwardAndInverse := by
  intro r hr
  refine ⟨fun p => (inverse_eq_some_iff hr).mpr rfl, fun a b => ?_, fun x _ hx => ?_⟩
  · obtain ⟨p, hp, _⟩ := ((bijectionOntoPoints_iff r.point).mpr hr).1 a b
    exact ⟨p, (inverse_eq_some_iff hr).mpr hp.symm, hp⟩
  · refine Option.eq_none_iff_forall_ne_some.mpr fun p hp => ?_
    obtain ⟨a, b, hab⟩ := point_levels hr p
    exact hx a b (((inverse_eq_some_iff hr).mp hp).trans hab)

end Sys2Proof.Proofs
end

section
/-! PROOFS. MAP and DEMAP (40_mapper.md R78 to R83): how each completes, how each stops, and that each undoes the
other. -/

namespace Sys2Proof.Machine

theorem exec_map (s : State) : exec .map s = finish 0x01 s (mapCourse s) := rfl

theorem exec_demap (s : State) : exec .demap s = finish 0x02 s (demapCourse s) := rfl

theorem exec_flen {i : Instr} {s t : State} (h : exec i s = .next t) : t.flen = s.flen := by rw [exec_frame h]

/-! ### A frame given by position -/

section Frame
variable {n k : Nat} (m : Memory) (hk : k < n)
include hk

theorem symAt_writeSymFrame_map (f : Nat → Point) :
    (m.writeSymFrame 0 ((List.range n).map f)).symAt k = some (f k) := by
  rw [symAt_writeSymFrame, if_pos k.zero_le]
  simp [hk]

theorem idxAt_writeIdxFrame_map (f : Nat → Fin 16) :
    (m.writeIdxFrame 0 ((List.range n).map f)).readWord (idxOffset k) = some (BitVec.ofNat 64 (f k).val) := by
  rw [idxAt_writeIdxFrame, if_pos k.zero_le]
  simp [hk]

end Frame

/-! ### MAP -/

theorem exists_position_of_index {s : State} {k : Nat} {v : Word} (hv : s.idxEntry k = some v)
    (h0 : 0 ≤ v.toInt) (h15 : v.toInt ≤ 15) : ∃ p : Fin 16, s.idxEntry k = some (BitVec.ofNat 64 p.val) := by
  cases h : indexOperand s k with
  | ok p => exact ⟨p, (indexOperand_ok_iff s k p).mp h⟩
  | error e =>
    rcases (indexOperand_error_iff s k e).mp h with ⟨hn, _⟩ | ⟨w, hw, hout, _⟩
    · rw [hv] at hn; cases hn
    · rw [hv] at hw; cases hw; exact absurd ⟨h0, h15⟩ hout

theorem mapCourse_ok {s : State} {p : Nat → Fin 16} (hn : s.flen.toNat ≤ s.maxFrame)
    (h : ∀ k < s.flen.toNat, s.idxEntry k = some (BitVec.ofNat 64 (p k).val)) :
    mapCourse s = .ok { s with
      mem := s.mem.writeSymFrame 0 ((List.range s.flen.toNat).map fun k => s.cmap.point (p k)) } := by
  refine (mapCourse_ok_iff s _).mpr ⟨hn, (List.range s.flen.toNat).map p, by simp, fun k hk => ?_, ?_⟩
  · simpa using h k (by simpa using hk)
  · rw [List.map_map]; rfl

/-! ### DEMAP -/

theorem demapCourse_ok {s : State} {p : Nat → Fin 16} (hn : s.flen.toNat ≤ s.maxFrame) (hr : Rom.legal s.cmap)
    (h : ∀ k < s.flen.toNat, s.symEntry k = some (s.cmap.point (p k))) :
    demapCourse s = .ok { s with mem := s.mem.writeIdxFrame 0 ((List.range s.flen.toNat).map p) } := by
  refine (demapCourse_ok_iff s _).mpr ⟨hn, (List.range s.flen.toNat).map p, by simp, fun k hk => ?_, rfl⟩
  have hk' : k < s.flen.toNat := by simpa using hk
  exact ⟨_, h k hk', isFinite_point hr _, (inverse_eq_some_iff hr).mpr (by simp)⟩

/-! ### Frames that hold the same -/

section Same
variable {m m' : Memory} {n a : Nat}

theorem readByte_eq_of_readWord {j : Nat} {w : Word} (h : m.readWord a = some w) (h' : m'.readWord a = some w)
    (hj : j < 8) : m.readByte (a + j) = m'.readByte (a + j) := by
  rw [readByte_of_readWord h j hj, readByte_of_readWord h' j hj]

theorem readByte_eq_of_idxFrame {w : Nat → Word} (h : ∀ k < n, m.readWord (idxOffset k) = some (w k))
    (h' : ∀ k < n, m'.readWord (idxOffset k) = some (w k)) (ha : 0x10000 ≤ a) (ha' : a < 0x10000 + 8 * n) :
    m.readByte a = m'.readByte a := by
  obtain ⟨k, j, hk, hj, rfl⟩ : ∃ k j, k < n ∧ j < 8 ∧ a = idxOffset k + j :=
    ⟨(a - 0x10000) / 8, a % 8, by omega, by omega, by unfold idxOffset; omega⟩
  exact readByte_eq_of_readWord (h k hk) (h' k hk) hj

theorem symAt_eq_some_iff {k : Nat} {x : Point} :
    m.symAt k = some x ↔ m.readWord (symIOffset k) = some x.i ∧ m.readWord (symQOffset k) = some x.q := by
  obtain ⟨i, q⟩ := x
  unfold Memory.symAt
  cases m.readWord (symIOffset k) <;> cases m.readWord (symQOffset k) <;> simp

theorem readByte_eq_of_symFrame {x : Nat → Point} (h : ∀ k < n, m.symAt k = some (x k))
    (h' : ∀ k < n, m'.symAt k = some (x k)) (ha : 0x20000 ≤ a) (ha' : a < 0x20000 + 16 * n) :
    m.readByte a = m'.readByte a := by
  obtain ⟨k, j, hk, hj, hakj⟩ : ∃ k j, k < n ∧ j < 8 ∧ (a = symIOffset k + j ∨ a = symQOffset k + j) :=
    ⟨(a - 0x20000) / 16, a % 8, by omega, by omega, by unfold symIOffset symQOffset; omega⟩
  obtain ⟨hi, hq⟩ := symAt_eq_some_iff.mp (h k hk)
  obtain ⟨hi', hq'⟩ := symAt_eq_some_iff.mp (h' k hk)
  rcases hakj with rfl | rfl
  · exact readByte_eq_of_readWord hi hi' hj
  · exact readByte_eq_of_readWord hq hq' hj

end Same

end Sys2Proof.Machine

namespace Sys2Proof.Proofs

open Sys2Proof.Machine

/-- Settles O21: the course of MAP on the frame of the given positions. -/
theorem mapResult : Obligations.MapResult := by
  intro s p hn h
  have hexec := exec_map s
  rw [mapCourse_ok hn h, finish_ok] at hexec
  exact ⟨_, hexec, fun k hk => symAt_writeSymFrame_map s.mem hk fun k => s.cmap.point (p k),
    exec_sameOutsideSym (.inl rfl) hexec, rfl⟩

/-- Settles O22: the first element that stops is the given one. -/
theorem mapErrors : Obligations.MapErrors := by
  intro s
  refine ⟨fun hlong => ?_, fun k hk hn hbefore => ?_⟩
  · rw [exec_map, (mapCourse_error_iff s _).mpr (.inl ⟨hlong, rfl⟩)]
    rfl
  have hstop : ∀ e, indexOperand s k = .error e → mapCourse s = .error e := fun e he => by
    refine (mapCourse_error_iff s e).mpr (.inr ⟨hn, k, hk, he, fun j hj => ?_⟩)
    obtain ⟨v, hv, h0, h15⟩ := hbefore j hj
    exact exists_position_of_index hv h0 h15
  refine ⟨fun hnone => ?_, fun v hv hout => ?_⟩
  · rw [exec_map, hstop _ ((indexOperand_error_iff s k _).mpr (.inl ⟨hnone, rfl⟩)), finish_model]
  · rw [exec_map, hstop _ ((indexOperand_error_iff s k _).mpr (.inr ⟨v, hv, by omega, rfl⟩))]
    rfl

/-- Settles O23: a symbol with the value of a ROM point is that point, and the course of DEMAP finds its position. -/
theorem demapResult : Obligations.DemapResult := by
  intro s x p hn hr h
  have hpoint : ∀ k < s.flen.toNat, s.symEntry k = some (s.cmap.point (p k)) := fun k hk => by
    obtain ⟨hx, _, hi, hq⟩ := h k hk
    rw [hx, eq_point_of_units hr hi hq]
  have hexec := exec_demap s
  rw [demapCourse_ok hn hr hpoint, finish_ok] at hexec
  exact ⟨_, hexec, fun k hk => idxAt_writeIdxFrame_map s.mem hk p, exec_sameOutsideIdx (.inl rfl) hexec, rfl⟩

/-- Settles O24: the first element that stops is the given one. -/
theorem demapErrors : Obligations.DemapErrors := by
  intro s
  refine ⟨fun hlong => ?_, fun k hk hn hbefore => ?_⟩
  · rw [exec_demap, (demapCourse_error_iff s _).mpr (.inl ⟨hlong, rfl⟩)]
    rfl
  have hstop : ∀ e, pointOperand s k = .error e → demapCourse s = .error e := fun e he => by
    refine (demapCourse_error_iff s e).mpr (.inr ⟨hn, k, hk, he, fun j hj => ?_⟩)
    obtain ⟨x, p, hx, hfin, hi, hq⟩ := hbefore j hj
    obtain ⟨j', hj'⟩ := exists_inverse hi hq
    exact ⟨j', x, hx, hfin, hj'⟩
  have hsymbol : ∀ e, symbolOperand s k = .error e → demapCourse s = .error e := fun e he =>
    hstop e ((pointOperand_error_iff s k e).mpr (.inl he))
  refine ⟨fun hnone => ?_, fun x hx => ⟨fun hinf => ?_, fun hfin hno => ?_⟩⟩
  · rw [exec_demap, hsymbol _ ((symbolOperand_error_iff s k _).mpr (.inl ⟨hnone, rfl⟩)), finish_model]
  · rw [exec_demap, hsymbol _ ((symbolOperand_error_iff s k _).mpr (.inr ⟨x, hx, hinf, rfl⟩))]
    rfl
  · have hinv : s.cmap.inverse x = none :=
      (inverse_eq_none_iff _ x).mpr fun p ⟨hi, hq⟩ => hno p ⟨hi.symm, hq.symm⟩
    rw [exec_demap, hstop _ ((pointOperand_error_iff s k _).mpr (.inr ⟨x, hx, hfin, hinv, rfl⟩))]
    rfl

/-- Settles O30: the second command reads what the first wrote and writes back what the first read. -/
theorem mapAndDemapRoundTrips : Obligations.MapAndDemapRoundTrips := by
  refine ⟨fun s p _ hr hn h => ?_, fun s p _ hr hn h => ?_⟩
  · obtain ⟨t, hmap, hsym, hst, -⟩ := mapResult s p hn h
    have hflen := exec_flen hmap
    have hcmap := (exec_constants hmap).2
    obtain ⟨u, hdemap, hidx, htu, hu⟩ := demapResult t (fun k => s.cmap.point (p k)) p
      (by rw [hflen, exec_maxFrame hmap]; exact hn) (hcmap ▸ hr)
      fun k hk => ⟨hsym k (hflen ▸ hk), isFinite_point hr _, by rw [hcmap], by rw [hcmap]⟩
    have hstatus : u.status = 0x0200 := by rw [hu]
    refine ⟨t, u, hmap, hdemap, by rw [State.errField, hstatus]; decide, fun a ha => ?_⟩
    by_cases hin : 0x10000 ≤ a ∧ a < 0x10000 + 8 * s.flen.toNat
    · exact readByte_eq_of_idxFrame (hflen ▸ hidx) h hin.1 hin.2
    · rw [htu a (by rw [hflen]; omega), hst a ha]
  · obtain ⟨t, hdemap, hidx, hst, -⟩ := demapResult s (fun k => s.cmap.point (p k)) p hn hr
      fun k hk => ⟨h k hk, isFinite_point hr _, rfl, rfl⟩
    have hflen := exec_flen hdemap
    have hcmap := (exec_constants hdemap).2
    obtain ⟨u, hmap, hsym, htu, hu⟩ := mapResult t p (by rw [hflen, exec_maxFrame hdemap]; exact hn)
      fun k hk => hidx k (hflen ▸ hk)
    rw [hflen, hcmap] at hsym
    have hstatus : u.status = 0x0100 := by rw [hu]
    refine ⟨t, u, hdemap, hmap, by rw [State.errField, hstatus]; decide, fun a ha => ?_⟩
    by_cases hin : 0x20000 ≤ a ∧ a < 0x20000 + 16 * s.flen.toNat
    · exact readByte_eq_of_symFrame hsym h hin.1 hin.2
    · rw [htu a (by rw [hflen]; omega), hst a ha]

end Sys2Proof.Proofs
end

section
/-! PROOFS. The slicer (41_slicer.md R84 to R89): the nearest point falls apart into a nearest level on each axis; how
SLICE completes and how it stops; and that it undoes MAP. -/

namespace Sys2Proof

open Binary64 Claims

/-! ### One axis -/

/-- The lower of two levels that tie, else the nearest one (41_slicer.md R88), for a value in units of 2^-1074. -/
def lowestLevel (v : Int) : Fin 4 :=
  if v ≤ -2 * one then 0 else if v ≤ 0 then 1 else if v ≤ 2 * one then 2 else 3

theorem one_pos_int : (0 : Int) < one := by exact_mod_cast Binary64.one_pos

section Axis
variable {v : Int} {a b : Fin 4}

theorem levelDist_le_iff : (v - units (level a)) ^ 2 ≤ (v - units (level b)) ^ 2 ↔
    0 ≤ ((b.val : Int) - a.val) * ((a.val + b.val - 3) * one - v) := by
  have hpos : (0 : Int) < 4 * one := mul_pos four_pos one_pos_int
  have hfactor : (v - units (level b)) ^ 2 - (v - units (level a)) ^ 2
      = 4 * one * (((b.val : Int) - a.val) * ((a.val + b.val - 3) * one - v)) := by
    rw [units_level, units_level]; ring
  rw [← sub_nonneg, hfactor, mul_nonneg_iff_of_pos_left hpos]

/-- The table of R87, as the level's own band: half way to the level below up to half way to the level above. -/
theorem axisNearest_level_iff : AxisNearest v (units (level a)) ↔
    (a ≠ 0 → (2 * a.val - 4) * one ≤ v) ∧ (a ≠ 3 → v ≤ (2 * a.val - 2) * one) := by
  have hpos := one_pos_int
  rw [AxisNearest, units_level]
  generalize (one : Int) = o at hpos ⊢
  fin_cases a <;> simp <;> omega

/-- A level is nearest by the table exactly when none is at a smaller distance (R87). -/
theorem axisNearest_iff_forall_le : AxisNearest v (units (level a)) ↔
    ∀ b, (v - units (level a)) ^ 2 ≤ (v - units (level b)) ^ 2 := by
  have hpos := one_pos_int
  simp only [axisNearest_level_iff, levelDist_le_iff, Fin.forall_fin_succ]
  generalize (one : Int) = o at hpos ⊢
  fin_cases a <;> simp <;> omega

theorem lowestLevel_val (v : Int) : (lowestLevel v).val =
    if v ≤ -2 * one then 0 else if v ≤ 0 then 1 else if v ≤ 2 * one then 2 else 3 := by
  unfold lowestLevel
  split_ifs <;> rfl

theorem axisNearest_lowestLevel (v : Int) : AxisNearest v (units (level (lowestLevel v))) := by
  rw [axisNearest_level_iff, lowestLevel]
  split_ifs <;> simp <;> omega

theorem lowestLevel_le_iff : lowestLevel v ≤ a ↔ (a ≠ 3 → v ≤ (2 * a.val - 2) * one) := by
  have hpos := one_pos_int
  rw [Fin.le_def, lowestLevel_val]
  generalize (one : Int) = o at hpos ⊢
  split_ifs
  all_goals fin_cases a <;> simp <;> omega

/-- No nearest level lies below `lowestLevel`. -/
theorem lowestLevel_le (h : AxisNearest v (units (level a))) : lowestLevel v ≤ a :=
  lowestLevel_le_iff.mpr (axisNearest_level_iff.mp h).2

end Axis

/-! ### The nearest point -/

theorem refPosition_val (a b : Fin 4) : (refPosition (a, b)).val = 4 * a.val + b.val := Nat.add_comm _ _

/-- `nearest` is the first of the positions at minimal distance (41_slicer.md R86). -/
theorem nearest_le {r : Rom} {x : Point} {p : Fin 16} (h : r.isNearest x p = true) : r.nearest x ≤ p := by
  unfold Rom.nearest
  cases hfind : (List.finRange 16).find? (r.isNearest x) with
  | none => exact absurd h (List.find?_eq_none.mp hfind p (List.mem_finRange p))
  | some q =>
    obtain ⟨_, i, hi, rfl, hbefore⟩ := List.find?_eq_some_iff_getElem.mp hfind
    by_contra hlt
    have hlt : p.val < i := by simpa [Fin.lt_def] using hlt
    simpa [h] using hbefore p.val hlt

theorem distSq_nearest_le (r : Rom) (x : Point) (p : Fin 16) :
    distSq x (r.point (r.nearest x)) ≤ distSq x (r.point p) :=
  (isNearest_iff r x _).mp (nearest_isNearest r x) p

theorem distSq_nearest_lt {r : Rom} {x : Point} {p : Fin 16} (h : p < r.nearest x) :
    distSq x (r.point (r.nearest x)) < distSq x (r.point p) := by
  by_contra hle
  have hmin : r.isNearest x p = true := (isNearest_iff r x p).mpr fun p' =>
    (not_lt.mp hle).trans (distSq_nearest_le r x p')
  exact absurd (nearest_le hmin) (not_le.mpr h)

section Legal
variable {r : Rom} (hr : Machine.Rom.legal r)
include hr

theorem exists_position (a b : Fin 4) : ∃ p, r.point p = ⟨level a, level b⟩ :=
  (((bijectionOntoPoints_iff r.point).mpr hr).1 a b).exists

/-- The nearest points are the products of the nearest levels of the two axes (41_slicer.md R87): each level of one axis
stands with each of the other. -/
theorem isNearest_iff_axisNearest (x : Point) (p : Fin 16) : r.isNearest x p = true ↔
    AxisNearest (units x.i) (units (r.point p).i) ∧ AxisNearest (units x.q) (units (r.point p).q) := by
  obtain ⟨a, b, hp⟩ := point_levels hr p
  rw [isNearest_iff, hp, axisNearest_iff_forall_le, axisNearest_iff_forall_le]
  constructor
  · intro h
    refine ⟨fun a' => ?_, fun b' => ?_⟩
    · obtain ⟨p', hp'⟩ := exists_position hr a' b
      exact le_of_add_le_add_right (hp' ▸ h p')
    · obtain ⟨p', hp'⟩ := exists_position hr a b'
      exact le_of_add_le_add_left (hp' ▸ h p')
  · rintro ⟨hi, hq⟩ p'
    obtain ⟨a', b', hp'⟩ := point_levels hr p'
    exact hp' ▸ add_le_add (hi a') (hq b')

/-- A ROM point is the only one at minimal distance from itself. -/
theorem eq_of_distSq_self_le {p q : Fin 16} (h : distSq (r.point p) (r.point q) ≤ distSq (r.point p) (r.point p)) :
    q = p := by
  simp only [distSq, sub_self] at h
  have hi : units (r.point p).i = units (r.point q).i := by nlinarith
  have hq : units (r.point p).q = units (r.point q).q := by nlinarith
  exact point_injective hr (eq_point_of_units hr hi hq).symm

end Legal

end Sys2Proof

namespace Sys2Proof.Machine

open Sys2Proof.Claims

theorem exec_slice (s : State) : exec .slice s = finish 0x03 s (sliceCourse s) := rfl

theorem sliceCourse_ok {s : State} {xs : List Point} (hn : s.flen.toNat ≤ s.maxFrame) (h : HasFrame s xs) :
    sliceCourse s = .ok { s with mem := s.mem.writeIdxFrame 0 (xs.map s.cmap.nearest) } :=
  (sliceCourse_ok_iff s _).mpr ⟨hn, xs, h.1, h.2, rfl⟩

theorem hasFrame_of_symEntry {s : State} {x : Nat → Point}
    (h : ∀ k < s.flen.toNat, s.symEntry k = some (x k) ∧ (x k).isFinite = true) :
    HasFrame s ((List.range s.flen.toNat).map x) :=
  ⟨by simp, fun k hk => by simpa using h k (by simpa using hk)⟩

end Sys2Proof.Machine

namespace Sys2Proof.Proofs

open Sys2Proof.Binary64 Sys2Proof.Machine Sys2Proof.Claims

/-- Settles O25: the course of SLICE on the frame writes `nearest` of each symbol. -/
theorem sliceResult : Obligations.SliceResult := by
  intro s xs hn hframe
  have hexec := exec_slice s
  rw [sliceCourse_ok hn hframe, finish_ok] at hexec
  refine ⟨_, hexec, fun k hk => ⟨s.cmap.nearest xs[k], ?_, distSq_nearest_le _ _, fun p' => distSq_nearest_lt⟩,
    exec_sameOutsideIdx (.inr rfl) hexec, rfl⟩
  rw [report_idxEntry, State.idxEntry, idxAt_writeIdxFrame, if_pos k.zero_le]
  simp [hk]

/-- Settles O26: the first symbol that stops is the given one. -/
theorem sliceErrors : Obligations.SliceErrors := by
  intro s
  refine ⟨fun hlong => ?_, fun k hk hn hclean => ?_⟩
  · rw [exec_slice, (sliceCourse_error_iff s _).mpr (.inl ⟨hlong, rfl⟩)]
    rfl
  have hstop : ∀ e, symbolOperand s k = .error e → sliceCourse s = .error e := fun e he =>
    (sliceCourse_error_iff s e).mpr (.inr ⟨hn, k, hk, he, hclean⟩)
  refine ⟨fun hnone => ?_, fun x hx hinf => ?_⟩
  · rw [exec_slice, hstop _ ((symbolOperand_error_iff s k _).mpr (.inl ⟨hnone, rfl⟩)), finish_model]
  · rw [exec_slice, hstop _ ((symbolOperand_error_iff s k _).mpr (.inr ⟨x, hx, hinf, rfl⟩))]
    rfl

/-- Settles O27: the squared distance is a sum over the axes, and every pair of levels is a point. -/
theorem nearestPerAxis : Obligations.NearestPerAxis := by
  intro r x hr
  refine ⟨fun p => ?_, distSq_nearest_le r x, fun p hp => nearest_le ((isNearest_iff r x p).mpr hp)⟩
  rw [← isNearest_iff, isNearest_iff_axisNearest hr]

/-- Settles O28: the position of the lowest nearest levels is a nearest one, and CONST_REF counts levels upward, so no
nearest position stands before it. -/
theorem tiesUnderConstRef : Obligations.TiesUnderConstRef := by
  intro r x href o axis
  have hr : Rom.legal r := ⟨Equiv.refl _, href⟩
  have haxis : ∀ v, axis v = (lowestLevel v).val := fun v => (lowestLevel_val v).symm
  have hlow : r.nearest x ≤ refPosition (lowestLevel (units x.i), lowestLevel (units x.q)) := by
    refine nearest_le ((isNearest_iff_axisNearest hr x _).mpr ?_)
    rw [href, constRef_refPosition]
    exact ⟨axisNearest_lowestLevel _, axisNearest_lowestLevel _⟩
  obtain ⟨hi, hq⟩ := (isNearest_iff_axisNearest hr x _).mp (nearest_isNearest r x)
  rw [href] at hi hq
  have hdiv : (lowestLevel (units x.i)).val ≤ (r.nearest x).val / 4 := lowestLevel_le hi
  have hmod : (lowestLevel (units x.q)).val ≤ (r.nearest x).val % 4 := lowestLevel_le hq
  rw [Fin.le_def, refPosition_val] at hlow
  rw [haxis, haxis]
  omega

/-- Settles O29: SLICE reads the points MAP wrote and finds each at its own position, so it writes back what MAP read. -/
theorem mapThenSlice : Obligations.MapThenSlice := by
  intro s p _ hr hn h
  obtain ⟨t, hmap, hsym, hst, -⟩ := mapResult s p hn h
  have hflen := exec_flen hmap
  have hcmap := (exec_constants hmap).2
  have hframe : HasFrame t ((List.range t.flen.toNat).map fun k => s.cmap.point (p k)) :=
    hasFrame_of_symEntry fun k hk => ⟨hsym k (hflen ▸ hk), isFinite_point hr _⟩
  obtain ⟨u, hslice, hidx, htu, hu⟩ := sliceResult t _ (by rw [hflen, exec_maxFrame hmap]; exact hn) hframe
  have hback : ∀ k < s.flen.toNat, u.idxEntry k = some (BitVec.ofNat 64 (p k).val) := fun k hk => by
    obtain ⟨q, hq, hmin, -⟩ := hidx k (by simpa [hflen] using hk)
    have hself := hmin (p k)
    simp only [List.getElem_map, List.getElem_range, hcmap] at hself
    rw [hq, eq_of_distSq_self_le hr hself]
  have hstatus : u.status = 0x0300 := by rw [hu]
  refine ⟨t, u, hmap, hslice, by rw [State.errField, hstatus]; decide, fun a ha => ?_⟩
  by_cases hin : 0x10000 ≤ a ∧ a < 0x10000 + 8 * s.flen.toNat
  · exact readByte_eq_of_idxFrame hback h hin.1 hin.2
  · rw [htu a (by rw [hflen]; omega), hst a ha]

end Sys2Proof.Proofs
end

section
/-! PROOFS. The power of a frame (42_awgn.md R93): it is what the two loops compute; and it is 0 for a frame of equal
entries whose partial sums are binary64 values, which not every frame of equal entries is (log entry 12). -/

namespace Sys2Proof.Binary64

/-! ### Zero results -/

theorem isZero_of_units_eq_zero {x : F64} (h : units x = 0) : isZero x = true := (units_eq_zero_iff x).mp h

theorem isZero_sub {x y : F64} (hx : isFinite x = true) (hy : isFinite y = true) (h : units x = units y) :
    isZero (sub x y) = true := by
  have hexact := sub_exact hx hy (isFinite_zero false) (by rw [units_zero, h, sub_self])
  exact isZero_of_units_eq_zero (hexact.2.trans (units_zero false))

/-- A zero added on the right leaves the value as it is. -/
theorem add_isZero {x y : F64} (hx : isFinite x = true) (hy : isZero y = true) :
    isFinite (add x y) = true ∧ units (add x y) = units x :=
  add_exact hx (isFinite_of_isZero hy) hx (by rw [(units_eq_zero_iff y).mpr hy, add_zero])

theorem isZero_add {x y : F64} (hx : isZero x = true) (hy : isZero y = true) : isZero (add x y) = true :=
  isZero_of_units_eq_zero ((add_isZero (isFinite_of_isZero hx) hy).2.trans ((units_eq_zero_iff x).mpr hx))

/-! ### Whole numbers -/

theorem isZero_ofNat {n : Nat} (h0 : n ≠ 0) (hn : n < 2 ^ 53) : isZero (ofNat n) = false := by
  rw [← Bool.not_eq_true, ← units_eq_zero_iff, (ofNat_exact_of_lt hn).2]
  exact mul_ne_zero (by exact_mod_cast h0) (by exact_mod_cast one_pos.ne')

theorem exists_units_eq_mul_one {z : Int} (hz : z.natAbs < 2 ^ 53) :
    ∃ w, isFinite w = true ∧ units w = z * one := by
  obtain ⟨hfin, hunits⟩ := ofNat_exact_of_lt hz
  rcases z.natAbs_eq with h | h
  · exact ⟨_, hfin, by rw [hunits, ← h]⟩
  · exact ⟨neg (ofNat z.natAbs), by rwa [isFinite_neg], by rw [units_neg, hunits, ← neg_mul, ← h]⟩

/-- The multiples of a value up to the n-th are binary64 values: every partial sum of n copies of it is exact. -/
def ExactMultiples (n : Nat) (x : F64) : Prop := ∀ k ≤ n, ∃ w, isFinite w = true ∧ units w = k * units x

theorem exactMultiples_one {x : F64} (hx : isFinite x = true) : ExactMultiples 1 x := fun k hk => by
  rcases Nat.le_one_iff_eq_zero_or_eq_one.mp hk with rfl | rfl
  · exact ⟨zero false, isFinite_zero false, by simp [units_zero]⟩
  · exact ⟨x, hx, by simp⟩

/-- A multiple of -3, -1, 1 or 3 is a whole number. -/
theorem exactMultiples_level (a : Fin 4) {n : Nat} (hn : n ≤ 4096) : ExactMultiples n (level a) := fun k hk => by
  have hz : ((k : Int) * (2 * a.val - 3)).natAbs < 2 ^ 53 := by
    have hk3 : (2 * (a.val : Int) - 3).natAbs ≤ 3 := by omega
    rw [Int.natAbs_mul, Int.natAbs_natCast]
    calc k * (2 * (a.val : Int) - 3).natAbs ≤ 4096 * 3 := Nat.mul_le_mul (hk.trans hn) hk3
      _ < 2 ^ 53 := by norm_num
  obtain ⟨w, hfin, hunits⟩ := exists_units_eq_mul_one hz
  exact ⟨w, hfin, by rw [hunits, units_level, mul_assoc]⟩

end Sys2Proof.Binary64

namespace Sys2Proof

theorem Point.isFinite_iff (x : Point) :
    x.isFinite = true ↔ Binary64.isFinite x.i = true ∧ Binary64.isFinite x.q = true := by
  rw [Point.isFinite, Bool.and_eq_true]

end Sys2Proof

namespace Sys2Proof.Machine

open Binary64

/-! ### Sums in order -/

theorem sumInOrder_concat (xs : List F64) (x : F64) : sumInOrder (xs ++ [x]) = add (sumInOrder xs) x := by
  simp [sumInOrder]

/-- A loop that starts at +0.0 and adds the entries in order ends at their sum. -/
theorem sumInOrder_map_eq_of_loop (f : Point → F64) {acc : Nat → F64} (h0 : acc 0 = 0x0000000000000000)
    (xs : List Point) (hstep : ∀ (k : Nat) (h : k < xs.length), acc (k + 1) = add (acc k) (f xs[k])) :
    sumInOrder (xs.map f) = acc xs.length := by
  induction xs using List.reverseRecOn with
  | nil => exact h0.symm
  | append_singleton xs x ih =>
    have hlast := hstep xs.length (by simp)
    have hinit := ih fun k h => by
      rw [hstep k (by simp; omega), List.getElem_append_left h]
    rw [List.map_append, List.map_singleton, sumInOrder_concat, hinit, List.length_append, List.length_singleton, hlast]
    simp

theorem isZero_sumInOrder {xs : List F64} (h : ∀ x ∈ xs, isZero x = true) : isZero (sumInOrder xs) = true :=
  List.foldlRecOn xs add (motive := fun z => isZero z = true) (by decide) fun _ hz x hx => isZero_add hz (h x hx)

/-! ### Equal entries -/

section Replicate
variable {n : Nat} {x : F64} (hx : isFinite x = true) (hm : ExactMultiples n x)
include hx hm

theorem sumInOrder_replicate : isFinite (sumInOrder (List.replicate n x)) = true ∧
    units (sumInOrder (List.replicate n x)) = n * units x := by
  induction n with
  | zero => exact ⟨isFinite_zero false, by simp [sumInOrder, units_zero]⟩
  | succ n ih =>
    obtain ⟨hfin, hsum⟩ := ih fun k hk => hm k (hk.trans n.le_succ)
    obtain ⟨w, hw, hunits⟩ := hm (n + 1) le_rfl
    rw [List.replicate_succ', sumInOrder_concat, ← hunits]
    exact add_exact hfin hx hw (by rw [hsum, hunits]; push_cast; ring)

/-- The rounded mean of n copies of a value is the value when the partial sums are exact. -/
theorem mean_replicate (h0 : n ≠ 0) (hn : n < 2 ^ 53) :
    isFinite (div (sumInOrder (List.replicate n x)) (ofNat n)) = true ∧
    units (div (sumInOrder (List.replicate n x)) (ofNat n)) = units x := by
  obtain ⟨hfin, hsum⟩ := sumInOrder_replicate hx hm
  obtain ⟨hN, hunits⟩ := ofNat_exact_of_lt hn
  exact div_exact hfin hN (isZero_ofNat h0 hn) hx (by rw [hsum, hunits]; ring)

end Replicate

theorem isZero_deviationSq {m x : Point} (hm : m.isFinite = true) (hx : x.isFinite = true)
    (hi : units x.i = units m.i) (hq : units x.q = units m.q) : isZero (deviationSq m x) = true := by
  obtain ⟨hmI, hmQ⟩ := m.isFinite_iff.mp hm
  obtain ⟨hxI, hxQ⟩ := x.isFinite_iff.mp hx
  have hdI := isZero_sub hxI hmI hi
  have hdQ := isZero_sub hxQ hmQ hq
  exact isZero_add (mul_zero_left hdI (isFinite_of_isZero hdI)).2 (mul_zero_left hdQ (isFinite_of_isZero hdQ)).2

/-- The remark of 42_awgn.md R94, for entries whose partial sums are exact. -/
theorem isZero_power_replicate {n : Nat} {x : Point} (hx : x.isFinite = true) (hi : ExactMultiples n x.i)
    (hq : ExactMultiples n x.q) (h0 : n ≠ 0) (hn : n < 2 ^ 53) : isZero (power (List.replicate n x)) = true := by
  obtain ⟨hxI, hxQ⟩ := x.isFinite_iff.mp hx
  obtain ⟨hmI, hmeanI⟩ := mean_replicate hxI hi h0 hn
  obtain ⟨hmQ, hmeanQ⟩ := mean_replicate hxQ hq h0 hn
  have hdev : isZero (deviationSq (frameMean (List.replicate n x)) x) = true := by
    rw [frameMean, List.map_replicate, List.map_replicate, List.length_replicate]
    exact isZero_deviationSq ((Point.isFinite_iff _).mpr ⟨hmI, hmQ⟩) hx hmeanI.symm hmeanQ.symm
  rw [power, List.map_replicate, List.length_replicate]
  exact (div_zero_left (isZero_sumInOrder fun y hy => (List.eq_of_mem_replicate hy) ▸ hdev)
    (ofNat_exact_of_lt hn).1 (isZero_ofNat h0 hn)).2

end Sys2Proof.Machine

namespace Sys2Proof.Proofs

open Sys2Proof.Binary64 Sys2Proof.Machine

/-- Settles O55: each of the loops adds the entries of a list in order. -/
theorem powerFollowsTheLoops : Obligations.PowerFollowsTheLoops := by
  rintro xs N mI mQ sI sQ acc rfl hI0 hQ0 hsum rfl rfl hacc0 hacc
  rw [← sumInOrder_map_eq_of_loop Point.i hI0 xs fun k h => (hsum k h).1,
    ← sumInOrder_map_eq_of_loop Point.q hQ0 xs fun k h => (hsum k h).2] at hacc
  rw [power, sumInOrder_map_eq_of_loop (deviationSq (frameMean xs)) hacc0 xs hacc]

/-- Settles O36: the partial sums of n equal levels are whole numbers, so the mean is the level. -/
theorem equalPointsPowerZero : Obligations.EqualPointsPowerZero := fun a b n h1 hn =>
  isZero_power_replicate ((Point.isFinite_iff _).mpr ⟨isFinite_level a, isFinite_level b⟩)
    (exactMultiples_level a hn) (exactMultiples_level b hn) (by omega) (by omega)

/-- Refutes O35: three entries (0.1, 0), whose rounded mean is not 0.1 (log entry 12). -/
theorem not_equalEntriesPowerZero : ¬ Obligations.EqualEntriesPowerZero := by
  intro h
  have htiny : isZero (power (List.replicate 3 ⟨0x3FB999999999999A, 0⟩)) = false := by decide +kernel
  have hzero := h ⟨0x3FB999999999999A, 0⟩ 3 (by decide) (by decide) (by decide)
  exact absurd (htiny.symm.trans hzero) (by decide)

end Sys2Proof.Proofs
end

section
/-! PROOFS. AWGN (42_awgn.md R91 to R99): how it completes and how it stops; that no noise leaves every value as it is;
and that SLICE finds every index again after little noise. -/

namespace Sys2Proof.Binary64

open Claims

/-- A finite value that is not zero over +0 or -0 is an infinity. -/
theorem not_isFinite_div_isZero {x y : F64} (hx : isFinite x = true) (hx0 : isZero x = false) (hy : isZero y = true) :
    isFinite (div x y) = false := by
  rw [div_finite_zero hx hy, hx0, if_neg (by decide), signedInfinity_eq, ← Bool.not_eq_true, infinity,
    isFinite_pack_le _ le_rfl]
  exact lt_irrefl _

end Sys2Proof.Binary64

namespace Sys2Proof

open Binary64 Claims

/-! ### Noise terms of at most a half -/

/-- The values half a unit below and above a level: -3.5, -2.5, …, 3.5. -/
theorem exists_units_half_around_level (a : Fin 4) : ∃ lo hi : F64, isFinite lo = true ∧ isFinite hi = true ∧
    2 * units lo = 2 * units (level a) - one ∧ 2 * units hi = 2 * units (level a) + one := by
  fin_cases a
  · exact ⟨0xC00C000000000000, 0xC004000000000000, by decide +kernel⟩
  · exact ⟨0xBFF8000000000000, 0xBFE0000000000000, by decide +kernel⟩
  · exact ⟨0x3FE0000000000000, 0x3FF8000000000000, by decide +kernel⟩
  · exact ⟨0x4004000000000000, 0x400C000000000000, by decide +kernel⟩

/-- The sum of a level and a term of at most 0.5 is rounded to a value at most 0.5 away from the level. -/
theorem abs_add_level_sub_le (a : Fin 4) {d : F64} (hd : isFinite d = true) (h : 2 * |units d| ≤ one) :
    2 * |units (add (level a) d) - units (level a)| ≤ one := by
  obtain ⟨lo, hi, hlo, hhi, hloUnits, hhiUnits⟩ := exists_units_half_around_level a
  have hneg := neg_abs_le (units d)
  have hpos := le_abs_self (units d)
  obtain ⟨-, hge, hle⟩ := add_between (isFinite_level a) hd hlo hhi (by omega) (by omega)
  have habs : |units (add (level a) d) - units (level a)| ≤ one / 2 := abs_le.mpr ⟨by omega, by omega⟩
  omega

/-- A level within 0.5 of a value is the only nearest one: the bands of 41_slicer.md R87 end 1.0 from their levels. -/
theorem eq_of_axisNearest_of_abs_le {v : Int} {a b : Fin 4} (hv : 2 * |v - units (level a)| ≤ one)
    (hb : AxisNearest v (units (level b))) : b = a := by
  have hone := one_pos_int
  obtain ⟨hbelow, habove⟩ := axisNearest_level_iff.mp hb
  rw [units_level] at hv
  have hneg := neg_abs_le (v - (2 * (a.val : Int) - 3) * one)
  have hpos := le_abs_self (v - (2 * (a.val : Int) - 3) * one)
  rcases lt_trichotomy b a with hlt | heq | hgt
  · have hband := habove (by omega)
    have hstep : (2 * (b.val : Int) - 2) * one ≤ (2 * a.val - 4) * one :=
      Int.mul_le_mul_of_nonneg_right (by omega) hone.le
    linarith
  · exact heq
  · have hband := hbelow (by omega)
    have hstep : (2 * (a.val : Int) - 2) * one ≤ (2 * b.val - 4) * one :=
      Int.mul_le_mul_of_nonneg_right (by omega) hone.le
    linarith

/-- A ROM point that is within 0.5 of a point on each axis is the nearest one. -/
theorem nearest_eq_of_abs_le {r : Rom} (hr : Machine.Rom.legal r) {p : Fin 16} {y : Point}
    (hi : 2 * |units y.i - units (r.point p).i| ≤ one) (hq : 2 * |units y.q - units (r.point p).q| ≤ one) :
    r.nearest y = p := by
  obtain ⟨a, b, hp⟩ := point_levels hr p
  obtain ⟨a', b', hn⟩ := point_levels hr (r.nearest y)
  obtain ⟨hI, hQ⟩ := (isNearest_iff_axisNearest hr y _).mp (nearest_isNearest r y)
  rw [hp] at hi hq
  rw [hn] at hI hQ
  refine point_injective hr ?_
  rw [hp, hn, eq_of_axisNearest_of_abs_le hi hI, eq_of_axisNearest_of_abs_le hq hQ]

theorem nearest_noisy {r : Rom} (hr : Machine.Rom.legal r) (p : Fin 16) {sg gI gQ : F64}
    (hI : isFinite (mul sg gI) = true) (hQ : isFinite (mul sg gQ) = true) (hI2 : 2 * |units (mul sg gI)| ≤ one)
    (hQ2 : 2 * |units (mul sg gQ)| ≤ one) : r.nearest (noisy sg (r.point p) gI gQ) = p := by
  obtain ⟨a, b, hp⟩ := point_levels hr p
  refine nearest_eq_of_abs_le hr ?_ ?_
  · rw [hp]; exact abs_add_level_sub_le a hI hI2
  · rw [hp]; exact abs_add_level_sub_le b hQ hQ2

end Sys2Proof

namespace Sys2Proof.Machine

open Binary64 Claims

theorem exec_awgn (s : State) : exec .awgn s = awgnWith Config.chip s := rfl

/-! ### How AWGN completes -/

/-- The output frame of AWGN (42_awgn.md R96): symbol k with draws k and n + k. -/
def awgnOutput (c : Config) (s : State) (xs : List Point) : List Point :=
  xs.mapIdx fun k x => noisy (sigma c (signalPower xs) s.snrDb) x (drawAt c s.rng k) (drawAt c s.rng (s.flen.toNat + k))

section Output
variable (c : Config) (s : State) (xs : List Point)

@[simp] theorem awgnOutput_length : (awgnOutput c s xs).length = xs.length := List.length_mapIdx

@[simp] theorem awgnOutput_getElem (k : Nat) (h : k < (awgnOutput c s xs).length) :
    (awgnOutput c s xs)[k] = noisy (sigma c (signalPower xs) s.snrDb) (xs[k]'(by simpa using h)) (drawAt c s.rng k)
      (drawAt c s.rng (s.flen.toNat + k)) := List.getElem_mapIdx

end Output

/-- The state AWGN has reached when it succeeds, before its bookkeeping. -/
def awgnState (c : Config) (s : State) (xs : List Point) : State :=
  { s with mem := s.mem.writeSymFrame 0 (awgnOutput c s xs), rng := rngAfter c (2 * s.flen.toNat) s.rng }

@[simp] theorem awgnState_cmap (c : Config) (s : State) (xs : List Point) : (awgnState c s xs).cmap = s.cmap := rfl

theorem symAt_writeSymFrame_getElem (m : Memory) (ps : List Point) {k : Nat} (hk : k < ps.length) :
    (m.writeSymFrame 0 ps).symAt k = some ps[k] := by
  rw [symAt_writeSymFrame, if_pos k.zero_le]
  simp [hk]

theorem awgnState_symEntry (c : Config) (s : State) (xs : List Point) {k : Nat} (hk : k < xs.length) :
    (awgnState c s xs).symEntry k = some (noisy (sigma c (signalPower xs) s.snrDb) xs[k] (drawAt c s.rng k)
      (drawAt c s.rng (s.flen.toNat + k))) := by
  rw [symEntry_eq, awgnState, symAt_writeSymFrame_getElem _ _ (by simpa using hk), awgnOutput_getElem]

/-- AWGN succeeds exactly when its checks pass, and then with its output frame (42_awgn.md R91). -/
theorem awgnCourse_eq_ok_iff (c : Config) (s t : State) : awgnCourse c s = .ok t ↔
    s.flen.toNat ≤ s.maxFrame ∧ isFinite s.snrDb = true ∧ s.flen.toNat ≠ 0 ∧ ∃ xs, HasFrame s xs ∧
      isFinite (signalPower xs) = true ∧ isZero (signalPower xs) = false ∧
      isFinite (noiseN0 c (signalPower xs) s.snrDb) = true ∧
      (∀ (k : Nat) (h : k < xs.length), (noisy (sigma c (signalPower xs) s.snrDb) xs[k] (drawAt c s.rng k)
        (drawAt c s.rng (s.flen.toNat + k))).isFinite = true) ∧ t = awgnState c s xs := by
  rw [awgnCourse_ok_iff]
  refine and_congr_right fun _ => and_congr_right fun _ => and_congr_right fun _ => ⟨?_, ?_⟩
  · rintro ⟨xs, ys, hlen, hlen', hxs, hp, hp0, hn0, hys, rfl⟩
    obtain rfl : ys = awgnOutput c s xs := List.ext_getElem (by simp [hlen, hlen']) fun k hk hk' => by
      rw [awgnOutput_getElem]
      exact (hys k hk (by simpa using hk')).1
    refine ⟨xs, ⟨hlen, hxs⟩, hp, hp0, hn0, fun k hk => ?_, rfl⟩
    rw [← awgnOutput_getElem c s xs k (by simpa using hk)]
    exact (hys k _ hk).2
  · rintro ⟨xs, ⟨hlen, hxs⟩, hp, hp0, hn0, hys, rfl⟩
    exact ⟨xs, awgnOutput c s xs, hlen, by simp [hlen], hxs, hp, hp0, hn0,
      fun k hk hk' => ⟨awgnOutput_getElem c s xs k hk, awgnOutput_getElem c s xs k hk ▸ hys k hk'⟩, rfl⟩

/-! ### The noise level -/

theorem isZero_noiseN0_of_infinite {c : Config} {p snr : F64} (hp : isFinite p = true)
    (h : snrFactor c snr = 0x7FF0000000000000) : isZero (noiseN0 c p snr) = true := by
  rw [noiseN0, h, div_finite_inf (by decide) hp, signedZero_eq, zero, isZero_iff, magBits_pack _ (by omega)]

theorem isZero_sigma {c : Config} {p snr : F64} (h : isZero (noiseN0 c p snr) = true) :
    isZero (sigma c p snr) = true := by
  have hhalf := (div_zero_left (y := 0x4000000000000000) h (by decide) (by decide)).2
  rwa [sigma, sqrt_of_isZero hhalf]

/-- With sigma a zero both noise terms are zeros, whatever the draws. -/
theorem noisy_of_isZero {sg gI gQ : F64} {x : Point} (hsg : isZero sg = true) (hx : x.isFinite = true)
    (hI : isFinite gI = true) (hQ : isFinite gQ = true) : (noisy sg x gI gQ).isFinite = true ∧
      units (noisy sg x gI gQ).i = units x.i ∧ units (noisy sg x gI gQ).q = units x.q := by
  obtain ⟨hxI, hxQ⟩ := x.isFinite_iff.mp hx
  obtain ⟨hfinI, hunitsI⟩ := add_isZero hxI (mul_zero_left hsg hI).2
  obtain ⟨hfinQ, hunitsQ⟩ := add_isZero hxQ (mul_zero_left hsg hQ).2
  exact ⟨(Point.isFinite_iff _).mpr ⟨hfinI, hfinQ⟩, hunitsI, hunitsQ⟩

end Sys2Proof.Machine

namespace Sys2Proof.Proofs

open Sys2Proof.Binary64 Sys2Proof.Machine Sys2Proof.Claims

/-- Settles O31: the course of AWGN on the frame writes the output frame. -/
theorem awgnResult : Obligations.AwgnResult := by
  intro s xs hn h0 hframe hsnr hp hp0 hn0 hfinite
  have hcourse := (awgnCourse_eq_ok_iff Config.chip s _).mpr ⟨hn, hsnr, h0, xs, hframe, hp, hp0, hn0, hfinite, rfl⟩
  have hexec := exec_awgn s
  rw [awgnWith, hcourse, finish_ok] at hexec
  exact ⟨_, hexec, fun k hk => awgnState_symEntry Config.chip s xs hk,
    exec_sameOutsideSym (.inr (.inl rfl)) hexec, rfl⟩

/-- Settles O32: the checks of the course in their order. -/
theorem awgnErrors : Obligations.AwgnErrors := by
  refine ⟨exec_awgn, fun c s => ?_⟩
  have hstop : ∀ e, awgnCourse c s = .error e → awgnWith c s = finish 0x04 s (.error e) := fun e he => by
    rw [awgnWith, he]
  refine ⟨fun hlong => ?_, fun hn hsnr => ?_, fun hn hsnr => ⟨fun k hk hclean => ?_, fun xs hframe => ?_⟩⟩
  · exact hstop (.block .frameLength nopos) ((awgnCourse_error_iff c s _).mpr (.inl ⟨hlong, rfl⟩))
  · exact hstop (.block .invalidParameter nopos) ((awgnCourse_error_iff c s _).mpr (.inr (.inl ⟨hn, hsnr, rfl⟩)))
  · have hsymbol : ∀ e, symbolOperand s k = .error e → awgnWith c s = finish 0x04 s (.error e) := fun e he =>
      hstop e ((awgnCourse_error_iff c s e).mpr (.inr (.inr (.inl ⟨hn, hsnr, k, hk, he, hclean⟩))))
    exact ⟨fun hnone => hsymbol _ ((symbolOperand_error_iff s k _).mpr (.inl ⟨hnone, rfl⟩)),
      fun x hx hinf => hsymbol (.block .nonFiniteInput (posWord k))
        ((symbolOperand_error_iff s k _).mpr (.inr ⟨x, hx, hinf, rfl⟩))⟩
  · have hlater := fun e h => hstop e ((awgnCourse_error_iff c s e).mpr
      (.inr (.inr (.inr ⟨hn, hsnr, xs, hframe.1, hframe.2, h⟩))))
    refine ⟨fun h0 => ?_, fun h0 => ⟨fun hp => ?_, fun hp0 => ?_, fun hp hp0 =>
      ⟨fun hn0 => ?_, fun hn0 k hk hbefore hk' => ?_⟩⟩⟩
    · exact hlater (.block .degenerateSignal nopos) (.inl ⟨h0, rfl⟩)
    · exact hlater (.block .numericOverflow nopos) (.inr (.inl ⟨h0, hp, rfl⟩))
    · exact hlater (.block .degenerateSignal nopos) (.inr (.inr (.inl ⟨h0, isFinite_of_isZero hp0, hp0, rfl⟩)))
    · have hinf : isFinite (noiseN0 c (signalPower xs) s.snrDb) = false :=
        hn0.elim id fun hfactor => not_isFinite_div_isZero hp hp0 ((isZero_iff_eq _).mpr hfactor)
      exact hlater (.block .numericOverflow nopos) (.inr (.inr (.inr (.inl ⟨h0, hp, hp0, hinf, rfl⟩))))
    · exact hlater (.block .numericOverflow (posWord k))
        (.inr (.inr (.inr (.inr ⟨h0, hp, hp0, hn0, k, hk, hk', rfl, hbefore⟩))))

/-- Settles O33: a course that stops leaves the state as it was, but for the report. -/
theorem awgnAtomic : Obligations.AwgnAtomic := by
  intro s t h
  rcases finish_next h with ⟨u, hu, rfl⟩ | ⟨e, pos, _, rfl⟩
  · obtain ⟨-, -, -, xs, -, -, -, -, -, rfl⟩ := (awgnCourse_eq_ok_iff Config.chip s u).mp hu
    exact .inl ⟨report_errField _ _ _ _, exec_sameOutsideSym (.inr (.inl rfl)) h, rfl⟩
  · refine .inr ⟨?_, rfl, rfl⟩
    rw [report_errField]
    cases e <;> decide

/-- Settles O34: the mean of one symbol is the symbol. -/
theorem awgnOneSymbolDegenerate : Obligations.AwgnOneSymbolDegenerate := by
  intro s x hflen hmax hsnr hx hfin
  have hn : s.flen.toNat = 1 := by rw [hflen]; rfl
  have hframe : HasFrame s [x] := ⟨hn.symm, fun k hk => by
    obtain rfl : k = 0 := by simpa using hk
    exact ⟨hx, hfin⟩⟩
  obtain ⟨hfinI, hfinQ⟩ := x.isFinite_iff.mp hfin
  have hzero : isZero (signalPower [x]) = true := isZero_power_replicate (n := 1) hfin
    (exactMultiples_one hfinI) (exactMultiples_one hfinQ) one_ne_zero (by norm_num)
  obtain ⟨hexec, herrors⟩ := awgnErrors
  obtain ⟨-, -, hclean⟩ := herrors Config.chip s
  obtain ⟨-, hdegenerate, -⟩ := ((hclean (by omega) hsnr).2 [x] hframe).2 (by omega)
  rw [hexec, hdegenerate hzero]

/-- Settles O37: sigma is a zero, and so is every noise term. -/
theorem awgnZeroNoiseKeepsValues : Obligations.AwgnZeroNoiseKeepsValues := by
  refine ⟨exec_awgn, fun c s xs hn h0 hframe hsnr hp hp0 => ⟨isZero_noiseN0_of_infinite hp, fun hzero => ?_⟩⟩
  have hn0 : isZero (noiseN0 c (signalPower xs) s.snrDb) = true := hzero.elim id (isZero_noiseN0_of_infinite hp)
  have hkept := fun (k : Nat) (hk : k < xs.length) => noisy_of_isZero (isZero_sigma hn0) (hframe.2 k hk).2
    (drawAt_finite c s.rng k) (drawAt_finite c s.rng (s.flen.toNat + k))
  have hcourse := (awgnCourse_eq_ok_iff c s _).mpr
    ⟨hn, hsnr, h0, xs, hframe, hp, hp0, isFinite_of_isZero hn0, fun k hk => (hkept k hk).1, rfl⟩
  have hrun : awgnWith c s = .next ((awgnState c s xs).report 0x04 0 nopos) := by rw [awgnWith, hcourse, finish_ok]
  exact ⟨_, hrun, rfl, rfl, rfl, fun k hk => ⟨_, awgnState_symEntry c s xs hk, hkept k hk⟩⟩

/-- Settles O38: a noise term of at most 0.5 moves no symbol out of the band of its own level. -/
theorem highSnrStability : Obligations.HighSnrStability := by
  intro c s t p hr hpoints hcourse hnoise
  obtain ⟨hn, -, -, xs, hframe, -, -, -, hout, rfl⟩ := (awgnCourse_eq_ok_iff c s t).mp hcourse
  have hys : HasFrame (awgnState c s xs) (awgnOutput c s xs) :=
    ⟨(awgnOutput_length c s xs).trans hframe.1, fun k hk =>
      ⟨symAt_writeSymFrame_getElem _ _ hk, awgnOutput_getElem c s xs k hk ▸ hout k (by simpa using hk)⟩⟩
  refine ⟨_, sliceCourse_ok hn hys, fun k hk => ?_⟩
  have hk' : k < xs.length := hframe.1 ▸ hk
  have hx : xs[k] = s.cmap.point (p k) := Option.some.inj ((hframe.2 k hk').1.symm.trans (hpoints k hk))
  obtain ⟨hI2, hI, hQ2, hQ⟩ := hnoise xs hframe k hk
  rw [State.idxEntry, idxAt_writeIdxFrame, if_pos k.zero_le]
  simp [hk', hx, nearest_noisy hr (p k) hI hQ hI2 hQ2]

end Sys2Proof.Proofs
end

section
/-! PROOFS. PNROT (43_phase_rotator.md R100 to R105): how it completes and how it stops; and that with both parameters 0
every symbol keeps its value, because the sine of a zero is that zero and its cosine is 1 (00_scope.md R8). -/

namespace Sys2Proof.Binary64

/-- A zero added on the left leaves the value as it is. -/
theorem add_isZero_left {x y : F64} (hx : isZero x = true) (hy : isFinite y = true) :
    isFinite (add x y) = true ∧ units (add x y) = units y :=
  add_exact (isFinite_of_isZero hx) hy hy (by rw [(units_eq_zero_iff x).mpr hx, zero_add])

/-- A zero subtracted leaves the value as it is. -/
theorem sub_isZero {x y : F64} (hx : isFinite x = true) (hy : isZero y = true) :
    isFinite (sub x y) = true ∧ units (sub x y) = units x :=
  sub_exact hx (isFinite_of_isZero hy) hx (by rw [(units_eq_zero_iff y).mpr hy, sub_zero])

end Sys2Proof.Binary64

namespace Sys2Proof.Machine

open Binary64 Claims

theorem exec_pnrot (s : State) : exec .pnrot s = pnrotWith Config.chip s := rfl

theorem BlockError.code_ne_zero (e : BlockError) : e.code ≠ 0 := by cases e <;> decide

/-! ### How PNROT completes -/

/-- The output frame of PNROT (43_phase_rotator.md R100): symbol k is turned by its phase offset, made with draw k, and
then by the constant angle. -/
def pnrotOutput (c : Config) (s : State) (xs : List Point) : List Point :=
  xs.mapIdx fun k x => turned c (mul (phaseScale s.pnParam) (drawAt c s.rng k)) (rotationAngle s.rotDeg) x

section Output
variable (c : Config) (s : State) (xs : List Point)

@[simp] theorem pnrotOutput_length : (pnrotOutput c s xs).length = xs.length := List.length_mapIdx

@[simp] theorem pnrotOutput_getElem (k : Nat) (h : k < (pnrotOutput c s xs).length) :
    (pnrotOutput c s xs)[k] = turned c (mul (phaseScale s.pnParam) (drawAt c s.rng k)) (rotationAngle s.rotDeg)
      (xs[k]'(by simpa using h)) := List.getElem_mapIdx

end Output

/-- The state PNROT has reached when it succeeds, before its bookkeeping. -/
def pnrotState (c : Config) (s : State) (xs : List Point) : State :=
  { s with mem := s.mem.writeSymFrame 0 (pnrotOutput c s xs), rng := rngAfter c s.flen.toNat s.rng }

theorem pnrotState_symEntry (c : Config) (s : State) (xs : List Point) {k : Nat} (hk : k < xs.length) :
    (pnrotState c s xs).symEntry k =
      some (turned c (mul (phaseScale s.pnParam) (drawAt c s.rng k)) (rotationAngle s.rotDeg) xs[k]) := by
  rw [symEntry_eq, pnrotState, symAt_writeSymFrame_getElem _ _ (by simpa using hk), pnrotOutput_getElem]

/-- PN_PARAM passes its check exactly when it is finite and not below 0 (43_phase_rotator.md R101). -/
theorem phaseNoise_legal_iff (x : F64) :
    (isFinite x && decide (0 ≤ units x)) = true ↔ isFinite x = true ∧ 0 ≤ units x := by
  rw [Bool.and_eq_true, decide_eq_true_iff]

theorem phaseNoise_illegal_iff (x : F64) :
    (isFinite x && decide (0 ≤ units x)) = false ↔ isFinite x = false ∨ units x < 0 := by
  rw [Bool.and_eq_false_iff, decide_eq_false_iff_not, not_le]

/-- PNROT succeeds on a frame when its checks pass, with its output frame (43_phase_rotator.md R100). -/
theorem pnrotCourse_ok {c : Config} {s : State} {xs : List Point} (hn : s.flen.toNat ≤ s.maxFrame)
    (hframe : HasFrame s xs) (hpn : isFinite s.pnParam = true) (hpos : 0 ≤ units s.pnParam)
    (hrot : isFinite s.rotDeg = true) (hsphi : isFinite (phaseScale s.pnParam) = true)
    (htheta : isFinite (rotationAngle s.rotDeg) = true)
    (hout : ∀ (k : Nat) (h : k < xs.length), isFinite (mul (phaseScale s.pnParam) (drawAt c s.rng k)) = true ∧
      (turned c (mul (phaseScale s.pnParam) (drawAt c s.rng k)) (rotationAngle s.rotDeg) xs[k]).isFinite = true) :
    pnrotCourse c s = .ok (pnrotState c s xs) := by
  obtain ⟨hlen, hxs⟩ := hframe
  refine (pnrotCourse_ok_iff c s _).mpr ⟨hn, (phaseNoise_legal_iff _).mpr ⟨hpn, hpos⟩, hrot, hsphi, htheta, xs,
    pnrotOutput c s xs, hlen, by simp [hlen], hxs, fun k hk hk' => ?_, rfl⟩
  obtain ⟨hphase, hfin⟩ := hout k hk'
  exact ⟨pnrotOutput_getElem c s xs k hk, hphase, pnrotOutput_getElem c s xs k hk ▸ hfin⟩

/-! ### How PNROT stops -/

theorem pnrotWith_of_error {c : Config} {s : State} {e : Stop} (h : pnrotCourse c s = .error e) :
    pnrotWith c s = finish 0x05 s (.error e) := by rw [pnrotWith, h]

theorem symbolOperand_of_unwritten {s : State} {k : Nat} (h : s.symEntry k = none) :
    symbolOperand s k = .error (.model .unwrittenRead) := (symbolOperand_error_iff s k _).mpr (.inl ⟨h, rfl⟩)

theorem symbolOperand_of_not_finite {s : State} {k : Nat} {x : Point} (h : s.symEntry k = some x)
    (hx : x.isFinite = false) : symbolOperand s k = .error (.block .nonFiniteInput (posWord k)) :=
  (symbolOperand_error_iff s k _).mpr (.inr ⟨x, h, hx, rfl⟩)

/-! ### No rotation -/

theorem isZero_phaseScale {x : F64} (h : isZero x = true) : isZero (phaseScale x) = true :=
  (mul_zero_left h (by decide +kernel)).2

theorem isZero_rotationAngle {x : F64} (h : isZero x = true) : isZero (rotationAngle x) = true :=
  (div_zero_left (mul_zero_left h (by decide +kernel)).2 isFinite_f180 (by decide +kernel)).2

/-- cis of a zero is 1 + 0i up to the sign of the 0, and a product with it keeps the value. -/
theorem product_phasor_of_isZero (c : Config) {x : Point} {phi : F64} (hx : x.isFinite = true)
    (h : isZero phi = true) : (product x (phasor c phi)).isFinite = true ∧
      units (product x (phasor c phi)).i = units x.i ∧ units (product x (phasor c phi)).q = units x.q := by
  obtain ⟨hxI, hxQ⟩ := x.isFinite_iff.mp hx
  obtain ⟨honeI, hkeepI⟩ := mul_f1 hxI
  obtain ⟨honeQ, hkeepQ⟩ := mul_f1 hxQ
  obtain ⟨hfinI, hunitsI⟩ := sub_isZero honeI (mul_zero_right hxQ h).2
  obtain ⟨hfinQ, hunitsQ⟩ := add_isZero_left (mul_zero_right hxI h).2 honeQ
  rw [phasor, cos_of_isZero c h, sin_of_isZero c h]
  exact ⟨(Point.isFinite_iff _).mpr ⟨hfinI, hfinQ⟩, hunitsI.trans hkeepI, hunitsQ.trans hkeepQ⟩

theorem turned_of_isZero (c : Config) {x : Point} {phi theta : F64} (hx : x.isFinite = true)
    (hphi : isZero phi = true) (htheta : isZero theta = true) : (turned c phi theta x).isFinite = true ∧
      units (turned c phi theta x).i = units x.i ∧ units (turned c phi theta x).q = units x.q := by
  obtain ⟨hfin, hI, hQ⟩ := product_phasor_of_isZero c hx hphi
  obtain ⟨hfin', hI', hQ'⟩ := product_phasor_of_isZero c hfin htheta
  exact ⟨hfin', hI'.trans hI, hQ'.trans hQ⟩

end Sys2Proof.Machine

namespace Sys2Proof.Proofs

open Sys2Proof.Binary64 Sys2Proof.Machine Sys2Proof.Claims

/-- Settles O39: the course of PNROT on the frame writes the output frame. -/
theorem pnrotResult : Obligations.PnrotResult := by
  rintro s xs sphi theta hn hframe hpn hpos hrot rfl rfl hsphi htheta hout
  have hexec := exec_pnrot s
  rw [pnrotWith, pnrotCourse_ok hn hframe hpn hpos hrot hsphi htheta hout, finish_ok] at hexec
  exact ⟨_, hexec, fun k hk => pnrotState_symEntry Config.chip s xs hk,
    exec_sameOutsideSym (.inr (.inr rfl)) hexec, rfl⟩

/-- Settles O40: the checks of the course in their order. -/
theorem pnrotErrors : Obligations.PnrotErrors := by
  refine ⟨exec_pnrot, ?_⟩
  rintro c s sphi theta rfl rfl
  have hstop := fun e h => pnrotWith_of_error ((pnrotCourse_error_iff c s e).mpr h)
  refine ⟨fun hlong => ?_, fun hn hillegal => ?_, fun hn hpn hpos hrot =>
    ⟨fun k hk hclean => ?_, fun xs hframe => ⟨fun hangle => ?_, fun hsphi htheta k hk hbefore hk' => ?_⟩⟩⟩
  · exact hstop (.block .frameLength nopos) (.inl ⟨hlong, rfl⟩)
  · have hparameter := or_assoc.mpr hillegal
    rw [← phaseNoise_illegal_iff] at hparameter
    exact hstop (.block .invalidParameter nopos) (.inr (.inl ⟨hn, hparameter, rfl⟩))
  all_goals have hlegal := (phaseNoise_legal_iff _).mpr ⟨hpn, hpos⟩
  · have hsymbol := fun e he => hstop e (.inr (.inr (.inl ⟨hn, hlegal, hrot, k, hk, he, hclean⟩)))
    exact ⟨fun hnone => hsymbol _ (symbolOperand_of_unwritten hnone),
      fun x hx hinf => hsymbol _ (symbolOperand_of_not_finite hx hinf)⟩
  · exact hstop (.block .numericOverflow nopos) (.inr (.inr (.inr ⟨hn, hlegal, hrot, xs, hframe.1, hframe.2,
      .inl ⟨Bool.and_eq_false_iff.mpr hangle, rfl⟩⟩)))
  · exact hstop (.block .numericOverflow (posWord k)) (.inr (.inr (.inr ⟨hn, hlegal, hrot, xs, hframe.1, hframe.2,
      .inr ⟨(Bool.and_eq_true _ _).mpr ⟨hsphi, htheta⟩, k, hk, hk', rfl, hbefore⟩⟩)))

/-- Settles O41: a course that stops leaves the state as it was, but for the report. -/
theorem pnrotAtomic : Obligations.PnrotAtomic := by
  intro s t h
  rcases finish_next h with ⟨u, hu, rfl⟩ | ⟨e, pos, _, rfl⟩
  · obtain ⟨-, -, -, -, -, xs, ys, -, -, -, -, rfl⟩ := (pnrotCourse_ok_iff Config.chip s u).mp hu
    exact .inl ⟨report_errField _ _ _ _, exec_sameOutsideSym (.inr (.inr rfl)) h, rfl⟩
  · exact .inr ⟨(report_errField _ _ _ _).trans_ne e.code_ne_zero, rfl, rfl⟩

/-- Settles O42: sphi and theta are zeros, and so is every phase offset. -/
theorem pnrotIdentity : Obligations.PnrotIdentity := by
  intro s xs hn hframe hpn hrot
  have hpn0 : isZero s.pnParam = true := (isZero_iff_eq _).mpr hpn
  have hrot0 : isZero s.rotDeg = true := (isZero_iff_eq _).mpr hrot
  have hsphi := isZero_phaseScale hpn0
  have htheta := isZero_rotationAngle hrot0
  have hphase := fun k => mul_zero_left hsphi (drawAt_finite Config.chip s.rng k)
  have hkept := fun (k : Nat) (hk : k < xs.length) =>
    turned_of_isZero Config.chip (hframe.2 k hk).2 (hphase k).2 htheta
  obtain ⟨t, hexec, hsym, -, ht⟩ := pnrotResult s xs _ _ hn hframe (isFinite_of_isZero hpn0)
    ((units_eq_zero_iff _).mpr hpn0).ge (isFinite_of_isZero hrot0) rfl rfl (isFinite_of_isZero hsphi)
    (isFinite_of_isZero htheta) fun k hk => ⟨(hphase k).1, (hkept k hk).1⟩
  exact ⟨t, hexec, congrArg State.status ht, congrArg State.errpos ht, congrArg State.rng ht,
    fun k hk => ⟨_, hsym k hk, hkept k hk⟩⟩

end Sys2Proof.Proofs
end

section
/-! PROOFS. A command depends on its read set (10_state.md R44) only: its course is a chain of checks and loops, each the
same in two states that agree on what the command reads; and SEED (44_control.md R107, R108). -/

namespace Sys2Proof.Machine

open Claims

/-! ### Operands of two states -/

/-- The loop asks its body of the list's elements only. -/
theorem eachInOrder_congr {f g : α → Except Stop β} {as : List α} (h : ∀ a ∈ as, f a = g a) :
    eachInOrder f as = eachInOrder g as := by
  induction as with
  | nil => rfl
  | cons a as ih =>
    obtain ⟨ha, has⟩ := List.forall_mem_cons.mp h
    rw [eachInOrder, eachInOrder, ha, ih has]

theorem eachInOrder_range_congr {f g : Nat → Except Stop β} {n : Nat} (h : ∀ k < n, f k = g k) :
    eachInOrder f (List.range n) = eachInOrder g (List.range n) :=
  eachInOrder_congr fun k hk => h k (List.mem_range.mp hk)

section Operands
variable {s s' : State} {k n : Nat}

theorem frameLength_congr (hflen : s.flen = s'.flen) (hmax : s.maxFrame = s'.maxFrame) :
    frameLength s = frameLength s' := by rw [frameLength, frameLength, hflen, hmax]

theorem indexOperand_congr (h : s.idxEntry k = s'.idxEntry k) : indexOperand s k = indexOperand s' k := by
  rw [indexOperand, indexOperand, h]

theorem symbolOperand_congr (h : s.symEntry k = s'.symEntry k) : symbolOperand s k = symbolOperand s' k := by
  rw [symbolOperand, symbolOperand, h]

theorem pointOperand_congr (hcmap : s.cmap = s'.cmap) (h : s.symEntry k = s'.symEntry k) :
    pointOperand s k = pointOperand s' k := by rw [pointOperand, pointOperand, symbolOperand_congr h, hcmap]

theorem symbolFrame_congr (h : ∀ k < n, s.symEntry k = s'.symEntry k) : symbolFrame s n = symbolFrame s' n :=
  eachInOrder_range_congr fun k hk => symbolOperand_congr (h k hk)

theorem snrOperand_congr (h : s.snrDb = s'.snrDb) : snrOperand s = snrOperand s' := by
  rw [snrOperand, snrOperand, h]

theorem phaseNoiseOperand_congr (h : s.pnParam = s'.pnParam) : phaseNoiseOperand s = phaseNoiseOperand s' := by
  rw [phaseNoiseOperand, phaseNoiseOperand, h]

theorem rotationOperand_congr (h : s.rotDeg = s'.rotDeg) : rotationOperand s = rotationOperand s' := by
  rw [rotationOperand, rotationOperand, h]

end Operands

/-! ### Frames written to two memories -/

section Written
variable {k : Nat} (m m' : Memory)

theorem symAt_writeSymFrame_congr (ys : List Point) (hk : k < ys.length) :
    (m.writeSymFrame 0 ys).symAt k = (m'.writeSymFrame 0 ys).symAt k := by
  rw [symAt_writeSymFrame_getElem m ys hk, symAt_writeSymFrame_getElem m' ys hk]

theorem idxAt_writeIdxFrame_congr (ps : List (Fin 16)) (hk : k < ps.length) :
    (m.writeIdxFrame 0 ps).readWord (idxOffset k) = (m'.writeIdxFrame 0 ps).readWord (idxOffset k) := by
  rw [idxAt_writeIdxFrame, idxAt_writeIdxFrame, if_pos k.zero_le, if_pos k.zero_le, Nat.sub_zero,
    List.getElem?_eq_getElem hk]

end Written

/-! ### Courses that agree -/

/-- Two courses of one command on frames of length `n` end alike: both stop with the same error or model fault, or both
succeed and have written the same. -/
inductive CoursesAgree (i : Instr) (n : Nat) : Except Stop State → Except Stop State → Prop where
  | done {u u' : State} : SameResults i n u u' → CoursesAgree i n (.ok u) (.ok u')
  | stopped (e : Stop) : CoursesAgree i n (.error e) (.error e)

section Courses
variable {i : Instr} {n : Nat} {s s' : State}

/-- A check with the same answer in both states leaves it to the rest of the two courses to agree. -/
theorem coursesAgree_bind {x x' : Except Stop α} {f f' : α → Except Stop State} (hx : x = x')
    (hf : ∀ a, x = .ok a → CoursesAgree i n (f a) (f' a)) : CoursesAgree i n (x >>= f) (x' >>= f') := by
  subst hx
  cases x with
  | error e => exact .stopped e
  | ok a => exact hf a rfl

/-- Every frame command begins with the check of FLEN. -/
theorem coursesAgree_frameLength {f f' : Nat → Except Stop State} (hflen : s.flen = s'.flen)
    (hmax : s.maxFrame = s'.maxFrame) (hf : CoursesAgree i n (f s.flen.toNat) (f' s.flen.toNat)) :
    CoursesAgree i n (frameLength s >>= f) (frameLength s' >>= f') :=
  coursesAgree_bind (frameLength_congr hflen hmax) fun m hm => by
    obtain ⟨-, rfl⟩ := (frameLength_ok_iff s m).mp hm
    exact hf

theorem mapCourse_agree (h : SameOperands .map s s') :
    CoursesAgree .map s.flen.toNat (mapCourse s) (mapCourse s') := by
  obtain ⟨hflen, hmax, hcmap, hidx⟩ := h
  refine coursesAgree_frameLength hflen hmax ?_
  refine coursesAgree_bind (eachInOrder_range_congr fun k hk => indexOperand_congr (hidx k hk)) fun ps hps => ?_
  obtain ⟨hlen, -⟩ := (eachInOrder_range_ok_iff _ _ ps).mp hps
  rw [← hcmap]
  exact .done fun k hk => symAt_writeSymFrame_congr s.mem s'.mem _ (by simpa [hlen] using hk)

theorem demapCourse_agree (h : SameOperands .demap s s') :
    CoursesAgree .demap s.flen.toNat (demapCourse s) (demapCourse s') := by
  obtain ⟨hflen, hmax, hcmap, hsym⟩ := h
  refine coursesAgree_frameLength hflen hmax ?_
  refine coursesAgree_bind (eachInOrder_range_congr fun k hk => pointOperand_congr hcmap (hsym k hk)) fun ps hps => ?_
  obtain ⟨hlen, -⟩ := (eachInOrder_range_ok_iff _ _ ps).mp hps
  exact .done fun k hk => idxAt_writeIdxFrame_congr s.mem s'.mem ps (hlen ▸ hk)

theorem sliceCourse_agree (h : SameOperands .slice s s') :
    CoursesAgree .slice s.flen.toNat (sliceCourse s) (sliceCourse s') := by
  obtain ⟨hflen, hmax, hcmap, hsym⟩ := h
  refine coursesAgree_frameLength hflen hmax ?_
  refine coursesAgree_bind (symbolFrame_congr hsym) fun xs hxs => ?_
  obtain ⟨hlen, -⟩ := (symbolFrame_ok_iff s _ xs).mp hxs
  rw [← hcmap]
  exact .done fun k hk => idxAt_writeIdxFrame_congr s.mem s'.mem _ (by simpa [hlen] using hk)

/-- The four checks after the frame are of values computed from it and from SNR_DB; the draws start from the same RNG. -/
theorem awgnCourse_agree (c : Config) (h : SameOperands .awgn s s') :
    CoursesAgree .awgn s.flen.toNat (awgnCourse c s) (awgnCourse c s') := by
  obtain ⟨hflen, hmax, hsnr, hrng, hsym⟩ := h
  refine coursesAgree_frameLength hflen hmax ?_
  refine coursesAgree_bind (snrOperand_congr hsnr) fun snr _ => ?_
  refine coursesAgree_bind (symbolFrame_congr hsym) fun xs hxs => ?_
  obtain ⟨hlen, -⟩ := (symbolFrame_ok_iff s _ xs).mp hxs
  iterate 4 refine coursesAgree_bind rfl fun _ _ => ?_
  rw [← hrng]
  refine coursesAgree_bind rfl fun ys hys => ?_
  obtain ⟨hlen', -⟩ := (mixFrame_ok_iff c _ _ xs hlen s.rng ys).mp hys
  exact .done ⟨fun k hk => symAt_writeSymFrame_congr s.mem s'.mem ys (hlen' ▸ hk), rfl⟩

theorem pnrotCourse_agree (c : Config) (h : SameOperands .pnrot s s') :
    CoursesAgree .pnrot s.flen.toNat (pnrotCourse c s) (pnrotCourse c s') := by
  obtain ⟨hflen, hmax, hpn, hrot, hrng, hsym⟩ := h
  refine coursesAgree_frameLength hflen hmax ?_
  refine coursesAgree_bind (phaseNoiseOperand_congr hpn) fun pn _ => ?_
  refine coursesAgree_bind (rotationOperand_congr hrot) fun rot _ => ?_
  refine coursesAgree_bind (symbolFrame_congr hsym) fun xs hxs => ?_
  obtain ⟨hlen, -⟩ := (symbolFrame_ok_iff s _ xs).mp hxs
  refine coursesAgree_bind rfl fun _ _ => ?_
  rw [← hrng]
  refine coursesAgree_bind rfl fun ys hys => ?_
  obtain ⟨hlen', -⟩ := (rotateFrame_ok_iff c _ _ _ xs hlen s.rng ys).mp hys
  exact .done ⟨fun k hk => symAt_writeSymFrame_congr s.mem s'.mem ys (hlen' ▸ hk), rfl⟩

theorem seedCourse_agree (c : Config) (h : SameOperands .seed s s') :
    CoursesAgree .seed n (seedCourse c s) (seedCourse c s') := .done (congrArg c.seedFn h)

/-- A command ends the courses of two states that agree on what it reads, and these agree. -/
theorem exec_coursesAgree (h : SameOperands i s s') :
    ∃ r r', exec i s = finish (opcodeOf i) s r ∧ exec i s' = finish (opcodeOf i) s' r' ∧
      CoursesAgree i s.flen.toNat r r' := by
  cases i with
  | map => exact ⟨_, _, rfl, rfl, mapCourse_agree h⟩
  | demap => exact ⟨_, _, rfl, rfl, demapCourse_agree h⟩
  | slice => exact ⟨_, _, rfl, rfl, sliceCourse_agree h⟩
  | awgn => exact ⟨_, _, rfl, rfl, awgnCourse_agree Config.chip h⟩
  | pnrot => exact ⟨_, _, rfl, rfl, pnrotCourse_agree Config.chip h⟩
  | seed => exact ⟨_, _, rfl, rfl, seedCourse_agree Config.chip h⟩

/-- The bookkeeping touches nothing a command has written. -/
theorem sameResults_report {u u' : State} (h : SameResults i n u u') (op code : Byte) (pos : Word) :
    SameResults i n (u.report op code pos) (u'.report op code pos) := by
  cases i <;> exact h

end Courses

/-! ### SEED -/

theorem exec_seed (s : State) : exec .seed s = finish 0x06 s (seedCourse Config.chip s) := rfl

end Sys2Proof.Machine

namespace Sys2Proof.Proofs

open Sys2Proof.Machine

/-- Settles O43: SEED's course is one assignment, and the end of a command does the rest. -/
theorem seedResult : Obligations.SeedResult := by
  intro s
  rw [exec_seed, seedCourse_eq, finish_ok]
  rfl

/-- Settles O49: the two courses agree, and the end of a command reports from the course and the opcode alone. -/
theorem commandsDependOnOperandsOnly : Obligations.CommandsDependOnOperandsOnly := by
  intro i s s' h
  obtain ⟨r, r', hexec, hexec', hagree⟩ := exec_coursesAgree h
  rw [hexec, hexec']
  cases hagree with
  | done hsame => exact ⟨rfl, rfl, fun _ => sameResults_report hsame _ _ _⟩
  | stopped e =>
    cases e with
    | block e pos =>
      exact ⟨rfl, rfl, fun hsuccess => absurd ((report_errField _ _ _ _).symm.trans hsuccess) e.code_ne_zero⟩
    | model f => rfl

end Sys2Proof.Proofs
end

section
/-! PROOFS. Steps and runs (60_exceptions.md R119, R127; 70_reset_and_hazards.md R129, R131, R138): no step refuses, an
idle block holds its state, and the fault record only grows. -/

namespace Sys2Proof.Machine

/-! ### Nothing is refused -/

section NotRefused
variable (s : State) (r : Refusal)

theorem next_ne_refused : (.next s : Host.Outcome State Fault Refusal) ≠ .refused r := nofun

theorem fault_ne_refused (f : Fault) : (.fault f : Host.Outcome State Fault Refusal) ≠ .refused r := nofun

theorem exec_ne_refused (i : Instr) : exec i s ≠ .refused r := by
  obtain ⟨c, hc⟩ := exec_eq_finish i s
  rw [hc]
  exact finish_not_refused _ _ c r

theorem runCommandWord_ne_refused (w : Word) : runCommandWord s w ≠ .refused r := by
  rw [runCommandWord]
  cases decode w with
  | ok i => exact exec_ne_refused s r i
  | error => exact next_ne_refused _ r

theorem writeTarget_ne_refused (v : Word) (tgt : Target) : writeTarget s v tgt ≠ .refused r := by
  cases tgt with
  | cmd => exact runCommandWord_ne_refused s r v
  | status | errpos | caps => exact fault_ne_refused r .busError
  | flen | snrDb | pnParam | rotDeg | seed | idx | symI | symQ => exact next_ne_refused _ r

theorem performAccess_ne_refused (a : HostAccess) : performAccess s a ≠ .refused r := by
  cases a with
  | read width offset =>
    rw [performAccess]
    cases busRead s width offset with
    | ok v => exact next_ne_refused _ r
    | error f => exact fault_ne_refused r f
  | write width offset v =>
    rw [performAccess, busWrite]
    cases busTarget s width offset with
    | ok tgt => exact writeTarget_ne_refused s r v tgt
    | error f => exact fault_ne_refused r f
  | reset => exact next_ne_refused _ r

end NotRefused

/-! ### The idle block -/

section Idle
variable {s : State} (h : s.port = [])
include h

theorem step_of_idle : step s = .next s := by rw [step, h]

theorem afterAccess_of_idle : afterAccess s = s := by rw [afterAccess, step_of_idle h]

theorem afterAccesses_of_idle (n : Nat) : afterAccesses n s = s := by
  induction n with
  | zero => rfl
  | succ n ih => rw [afterAccesses, afterAccess_of_idle h, ih]

end Idle

/-! ### The fault record -/

/-- No access that leads to a next state touches the record, the reset event among them (R131). -/
theorem accessed_faultRecord {s t : State} (h : Accessed s t) : t.faultRecord = s.faultRecord := by
  cases h with
  | command i _ h => rw [exec_frame h]
  | read | flen | snrDb | pnParam | rotDeg | seed | half | illegal | reset => rfl

theorem step_faultRecord {s t : State} (h : step s = .next t) : t.faultRecord = s.faultRecord := by
  rcases step_next h with ⟨_, rfl⟩ | ⟨_, _, _, haccess⟩
  · rfl
  · have hrecord := accessed_faultRecord haccess
    exact hrecord

theorem afterAccess_faultRecord_grows (s : State) : s.faultRecord <+: (afterAccess s).faultRecord := by
  cases h : step s with
  | next t => rw [afterAccess, h, step_faultRecord h]
  | fault f => rw [afterAccess_of_fault h]; exact ⟨[f], rfl⟩
  | refused r => rw [afterAccess, h]

theorem afterAccesses_faultRecord_grows (n : Nat) (s : State) : s.faultRecord <+: (afterAccesses n s).faultRecord := by
  induction n generalizing s with
  | zero => exact ⟨[], List.append_nil _⟩
  | succ n ih => exact (afterAccess_faultRecord_grows s).trans (ih _)

theorem endedWell_of_faultRecord_ne_nil {s : State} (h : s.faultRecord ≠ []) : s.endedWell = false := by
  rw [State.endedWell, List.isEmpty_eq_false_iff.mpr h, Bool.and_false]

end Sys2Proof.Machine

namespace Sys2Proof.Proofs

open Sys2Proof.Machine

/-- Settles O11: a fault appends to the record, and every other access leaves it alone. -/
theorem faultRecordNeverCleared : Obligations.FaultRecordNeverCleared :=
  ⟨fun _ _ => afterAccess_of_fault, afterAccesses_faultRecord_grows, fun n s h =>
    endedWell_of_faultRecord_ne_nil ((afterAccesses_faultRecord_grows n s).ne_nil h)⟩

/-- Settles O12: a step is idle or performs one access. -/
theorem stepNeverRefuses : Obligations.StepNeverRefuses := by
  intro s r
  cases hp : s.port with
  | nil => rw [step_of_idle hp]; exact next_ne_refused s r
  | cons a rest => rw [step_of_port hp]; exact performAccess_ne_refused _ r a

/-- Settles O56: by induction on the number of steps. -/
theorem idleHoldsState : Obligations.IdleHoldsState :=
  fun _ h => ⟨step_of_idle h, afterAccesses_of_idle h⟩

end Sys2Proof.Proofs
end

section
/-! PROOFS. The errors of commands (60_exceptions.md R112 to R117): what every command word reports; which errors each
command raises, each from a state that raises it; and that only finite values and table positions are written. -/

namespace Sys2Proof.Machine

open Claims Binary64

/-! ### What a command word reports -/

theorem raise_errField_ne_zero (s : State) (op : Byte) (e : BlockError) (pos : Word) :
    (s.report op e.code pos).errField ≠ 0 := (report_errField _ _ _ _).trans_ne e.code_ne_zero

/-- A command word, legal or not, ends by reporting its own low byte: with ERR 0 whatever it has written, or with an
error on the state as it was. -/
theorem runCommandWord_next {s t : State} {w : Word} (h : runCommandWord s w = .next t) :
    (∃ u : State, t = u.report (w.extractLsb' 0 8) 0 nopos) ∨
    ∃ (e : BlockError) (pos : Word), t = s.report (w.extractLsb' 0 8) e.code pos := by
  cases hd : decode w with
  | ok i =>
    have hopc : w.extractLsb' 0 8 = opcodeOf i := (decode_eq_ok_iff_fields.mp hd).2
    rw [runCommandWord_of_ok hd] at h
    rw [hopc]
    rcases exec_next h with ⟨u, _, ht⟩ | ⟨e, pos, _, ht⟩
    · exact .inl ⟨u, ht⟩
    · exact .inr ⟨e, pos, ht⟩
  | error d =>
    rw [runCommandWord, hd] at h
    cases h
    exact .inr ⟨.illegalCommand, nopos, rfl⟩

/-! ### What a successful command has written -/

section Success
variable {i : Instr} {s t : State} (h : exec i s = .next t) (h0 : t.errField = 0)
include h h0

theorem exec_success : ∃ u, Effect i s u ∧ t = u.report (opcodeOf i) 0 nopos := by
  rcases exec_next h with hu | ⟨e, pos, _, rfl⟩
  · exact hu
  · exact absurd h0 (raise_errField_ne_zero s _ e pos)

theorem exec_symEntry_finite (hr : Rom.legal s.cmap) (hi : i = .map ∨ i = .awgn ∨ i = .pnrot) {k : Nat}
    (hk : k < s.flen.toNat) : ∃ y, t.symEntry k = some y ∧ y.isFinite = true := by
  obtain ⟨u, hu, rfl⟩ := exec_success h h0
  cases hu with
  | sym ys r _ hlen hys =>
    have hk' : k < ys.length := by omega
    refine ⟨ys[k], symAt_writeSymFrame_getElem s.mem ys hk', ?_⟩
    rcases hys _ (List.getElem_mem hk') with hfin | ⟨p, hp⟩
    · exact hfin
    · rw [hp]; exact isFinite_point hr p
  | idx _ _ _ hidx => rcases hidx with rfl | rfl <;> simp at hi
  | seed hseed => subst hseed; simp at hi

theorem exec_idxEntry_position (hi : i = .demap ∨ i = .slice) {k : Nat} (hk : k < s.flen.toNat) :
    ∃ p : Fin 16, t.idxEntry k = some (BitVec.ofNat 64 p.val) := by
  obtain ⟨u, hu, rfl⟩ := exec_success h h0
  cases hu with
  | sym _ _ _ _ _ hsym => rcases hsym with ⟨rfl, _⟩ | ⟨rfl, _⟩ | ⟨rfl, _⟩ <;> simp at hi
  | idx ps _ hlen =>
    have hk' : k < ps.length := by omega
    refine ⟨ps[k], ?_⟩
    rw [report_idxEntry, State.idxEntry, idxAt_writeIdxFrame, if_pos k.zero_le, Nat.sub_zero,
      List.getElem?_eq_getElem hk']
  | seed hseed => subst hseed; simp at hi

end Success

/-! ### A state that raises each error -/

theorem codesOf_eq (i : Instr) : codesOf i = (raisedBy i).map BlockError.code := by cases i <;> rfl

/-- The reset state of a block of 4096 entries with this FLEN, this memory and these SNR_DB, PN_PARAM and ROT_DEG. -/
def blockWith (n : Word) (m : Memory) (snr pn rot : F64) : State :=
  { State.reset with caps := 4096, flen := n, mem := m, snrDb := snr, pnParam := pn, rotDeg := rot }

section BlockWith
variable (n : Word) (m : Memory) (snr pn rot : F64)

theorem blockWith_maxFrame : (blockWith n m snr pn rot).maxFrame = 4096 := rfl

theorem blockWith_capsLegal : (blockWith n m snr pn rot).capsLegal := by
  rw [State.capsLegal, blockWith_maxFrame]
  exact ⟨by decide, le_rfl, rfl⟩

theorem blockWith_legal (hwf : Memory.wf m = true) (hwhole : Memory.whole 4096 m) :
    (blockWith n m snr pn rot).Legal where
  caps := blockWith_capsLegal n m snr pn rot
  rom := Proofs.resetIsLegal.rom
  memSorted := hwf
  memWhole := hwhole
  status := statusLegal_of_status_eq_zero rfl
  errpos := .inl rfl

end BlockWith

/-- Two symbols so far apart that their power overflows (95_test_vectors.md A14). -/
def farApart : List Point := [⟨0x7FE1CCF385EBC8A0, 0⟩, ⟨0xFFE1CCF385EBC8A0, 0⟩]

/-- A state from which every command with `e` in its row of R116 raises `e`: FLEN one too long; SNR_DB and PN_PARAM
infinite; an index 16; an infinite symbol; a symbol 0, which is no point; an empty frame; and `farApart` beside a ROT_DEG
so great that theta overflows. The other two errors are no command's. -/
def raisingState : BlockError → State
  | .frameLength => blockWith 4097 [] 0 0 0
  | .invalidParameter => blockWith 0 [] 0x7FF0000000000000 0x7FF0000000000000 0
  | .invalidIndex => blockWith 1 (Memory.writeWord [] (idxOffset 0) 16) 0 0 0
  | .nonFiniteInput => blockWith 1 (Memory.writeSymFrame [] 0 [⟨0x7FF0000000000000, 0⟩]) 0 0 0
  | .notAConstellationPoint => blockWith 1 (Memory.writeSymFrame [] 0 [⟨0, 0⟩]) 0 0 0
  | .degenerateSignal => blockWith 0 [] 0 0 0
  | .numericOverflow => blockWith 2 (Memory.writeSymFrame [] 0 farApart) 0 0 0x7FEFFFFFFFFFFFFF
  | .lengthMismatch | .illegalCommand => blockWith 0 [] 0 0 0

theorem raisingState_legal (e : BlockError) : (raisingState e).Legal := by
  cases e with
  | invalidIndex =>
    exact blockWith_legal _ _ _ _ _ (writeWord_wf rfl _ _)
      (whole_writeWord (whole_nil _) (bufferHalf_idxOffset (by decide)) _)
  | nonFiniteInput | notAConstellationPoint | numericOverflow =>
    exact blockWith_legal _ _ _ _ _ (writeSymFrame_wf rfl _ _) (whole_writeSymFrame (whole_nil _) _ _ (by decide))
  | lengthMismatch | degenerateSignal | illegalCommand | frameLength | invalidParameter =>
    exact blockWith_legal _ _ _ _ _ rfl (whole_nil _)

theorem raisingState_tooLong : (raisingState .frameLength).maxFrame < (raisingState .frameLength).flen.toNat := by
  decide

/-- Every other one of these states has a legal FLEN. -/
theorem raisingState_flen_le {e : BlockError} (he : e ≠ .frameLength) :
    (raisingState e).flen.toNat ≤ (raisingState e).maxFrame := by
  cases e with
  | frameLength => exact absurd rfl he
  | invalidIndex | nonFiniteInput | notAConstellationPoint | numericOverflow | lengthMismatch | degenerateSignal
    | illegalCommand | invalidParameter => decide

theorem idxEntry_raisingState : (raisingState .invalidIndex).idxEntry 0 = some 16 := readWord_writeWord_same _ _ _

theorem symbolOperand_raisingState : symbolOperand (raisingState .nonFiniteInput) 0 =
    .error (.block .nonFiniteInput (posWord 0)) :=
  symbolOperand_of_not_finite (symAt_writeSymFrame_getElem [] [⟨0x7FF0000000000000, 0⟩] Nat.one_pos) (by decide)

theorem symEntry_raisingState : (raisingState .notAConstellationPoint).symEntry 0 = some ⟨0, 0⟩ :=
  symAt_writeSymFrame_getElem [] [⟨0, 0⟩] Nat.one_pos

theorem hasFrame_raisingState : HasFrame (raisingState .numericOverflow) farApart := by
  unfold HasFrame; decide +kernel

/-- No level is zero, so no ROM holds (0, 0). -/
theorem inverse_origin {r : Rom} (hr : Rom.legal r) : r.inverse ⟨0, 0⟩ = none := by
  refine Option.eq_none_iff_forall_ne_some.mpr fun p hp => ?_
  obtain ⟨a, b, hab⟩ := point_levels hr p
  have hlevel : level a = 0 := congrArg Point.i (((inverse_eq_some_iff hr).mp hp).trans hab).symm
  exact units_level_ne_zero a (by rw [hlevel]; decide)

/-! ### The rows of R116, each error from its state -/

theorem map_raises : ∀ e ∈ raisedBy .map, ∃ pos, mapCourse (raisingState e) = .error (.block e pos) := by
  simp only [raisedBy, List.forall_mem_cons, mapCourse_error_iff, indexOperand_error_iff]
  refine ⟨⟨nopos, ?_⟩, ⟨posWord 0, ?_⟩, List.forall_mem_nil _⟩
  · exact .inl ⟨raisingState_tooLong, rfl⟩
  · exact .inr ⟨raisingState_flen_le (by decide), 0, by decide,
      .inr ⟨16, idxEntry_raisingState, by decide, rfl⟩, by simp⟩

theorem demap_raises : ∀ e ∈ raisedBy .demap, ∃ pos, demapCourse (raisingState e) = .error (.block e pos) := by
  have hinverse := inverse_origin (raisingState_legal .notAConstellationPoint).rom
  simp only [raisedBy, List.forall_mem_cons, demapCourse_error_iff, pointOperand_error_iff]
  refine ⟨⟨nopos, ?_⟩, ⟨posWord 0, ?_⟩, ⟨posWord 0, ?_⟩, List.forall_mem_nil _⟩
  · exact .inl ⟨raisingState_tooLong, rfl⟩
  · exact .inr ⟨raisingState_flen_le (by decide), 0, by decide, .inl symbolOperand_raisingState, by simp⟩
  · exact .inr ⟨raisingState_flen_le (by decide), 0, by decide,
      .inr ⟨⟨0, 0⟩, symEntry_raisingState, by decide, hinverse, rfl⟩, by simp⟩

theorem slice_raises : ∀ e ∈ raisedBy .slice, ∃ pos, sliceCourse (raisingState e) = .error (.block e pos) := by
  simp only [raisedBy, List.forall_mem_cons, sliceCourse_error_iff]
  refine ⟨⟨nopos, ?_⟩, ⟨posWord 0, ?_⟩, List.forall_mem_nil _⟩
  · exact .inl ⟨raisingState_tooLong, rfl⟩
  · exact .inr ⟨raisingState_flen_le (by decide), 0, by decide, symbolOperand_raisingState, by simp⟩

theorem awgn_raises (c : Config) :
    ∀ e ∈ raisedBy .awgn, ∃ pos, awgnCourse c (raisingState e) = .error (.block e pos) := by
  obtain ⟨hlen, hxs⟩ := hasFrame_raisingState
  simp only [raisedBy, List.forall_mem_cons, awgnCourse_error_iff]
  refine ⟨⟨nopos, ?_⟩, ⟨nopos, ?_⟩, ⟨posWord 0, ?_⟩, ⟨nopos, ?_⟩, ⟨nopos, ?_⟩, List.forall_mem_nil _⟩
  · exact .inl ⟨raisingState_tooLong, rfl⟩
  · exact .inr (.inl ⟨raisingState_flen_le (by decide), by decide, rfl⟩)
  · exact .inr (.inr (.inl ⟨raisingState_flen_le (by decide), by decide, 0, by decide, symbolOperand_raisingState,
      by simp⟩))
  · exact .inr (.inr (.inr ⟨raisingState_flen_le (by decide), by decide, [], rfl, by simp, .inl ⟨rfl, rfl⟩⟩))
  · have hpower : isFinite (power farApart) = false := by decide +kernel
    exact .inr (.inr (.inr ⟨raisingState_flen_le (by decide), by decide, farApart, hlen, hxs,
      .inr (.inl ⟨by decide, hpower, rfl⟩)⟩))

theorem pnrot_raises (c : Config) :
    ∀ e ∈ raisedBy .pnrot, ∃ pos, pnrotCourse c (raisingState e) = .error (.block e pos) := by
  obtain ⟨hlen, hxs⟩ := hasFrame_raisingState
  simp only [raisedBy, List.forall_mem_cons, pnrotCourse_error_iff, phaseNoise_legal_iff,
    Bool.and_eq_false_iff]
  refine ⟨⟨nopos, ?_⟩, ⟨nopos, ?_⟩, ⟨posWord 0, ?_⟩, ⟨nopos, ?_⟩, List.forall_mem_nil _⟩
  · exact .inl ⟨raisingState_tooLong, rfl⟩
  · exact .inr (.inl ⟨raisingState_flen_le (by decide), .inl (.inl (by decide)), rfl⟩)
  · exact .inr (.inr (.inl ⟨raisingState_flen_le (by decide), by decide, by decide, 0, by decide,
      symbolOperand_raisingState, by simp⟩))
  · have htheta : isFinite (rotationAngle 0x7FEFFFFFFFFFFFFF) = false := by decide +kernel
    exact .inr (.inr (.inr ⟨raisingState_flen_le (by decide), by decide, by decide, farApart, hlen, hxs,
      .inl ⟨.inr htheta, rfl⟩⟩))

theorem finish_of_raise {op : Byte} {s : State} {r : Except Stop State} {e : BlockError}
    (h : ∃ pos, r = .error (.block e pos)) : ∃ t, finish op s r = .next t ∧ t.errField = e.code := by
  obtain ⟨pos, rfl⟩ := h
  exact ⟨_, finish_block op s e pos, report_errField _ _ _ _⟩

/-- Each error of a command's row is raised, by the command, from the error's state. -/
theorem exec_raises {i : Instr} {e : BlockError} (he : e ∈ raisedBy i) :
    ∃ t, exec i (raisingState e) = .next t ∧ t.errField = e.code := by
  cases i with
  | map => exact finish_of_raise (map_raises e he)
  | demap => exact finish_of_raise (demap_raises e he)
  | slice => exact finish_of_raise (slice_raises e he)
  | awgn => exact finish_of_raise (awgn_raises Config.chip e he)
  | pnrot => exact finish_of_raise (pnrot_raises Config.chip e he)
  | seed => exact absurd he List.not_mem_nil

theorem exec_errField_mem {i : Instr} {s t : State} (h : exec i s = .next t) :
    t.errField = 0 ∨ t.errField ∈ codesOf i := by
  rcases exec_next h with ⟨u, _, rfl⟩ | ⟨e, pos, he, rfl⟩
  · exact .inl (report_errField _ _ _ _)
  · rw [report_errField, codesOf_eq]
    cases he with
    | frame he _ | element _ he _ _ _ => exact .inr (List.mem_map_of_mem he)

end Sys2Proof.Machine

namespace Sys2Proof.Proofs

open Sys2Proof.Machine Sys2Proof.Claims

/-- Settles O44: success and error both end in `State.report`. -/
theorem bookkeeping : Obligations.Bookkeeping := by
  intro s t w h
  rcases runCommandWord_next h with ⟨u, rfl⟩ | ⟨e, pos, rfl⟩
  · exact ⟨report_lastOpField _ _ _ _, statusWord_lt _ _, .inl ⟨report_errField _ _ _ _, rfl⟩⟩
  · exact ⟨report_lastOpField _ _ _ _, statusWord_lt _ _, .inr ⟨raise_errField_ne_zero _ _ _ _, rfl⟩⟩

/-- Settles O45: the model's own rows have the codes of R116's table, and `raisingState` has a state for each error. -/
theorem errorTable : Obligations.ErrorTable := by
  refine ⟨fun i s t => exec_errField_mem, fun i c hc => ?_, fun s w hw => ?_⟩
  · rw [codesOf_eq] at hc
    obtain ⟨e, he, rfl⟩ := List.mem_map.mp hc
    obtain ⟨t, hexec, hcode⟩ := exec_raises he
    exact ⟨_, t, raisingState_legal e, hexec, hcode⟩
  · exact ⟨_, runCommandWord_of_not_ok fun i hi => hw i (decode_eq_ok_iff.mp hi), report_errField _ _ _ _⟩

/-- Settles O47: what a successful command writes to SYM is finite or a ROM point, and every point of a legal ROM is
finite. -/
theorem onlyFiniteValuesWritten : Obligations.OnlyFiniteValuesWritten := fun _ _ _ hr h h0 =>
  ⟨fun hi _ hk => exec_symEntry_finite h h0 hr hi hk, fun hi _ hk => exec_idxEntry_position h h0 hi hk⟩

end Sys2Proof.Proofs
end

section
/-! PROOFS. The reset event (70_reset_and_hazards.md R128, R131): the step that performs it, and what its next state
holds. -/

namespace Sys2Proof.Machine

/-- The access is taken from the port before the event, so what is left of the port is kept through it. -/
theorem step_of_reset {s : State} {rest : List HostAccess} (hp : s.port = .reset :: rest) :
    step s = .next ({ s with port := rest } : State).resetEvent := by
  rw [step_of_port hp, performAccess]

end Sys2Proof.Machine

namespace Sys2Proof.Proofs

open Sys2Proof.Machine

/-- Settles O14: R45's values are those of the reset state (O13), and the event keeps the five fields that are not
reset. -/
theorem resetEventFromAnyState : Obligations.ResetEventFromAnyState := by
  intro s rest hp
  obtain ⟨hstatus, herrpos, hflen, hsnrDb, hpnParam, hrotDeg, hseed, _, _, hrng, hmem⟩ := resetValues
  exact ⟨_, step_of_reset hp, hstatus, herrpos, hflen, hsnrDb, hpnParam, hrotDeg, hseed, hrng, hmem,
    resetEvent_caps _, resetEvent_cmap _, resetEvent_faultRecord _, resetEvent_port _, resetEvent_returned _⟩

end Sys2Proof.Proofs
end
